-- ==== Sys2Proof/Word.lean ====
section
/-! DEFINITION. The two word types of the block: 32-bit words of the host interface and of the command stream
(00_scope.md R6, 30_encoding.md R70) and 8-bit bytes of the framebuffer, the text and the sink (10_state.md R20). -/

namespace Sys2Proof

/-- A 32-bit word written to the CMD port, or a 32-bit register of the window (R25, R70). -/
abbrev Word := BitVec 32

/-- An 8-bit byte: of the framebuffer, of a text, of a sink transaction (R20, R75, R190). -/
abbrev Byte := BitVec 8

end Sys2Proof
end

