-- ==== Sys2Proof/Syntax.lean ====
section
/-! DEFINITION. The command set: one constructor per row of spec/opcode_table.json (30_encoding.md R77), its operands
already assembled (R72 to R76), and the error cause codes (60_exceptions.md R210). -/

namespace Sys2Proof

/-- A command with its operands. Coordinates are signed integers (R72), sizes are natural numbers (R74, R76), handles are
32-bit values without meaning to the block (R73), a text is a byte string (R75). -/
inductive Instr where
  /-- SET_PIXEL x, y, on (R102). -/
  | setPixel (x y : Int) (on : Bool)
  /-- CLEAR (R103). -/
  | clear
  /-- FLUSH (R193). -/
  | flush
  /-- DRAW_BOX x1, y1, x2, y2, color (R124). -/
  | drawBox (x1 y1 x2 y2 : Int) (on : Bool)
  /-- DRAW_CIRCLE cx, cy, diameter, color (R125). -/
  | drawCircle (cx cy : Int) (diam : Nat) (on : Bool)
  /-- DRAW_LINE x1, y1, x2, y2, color, thickness (R126). -/
  | drawLine (x1 y1 x2 y2 : Int) (on : Bool) (thick : Nat)
  /-- DRAW_IMAGE handle, x_offset, y_offset, scale (R144); scale is the raw Q8.8 value. -/
  | drawImage (handle : Word) (xo yo : Int) (scale : Nat)
  /-- DRAW_TEXT x, y, wrap, size, font, text, with G = get_height (R172). -/
  | drawText (x y : Int) (wrap size : Nat) (font : Word) (getHeight : Bool) (text : List Byte)
  /-- INIT (R197). -/
  | init
  /-- GET_PIXEL x, y (R104). -/
  | getPixel (x y : Int)
  deriving DecidableEq, Repr

/-- The error causes of R210; codes 6 to 15 are never produced, code 0 means no error. -/
inductive ErrorCode where
  /-- A header whose OPC is 0x00 or 0x0B to 0xFF (R80). -/
  | illegalOpcode
  /-- A header bit under the opcode's MASK differs from MATCH (R79, R80). -/
  | reservedField
  /-- DECODE answers FAIL (R144). -/
  | decodeError
  /-- FONT_OK answers false (R172). -/
  | fontError
  /-- A sink transaction is answered FAIL (R198). -/
  | transportError
  deriving DecidableEq, Repr

end Sys2Proof
end

