-- ==== Sys2Proof/WellFormed.lean ====
section
/-! DEFINITION. Which commands can be encoded: every operand in its field's range (30_encoding.md R72, R74, R76; R83:
an operand out of its field's range is refused by the assembler). -/

namespace Sys2Proof

/-- The range of a signed 16-bit coordinate, −32768 to 32767 (R72). -/
def coordOk (v : Int) : Bool := -32768 ≤ v && v ≤ 32767

/-- The range of an unsigned 16-bit size, 0 to 65535 (R74, R76). -/
def sizeOk (n : Nat) : Bool := n ≤ 65535

/-- Every operand is in its field's range (R72, R74, R76, R83). -/
def Instr.wellFormed : Instr → Bool
  | .setPixel x y _ => coordOk x && coordOk y
  | .clear => true
  | .flush => true
  | .drawBox x1 y1 x2 y2 _ => coordOk x1 && coordOk y1 && coordOk x2 && coordOk y2
  | .drawCircle cx cy diam _ => coordOk cx && coordOk cy && sizeOk diam
  | .drawLine x1 y1 x2 y2 _ thick => coordOk x1 && coordOk y1 && coordOk x2 && coordOk y2 && sizeOk thick
  | .drawImage _ xo yo scale => coordOk xo && coordOk yo && sizeOk scale
  | .drawText x y wrap size _ _ text => coordOk x && coordOk y && sizeOk wrap && sizeOk size && sizeOk text.length
  | .init => true
  | .getPixel x y => coordOk x && coordOk y

end Sys2Proof
end

