-- ==== Sys2Proof/Decode.lean ====
section
/-! DEFINITION. From words to commands and back (30_encoding.md). The decoder is total on any list of words and rejects by
the name of the error cause (R78, R80); the encoder writes the packet of a command from the same tables (R77, R79). -/

namespace Sys2Proof

/-! ## Fields of a word -/

/-- A signed 16-bit field: bits lo + 15 to lo, sext_16 (R8, R72). -/
def sext16At (w : Word) (lo : Nat) : Int := (w.extractLsb' lo 16).toInt

/-- An unsigned 16-bit field: bits lo + 15 to lo, zext_16 (R8, R74, R76). -/
def zext16At (w : Word) (lo : Nat) : Nat := (w.extractLsb' lo 16).toNat

/-- A coordinate-pair word: the first operand in bits 15:0, the second in bits 31:16 (R72). -/
def coordWord (a b : Int) : Word := BitVec.ofInt 16 b ++ BitVec.ofInt 16 a

/-- Two unsigned 16-bit values in one word: the first in bits 15:0, the second in bits 31:16 (R74). -/
def sizeWord (a b : Nat) : Word := BitVec.ofNat 16 b ++ BitVec.ofNat 16 a

/-- Byte i of the text in the words from word 4 on: bits 8 (i mod 4) + 7 to 8 (i mod 4) of word i div 4 (R75). -/
def textByte (ws : List Word) (i : Nat) : Byte := (ws.getD (i / 4) 0).extractLsb' (8 * (i % 4)) 8

/-- The first n text bytes; bytes of the last word beyond them are ignored (R75). -/
def unpackText (n : Nat) (ws : List Word) : List Byte := (List.range n).map (textByte ws)

/-- The text words of a byte string, four bytes a word, the lower-addressed byte in the lower bits (R53, R75). The unused
bytes of the last word are written as zero. -/
def packText : List Byte → List Word
  | [] => []
  | [b0] => [(0#24 ++ b0 : BitVec 32)]
  | [b0, b1] => [(0#16 ++ b1 ++ b0 : BitVec 32)]
  | [b0, b1, b2] => [(0#8 ++ b2 ++ b1 ++ b0 : BitVec 32)]
  | b0 :: b1 :: b2 :: b3 :: rest => (b3 ++ b2 ++ b1 ++ b0 : BitVec 32) :: packText rest

/-! ## Opcodes -/

/-- The ten opcodes of R77. -/
inductive Opcode where
  | setPixel | clear | flush | drawBox | drawCircle | drawLine | drawImage | drawText | init | getPixel
  deriving DecidableEq, Repr

/-- The OPC field of each opcode (R77). -/
def opcByte : Opcode → Byte
  | .setPixel => 0x01
  | .clear => 0x02
  | .flush => 0x03
  | .drawBox => 0x04
  | .drawCircle => 0x05
  | .drawLine => 0x06
  | .drawImage => 0x07
  | .drawText => 0x08
  | .init => 0x09
  | .getPixel => 0x0A

/-- The opcode of an OPC field; every value outside R77 is illegal (R80). -/
def opcodeOf (b : Byte) : Option Opcode :=
  match b.toNat with
  | 0x01 => some .setPixel
  | 0x02 => some .clear
  | 0x03 => some .flush
  | 0x04 => some .drawBox
  | 0x05 => some .drawCircle
  | 0x06 => some .drawLine
  | 0x07 => some .drawImage
  | 0x08 => some .drawText
  | 0x09 => some .init
  | 0x0A => some .getPixel
  | _ => none

/-- MATCH of the header word (R79). -/
def headerMatch : Opcode → Word
  | .setPixel => 0x00000001
  | .clear => 0x00000002
  | .flush => 0x00000003
  | .drawBox => 0x00000004
  | .drawCircle => 0x00000005
  | .drawLine => 0x00000006
  | .drawImage => 0x00000007
  | .drawText => 0x00000008
  | .init => 0x00000009
  | .getPixel => 0x0000000A

/-- MASK of the header word: the bits that must equal MATCH (R79). -/
def headerMask : Opcode → Word
  | .setPixel => 0xFFFFFEFF
  | .clear => 0xFFFFFFFF
  | .flush => 0xFFFFFFFF
  | .drawBox => 0xFFFFFEFF
  | .drawCircle => 0x0000FEFF
  | .drawLine => 0x0000FEFF
  | .drawImage => 0x0000FFFF
  | .drawText => 0x0000FDFF
  | .init => 0xFFFFFFFF
  | .getPixel => 0xFFFFFFFF

/-- The words of a DRAW_TEXT packet with L text bytes, 4 + ceil(L / 4) (R70, R82). -/
def textPacketLength (len : Nat) : Nat := 4 + (len + 3) / 4

/-- The length in words of an opcode's packet, given word 2 where it has arrived: R70, and for DRAW_TEXT the TEXT_LEN field
of word 2 (R78, R82). `none`: not known yet. -/
def opcodeLength : Opcode → Option Word → Option Nat
  | .setPixel, _ => some 2
  | .clear, _ => some 1
  | .flush, _ => some 1
  | .drawBox, _ => some 3
  | .drawCircle, _ => some 2
  | .drawLine, _ => some 3
  | .drawImage, _ => some 3
  | .drawText, some w2 => some (textPacketLength (zext16At w2 0))
  | .drawText, none => none
  | .init, _ => some 1
  | .getPixel, _ => some 2

/-- The opcode of a header word, from its OPC field, bits 7:0 (R71). -/
def headerOpcode (h : Word) : Option Opcode := opcodeOf (h.extractLsb' 0 8)

/-- The length of the packet whose words so far are ws; an illegal header is a packet of one word (R78, R80, D37). `none`:
no header yet, or DRAW_TEXT without its word 2. -/
def packetLength (ws : List Word) : Option Nat :=
  match ws with
  | [] => none
  | h :: _ =>
    match headerOpcode h with
    | none => some 1
    | some op => opcodeLength op ws[2]?

/-- The packet buffer holds a complete packet (R39, R82). -/
def packetComplete (ws : List Word) : Bool :=
  match packetLength ws with
  | none => false
  | some n => n ≤ ws.length

/-! ## Decoding -/

/-- What decoding a list of words gives (R78): a command and its length, an error cause and the length consumed, or no
complete packet yet. -/
inductive Decoded where
  | ok (i : Instr) (n : Nat)
  | bad (c : ErrorCode) (n : Nat)
  | incomplete
  deriving DecidableEq, Repr

/-- The operands of a packet (R71 to R77): h is word 0, ws the whole packet. -/
def operandsOf (op : Opcode) (h : Word) (ws : List Word) : Instr :=
  let c := h.getLsbD 8
  let g := h.getLsbD 9
  let u := zext16At h 16
  let w1 := ws.getD 1 0
  let w2 := ws.getD 2 0
  let w3 := ws.getD 3 0
  match op with
  | .setPixel => .setPixel (sext16At w1 0) (sext16At w1 16) c
  | .clear => .clear
  | .flush => .flush
  | .drawBox => .drawBox (sext16At w1 0) (sext16At w1 16) (sext16At w2 0) (sext16At w2 16) c
  | .drawCircle => .drawCircle (sext16At w1 0) (sext16At w1 16) u c
  | .drawLine => .drawLine (sext16At w1 0) (sext16At w1 16) (sext16At w2 0) (sext16At w2 16) c u
  | .drawImage => .drawImage w2 (sext16At w1 0) (sext16At w1 16) u
  | .drawText =>
    .drawText (sext16At w1 0) (sext16At w1 16) u (zext16At w2 16) w3 g (unpackText (zext16At w2 0) (ws.drop 4))
  | .init => .init
  | .getPixel => .getPixel (sext16At w1 0) (sext16At w1 16)

/-- The header has a bit under MASK that differs from MATCH (R79). -/
def headerReserved (op : Opcode) (h : Word) : Bool := h &&& headerMask op != headerMatch op

/-- Decode of R78, on the words of the stream from a header on: the opcode is checked first, then the reserved bits (R216),
and the packet is consumed at the returned length. -/
def decode (ws : List Word) : Decoded :=
  match ws with
  | [] => .incomplete
  | h :: _ =>
    match headerOpcode h with
    | none => .bad .illegalOpcode 1
    | some op =>
      match opcodeLength op ws[2]? with
      | none => .incomplete
      | some n =>
        if ws.length < n then .incomplete
        else if headerReserved op h then .bad .reservedField n
        else .ok (operandsOf op h ws) n

/-! ## Encoding -/

/-- A header word from its fields (R71): U16, six reserved zeros, G, C, OPC. -/
def headerWord (op : Opcode) (c g : Bool) (u : Nat) : Word :=
  (BitVec.ofNat 16 u ++ 0#6 ++ BitVec.ofBool g ++ BitVec.ofBool c ++ opcByte op : BitVec 32)

/-- The packet of a command (R71 to R77, R79). -/
def encode : Instr → List Word
  | .setPixel x y on => [headerWord .setPixel on false 0, coordWord x y]
  | .clear => [headerWord .clear false false 0]
  | .flush => [headerWord .flush false false 0]
  | .drawBox x1 y1 x2 y2 on => [headerWord .drawBox on false 0, coordWord x1 y1, coordWord x2 y2]
  | .drawCircle cx cy diam on => [headerWord .drawCircle on false diam, coordWord cx cy]
  | .drawLine x1 y1 x2 y2 on thick => [headerWord .drawLine on false thick, coordWord x1 y1, coordWord x2 y2]
  | .drawImage handle xo yo scale => [headerWord .drawImage false false scale, coordWord xo yo, handle]
  | .drawText x y wrap size font g text =>
    [headerWord .drawText false g wrap, coordWord x y, sizeWord text.length size, font] ++ packText text
  | .init => [headerWord .init false false 0]
  | .getPixel x y => [headerWord .getPixel false false 0, coordWord x y]

/-- The length in words of a command's packet (R70). -/
def Instr.packetWords : Instr → Nat
  | .setPixel _ _ _ => 2
  | .clear => 1
  | .flush => 1
  | .drawBox _ _ _ _ _ => 3
  | .drawCircle _ _ _ _ => 2
  | .drawLine _ _ _ _ _ _ => 3
  | .drawImage _ _ _ _ => 3
  | .drawText _ _ _ _ _ _ text => textPacketLength text.length
  | .init => 1
  | .getPixel _ _ => 2

/-- The opcode of a command. -/
def Instr.opcode : Instr → Opcode
  | .setPixel _ _ _ => .setPixel
  | .clear => .clear
  | .flush => .flush
  | .drawBox _ _ _ _ _ => .drawBox
  | .drawCircle _ _ _ _ => .drawCircle
  | .drawLine _ _ _ _ _ _ => .drawLine
  | .drawImage _ _ _ _ => .drawImage
  | .drawText _ _ _ _ _ _ _ => .drawText
  | .init => .init
  | .getPixel _ _ => .getPixel

/-! ## A table word -/

/-- Word k of a packet whose bits are v, bit 0 the least significant bit of the first word. -/
def tableWord (v k : Nat) : Word := BitVec.ofNat 32 (v >>> (32 * k))

/-- The packet whose nbits lowest bits are those of w and whose other bits are 0, at the length its header and word 2 give
it (R70, R78). -/
def tablePacket (nbits w : Nat) : List Word :=
  let v := w % 2 ^ nbits
  let n := (packetLength [tableWord v 0, tableWord v 1, tableWord v 2]).getD 1
  (List.range n).map (tableWord v)

/-- The command the decoder reads from an instruction whose bits are w. -/
def decodeTableWord (nbits w : Nat) : Option Instr :=
  match decode (tablePacket nbits w) with
  | .ok i _ => some i
  | .bad _ _ => none
  | .incomplete => none

end Sys2Proof
end

