-- ==== Sys2Proof/Config.lean ====
section
/-! DEFINITION. What one implementation fixes (00_scope.md R6) and the free values.
The parameters that are plain data form `Config.Params`, which the state carries so that every statement holds for all
of them. The parameters that are functions, and the values the spec leaves open, are constants without a body: nothing can
evaluate them, so a statement holds whatever they are. -/

namespace Sys2Proof

/-- One pixel of a decoded image: four integers in 0..255 (R140). -/
structure Pixel where
  r : Byte
  g : Byte
  b : Byte
  a : Byte
  deriving DecidableEq, Repr, Inhabited

/-- A decoded image: width, height and its w × h pixels, row by row from the top (R140). -/
structure Image where
  w : Nat
  h : Nat
  px : Vector Pixel (w * h)
  deriving DecidableEq, Repr

/-- The parameters of R6 that are plain data. -/
structure Config.Params where
  /-- CMD_FIFO_DEPTH, in words (R38, D35). -/
  fifoDepth : Nat
  /-- PAGE_CMD_BASE: page p is selected by this byte OR p (R193, D21). -/
  pageCmdBase : Byte
  /-- COL_LO_CMD (R193, D21). -/
  colLoCmd : Byte
  /-- COL_HI_CMD (R193, D21). -/
  colHiCmd : Byte
  /-- INIT_SEQ, the command bytes INIT sends (R196, D22). -/
  initSeq : List Byte
  deriving DecidableEq, Repr

/-- The default INIT_SEQ, 25 bytes (R196). -/
def Config.defaultInitSeq : List Byte :=
  [0xAE, 0xD5, 0x80, 0xA8, 0x3F, 0xD3, 0x00, 0x40, 0x8D, 0x14, 0x20, 0x00, 0xA1, 0xC8, 0xDA, 0x12, 0x81, 0x7F, 0xD9,
   0x22, 0xDB, 0x20, 0xA4, 0xA6, 0xAF]

/-- MAX_PACKET_WORDS, 4 + ceil(65535 / 4) (R6, R39). -/
def Config.maxPacketWords : Nat := 16388

/-- The parameters with the defaults of R6, R193 and R196. CMD_FIFO_DEPTH has no default in the spec: DESIGN CHOICE, one
longest packet (log 1, unsafe); no statement rests on it. -/
def Config.defaultParams : Config.Params where
  fifoDepth := Config.maxPacketWords
  pageCmdBase := 0xB0
  colLoCmd := 0x00
  colHiCmd := 0x10
  initSeq := Config.defaultInitSeq

/-- CMD_FIFO_DEPTH is at least one word (R6). -/
def Config.Params.wf (p : Config.Params) : Bool := 1 ≤ p.fifoDepth

/-- RESAMPLE's value at output pixel (x, y) of size nw × nh, where the size changes (R142): a parameter under no law but
those of `Machine.resample` (log 8). Arguments: the image, nw, nh, x, y. -/
opaque Config.resampleAt : Image → Nat → Nat → Nat → Nat → Pixel

/-- TEXT_W(font, size, s): the measured width of s (R160, log 9). -/
opaque Config.textW : Word → Nat → List Byte → Nat

/-- TEXT_H(font, size, s): the height of the bounding box of s (R160, log 9). -/
opaque Config.textH : Word → Nat → List Byte → Nat

/-- RENDER(font, size, s, px, py): the points lit when s is drawn with its anchor at (px, py) (R160, log 9). The set is
given as a list; order and repetition have no effect (R169, log 23). -/
opaque Config.render : Word → Nat → List Byte → Int → Int → List (Int × Int)

/-- The sink's answer to a transaction the plain-data answers do not cover (R190, D40, log 3); true is OK. -/
opaque Config.freeSinkAnswer : Nat → Bool

/-- FONT_OK(font, size) where the plain-data answers do not cover it (R160, D42, log 3). -/
opaque Config.freeFontOk : Word → Nat → Nat → Bool

/-- DECODE(handle) where the plain-data answers do not cover it (R140, D43, log 3); `none` is FAIL. -/
opaque Config.freeDecode : Word → Nat → Option Image

/-- The word a read of RESULT or FBWIN returns while BUSY = 1 (R34, R52, log 7). -/
opaque Config.freeReadWord : Nat → Word

/-- How many interactions of a running packet with the outside were complete when a reset aborted it (R243, log 6). -/
opaque Config.freeAbortPoint : Nat → Nat

end Sys2Proof
end

