-- ==== Sys2Proof/Machine/State.lean ====
section
/-! DEFINITION. The state of one instance (10_state.md R41), as plain data: the block's own state, the parameters it was
built with, what the outside will do next, and what the outside has seen of the block. -/

namespace Sys2Proof.Machine

/-- The framebuffer's bytes by index (R20): indices strictly rising, no listed byte 0x00. An unlisted index reads 0x00, the
reset contents (R20). -/
abbrev Memory := List Host.Cell

/-- The engine is in one of three states (R40). -/
inductive Engine where
  /-- No complete packet in the packet buffer. -/
  | idle
  /-- Executing a packet. -/
  | exec
  /-- ERR = 1: stopped until the host clears ERR or resets. -/
  | halted
  deriving DecidableEq, Repr

/-- The tag of a sink transaction (R190). -/
inductive SinkTag where
  | cmd
  | data
  deriving DecidableEq, Repr

/-- One sink transaction of the sink log, with its answer (R190): `ok` is true for OK, false for FAIL. -/
structure SinkTxn where
  tag : SinkTag
  byte : Byte
  ok : Bool
  deriving DecidableEq, Repr

/-- One read the host made: the window offset and the value returned (R25, log 19). -/
structure HostRead where
  offset : BitVec 11
  value : Word
  deriving DecidableEq, Repr

/-- One request to a collaborator other than the sink: DECODE with its handle (R140), FONT_OK with its font and size
(R160). -/
inductive Request where
  | decode (handle : Word)
  | fontOk (font : Word) (size : Nat)
  deriving DecidableEq, Repr

/-- Who moves next (R60, log 5): the engine, or the host with one access to the 2 KiB window (R25, R254). -/
inductive Turn where
  | engine
  | write (offset : BitVec 11) (w : Word)
  | read (offset : BitVec 11)
  deriving DecidableEq, Repr

/-- What the outside will do next, oldest first (log 3, log 5). The fields are the model's own, not state of the block
(R41: "the answers are draws"). -/
structure Env where
  /-- The moves to come; when none is left, the engine moves. -/
  turns : List Turn
  /-- The sink's next answers; true is OK (R190). -/
  sinkAnswers : List Bool
  /-- FONT_OK's next answers (R160). -/
  fontAnswers : List Bool
  /-- DECODE's next answers; `none` is FAIL (R140). -/
  decodeAnswers : List (Option Image)
  /-- How many free values have been drawn: the argument of the next one. -/
  draws : Nat
  deriving DecidableEq, Repr

/-- What the outside has seen of the block, oldest first (R41: "the log is the observation"). -/
structure Observed where
  /-- The sink log (R190). -/
  sink : List SinkTxn
  /-- What the host has read (log 19). -/
  reads : List HostRead
  /-- What the decoder and the font provider were asked (log 19). -/
  asked : List Request
  deriving DecidableEq, Repr

/-- The complete state (R41): the ten fields of the block, the parameters (R6), the environment and the observation. -/
structure State where
  /-- FB (R20). -/
  fb : Memory
  /-- The command FIFO, head first (R38). -/
  fifo : List Word
  /-- The packet buffer, header first (R39). -/
  pkt : List Word
  /-- The engine state (R40). -/
  engine : Engine
  /-- STATUS.ERR (R28). -/
  err : Bool
  /-- STATUS.ECODE (R31). -/
  ecode : BitVec 4
  /-- STATUS.DROP (R30). -/
  drop : Bool
  /-- RESULT (R34). -/
  result : Word
  /-- CSP, the command stream pointer (R35). -/
  csp : Word
  /-- EPKT, the position of the header of the last packet that ended in an error (R36). -/
  epkt : Word
  /-- The parameters of R6; no step changes them (R240). -/
  cfg : Config.Params
  /-- What the outside will do next. -/
  env : Env
  /-- What the outside has seen. -/
  obs : Observed
  deriving DecidableEq, Repr

/-- Why a step can stop with a fault. -/
inductive Fault where
  /-- Raised by `engineStep` alone, in a state that no run reaches: the engine is in EXEC without a complete packet in the
  packet buffer, against R40. Safe: the machine stops where the spec has no such state (log 16). -/
  | execWithoutPacket
  deriving DecidableEq, Repr

/-- Why a step can be refused. -/
inductive Refusal where
  /-- Raised by an arm of `exec` whose command has no meaning yet; no arm does (safe: the machine stops). -/
  | notModelled (mnemonic : String)
  deriving DecidableEq, Repr

/-- The environment at reset: nothing is planned, so the engine moves and every answer is free. DESIGN CHOICE (log 4). -/
def Env.reset : Env where
  turns := []
  sinkAnswers := []
  fontAnswers := []
  decodeAnswers := []
  draws := 0

/-- Nothing has been seen yet (95_test_vectors.md section 0: sink log empty; log 4). -/
def Observed.reset : Observed where
  sink := []
  reads := []
  asked := []

/-- The machine right after power-on reset (R240, R241). -/
def State.reset : State where
  fb := []
  fifo := []
  pkt := []
  engine := .idle
  err := false
  ecode := 0
  drop := false
  result := 0
  csp := 0
  epkt := 0
  cfg := Config.defaultParams
  env := Env.reset
  obs := Observed.reset

end Sys2Proof.Machine
end

