-- ==== Sys2Proof/Machine/Ops.lean ====
section
/-! DEFINITION. The operations the commands share: bytes and pixels of the framebuffer (10_state.md R20, R21;
40_framebuffer.md R100, R101), the end of a packet and the taking of an error with its return (30_encoding.md R86;
60_exceptions.md R211, R214), reset (70_reset_and_hazards.md R240), and the questions to the outside (R140, R160, R190). -/

namespace Sys2Proof.Machine

/-! ## Bytes -/

/-- `FB[a]` (R51); an unlisted byte is 0x00 (R20). -/
def Memory.read : Memory → Nat → Byte
  | [], _ => 0#8
  | (k, v) :: rest, a => if k = a then v else Memory.read rest a

/-- `FB[a] <- v` (R51), keeping the canonical form: sorted by index, no 0x00 listed. -/
def Memory.write : Memory → Nat → Byte → Memory
  | [], a, v => if v = 0#8 then [] else [(a, v)]
  | (k, w) :: rest, a, v =>
    if k < a then (k, w) :: Memory.write rest a v
    else if k = a then (if v = 0#8 then rest else (a, v) :: rest)
    else (if v = 0#8 then (k, w) :: rest else (a, v) :: (k, w) :: rest)

/-- The canonical form from index lo on: indices rising, inside 0..1023 (R20), no byte 0x00. -/
def Memory.wfFrom (lo : Nat) : Memory → Bool
  | [] => true
  | (k, v) :: rest => lo ≤ k && k < 1024 && v != 0#8 && Memory.wfFrom (k + 1) rest

/-- The canonical form of a framebuffer. -/
def Memory.wf (m : Memory) : Bool := Memory.wfFrom 0 m

/-- Every byte 0x00 (R103, R240). -/
def Memory.zero : Memory := []

/-! ## Pixels -/

/-- InBounds(x, y): 0 ≤ x < 128 and 0 ≤ y < 64, for integers of any size (R100). -/
def inBounds (x y : Int) : Bool := 0 ≤ x && x < 128 && 0 ≤ y && y < 64

/-- The byte index of an in-bounds pixel, x + (y div 8) × 128 (R21). -/
def pixIndex (x y : Int) : Nat := x.toNat + y.toNat / 8 * 128

/-- The bit of an in-bounds pixel in its byte, y mod 8 (R21). -/
def pixBit (y : Int) : Nat := y.toNat % 8

/-- pix(x, y) of an in-bounds pixel: true is lit (R21). -/
def Memory.pix (m : Memory) (x y : Int) : Bool := (m.read (pixIndex x y)).getLsbD (pixBit y)

/-- SetPixel(x, y, on): the clipped read-modify-write of one pixel (R101). -/
def Memory.setPixel (m : Memory) (x y : Int) (on : Bool) : Memory :=
  if inBounds x y then
    let i := pixIndex x y
    let mask : Byte := 1#8 <<< pixBit y
    m.write i (if on then m.read i ||| mask else m.read i &&& ~~~mask)
  else m

/-- SetPixel of every point of a list with one colour. -/
def Memory.setPixels (m : Memory) (pts : List (Int × Int)) (on : Bool) : Memory :=
  pts.foldl (fun m p => m.setPixel p.1 p.2 on) m

/-! ## Registers -/

/-- The block with another framebuffer. -/
def State.setFb (s : State) (fb : Memory) : State := { s with fb := fb }

/-- `RESULT <- v` (R34). -/
def State.setResult (s : State) (v : Word) : State := { s with result := v }

/-! ## The end of a packet -/

/-- Completion without error of a packet of n words (R86): CSP advances by n mod 2^32 (R35), the packet buffer is emptied,
the engine is IDLE. -/
def State.retire (n : Nat) (s : State) : State :=
  { s with csp := s.csp + BitVec.ofNat 32 n, pkt := [], engine := .idle }

/-- The cause codes of R210. -/
def ecodeOf : ErrorCode → BitVec 4
  | .illegalOpcode => 1
  | .reservedField => 2
  | .decodeError => 3
  | .fontError => 4
  | .transportError => 5

/-- Error entry for a packet of n words (R211): ERR and ECODE are set, EPKT takes the position of the packet's header,
which CSP holds during the packet (R35), the whole packet is consumed, the packet buffer is emptied, the engine halts.
FIFO, RESULT, FB and DROP keep their values. -/
def State.raiseError (n : Nat) (c : ErrorCode) (s : State) : State :=
  { s with
    err := true
    ecode := ecodeOf c
    epkt := s.csp
    csp := s.csp + BitVec.ofNat 32 n
    pkt := []
    engine := .halted }

/-- Resume, the return from an error (R214): ERR and ECODE are cleared, the engine is IDLE; nothing else changes. -/
def State.resume (s : State) : State := { s with err := false, ecode := 0, engine := .idle }

/-- What reset does to the block (R240, R241). The parameters are configuration (R240), what was seen stays seen (R243). -/
def State.blockReset (s : State) : State :=
  { s with
    fb := Memory.zero
    fifo := []
    pkt := []
    engine := .idle
    err := false
    ecode := 0
    drop := false
    result := 0
    csp := 0
    epkt := 0 }

/-! ## Questions to the outside -/

/-- A free value is drawn: the next one is another. -/
def State.drawn (s : State) : State := { s with env := { s.env with draws := s.env.draws + 1 } }

/-- The sink's answer to the next transaction, a draw under no law (R190, D40): from the planned answers, then free
(log 3). -/
def State.sinkAnswer (s : State) : Bool :=
  match s.env.sinkAnswers with
  | a :: _ => a
  | [] => Config.freeSinkAnswer s.env.draws

/-- The state after the sink's answer was taken. -/
def State.afterSinkAnswer (s : State) : State :=
  match s.env.sinkAnswers with
  | _ :: rest => { s with env := { s.env with sinkAnswers := rest } }
  | [] => s.drawn

/-- FONT_OK(font, size), a draw under no law (R160, D42): from the planned answers, then free (log 3). -/
def State.fontAnswer (s : State) (font : Word) (size : Nat) : Bool :=
  match s.env.fontAnswers with
  | a :: _ => a
  | [] => Config.freeFontOk font size s.env.draws

/-- The state after FONT_OK was asked: the request is seen, its answer taken. -/
def State.afterFontOk (s : State) (font : Word) (size : Nat) : State :=
  let s1 : State := { s with obs := { s.obs with asked := s.obs.asked ++ [.fontOk font size] } }
  match s.env.fontAnswers with
  | _ :: rest => { s1 with env := { s.env with fontAnswers := rest } }
  | [] => s1.drawn

/-- DECODE(handle), a draw under no law (R140, D43): from the planned answers, then free (log 3). -/
def State.decodeAnswer (s : State) (handle : Word) : Option Image :=
  match s.env.decodeAnswers with
  | a :: _ => a
  | [] => Config.freeDecode handle s.env.draws

/-- The state after DECODE was asked: the request is seen, its answer taken. -/
def State.afterDecode (s : State) (handle : Word) : State :=
  let s1 : State := { s with obs := { s.obs with asked := s.obs.asked ++ [.decode handle] } }
  match s.env.decodeAnswers with
  | _ :: rest => { s1 with env := { s.env with decodeAnswers := rest } }
  | [] => s1.drawn

end Sys2Proof.Machine
end

