-- ==== Sys2Proof/Machine/Operands.lean ====
section
/-! DEFINITION. The operand forms the meanings share: inclusive integer ranges (00_scope.md R8), the rectangles of the
frame they are clipped to (41_rasterizer.md R124), and the scale of an image (42_image.md R141). -/

namespace Sys2Proof.Machine

/-- The inclusive range lo, lo + 1, ..., hi; empty when lo > hi (R8). -/
def intRange (lo hi : Int) : List Int := (List.range (hi - lo + 1).toNat).map fun (k : Nat) => lo + (k : Int)

/-- The points (x, y) with x in x1 .. x2 and y in y1 .. y2, row by row. -/
def rectPoints (x1 y1 x2 y2 : Int) : List (Int × Int) :=
  (intRange y1 y2).flatMap fun y => (intRange x1 x2).map fun x => (x, y)

/-- The part of a rectangle inside the frame: x in max(x1, 0) .. min(x2, 127), y in max(y1, 0) .. min(y2, 63) (R124). -/
def clippedRect (x1 y1 x2 y2 : Int) : List (Int × Int) := rectPoints (max x1 0) (max y1 0) (min x2 127) (min y2 63)

/-- floor(v × S / 256) for the raw Q8.8 scale S (R76, R141). -/
def scaledSize (v scale : Nat) : Nat := v * scale / 256

end Sys2Proof.Machine
end

