-- ==== Sys2Proof/Machine/Framebuffer.lean ====
section
/-! DEFINITION. The framebuffer commands SET_PIXEL, CLEAR and GET_PIXEL (40_framebuffer.md R102 to R104). -/

namespace Sys2Proof.Machine

/-- SET_PIXEL: set or clear one pixel, clipped (R102). -/
def execSetPixel (x y : Int) (on : Bool) (s : State) : Host.Outcome State Fault Refusal :=
  .next ((s.setFb (s.fb.setPixel x y on)).retire 2)

/-- CLEAR: every byte 0x00, no sink transaction (R103). -/
def execClear (s : State) : Host.Outcome State Fault Refusal :=
  .next ((s.setFb Memory.zero).retire 1)

/-- GET_PIXEL: RESULT is the pixel as 0 or 1, and 0 outside the frame (R104). -/
def execGetPixel (x y : Int) (s : State) : Host.Outcome State Fault Refusal :=
  .next ((s.setResult (if inBounds x y then (BitVec.ofBool (s.fb.pix x y)).setWidth 32 else 0)).retire 2)

end Sys2Proof.Machine
end

