-- ==== Sys2Proof/Machine/Image.lean ====
section
/-! DEFINITION. The image command DRAW_IMAGE (42_image.md R140 to R144). -/

namespace Sys2Proof.Machine

/-- The pixel (x, y) of an image, 0 ≤ x < w and 0 ≤ y < h (R140); no other is asked for. -/
def imagePixel (img : Image) (x y : Nat) : Pixel := img.px.toArray.getD (y * img.w + x) default

/-- RESAMPLE(img, nw, nh) with the pixels `at` where the size changes (R142): (a) exactly nw × nh pixels, (b) channels in
0..255, (c) the image itself when the size does not change. These are the only laws (D8, log 8). -/
def resampleWith (pixelAt : Image → Nat → Nat → Nat → Nat → Pixel) (img : Image) (nw nh : Nat) : Image :=
  if nw = img.w ∧ nh = img.h then img
  else ⟨nw, nh, Vector.ofFn fun i : Fin (nw * nh) => pixelAt img nw nh (i.val % nw) (i.val / nw)⟩

/-- RESAMPLE, the parameter of this implementation (R142). -/
def resample (img : Image) (nw nh : Nat) : Image := resampleWith Config.resampleAt img nw nh

/-- Alpha > 127, strictly (R143). -/
def opaqueAt (img : Image) (x y : Nat) : Bool := 127 < (imagePixel img x y).a.toNat

/-- The frame's points an image at an offset lights: those of its rectangle, clipped to the frame, whose alpha is > 127
(R143, R144). -/
def imagePoints (img : Image) (xo yo : Int) : List (Int × Int) :=
  (clippedRect xo yo (xo + img.w - 1) (yo + img.h - 1)).filter fun p =>
    opaqueAt img (p.1 - xo).toNat (p.2 - yo).toNat

/-- Composite a decoded image (R141, R143, R144): nothing when a new dimension is 0 (D7), else light the points of the
resampled image; no pixel is cleared. -/
def Memory.compositeWith (pixelAt : Image → Nat → Nat → Nat → Nat → Pixel) (m : Memory) (img : Image) (scale : Nat)
    (xo yo : Int) : Memory :=
  let nw := scaledSize img.w scale
  let nh := scaledSize img.h scale
  if nw = 0 ∨ nh = 0 then m else m.setPixels (imagePoints (resampleWith pixelAt img nw nh) xo yo) true

/-- Composite with the RESAMPLE of this implementation. -/
def Memory.composite (m : Memory) (img : Image) (scale : Nat) (xo yo : Int) : Memory :=
  m.compositeWith Config.resampleAt img scale xo yo

/-- DRAW_IMAGE: ask the decoder once; FAIL is DECODE_ERROR with FB unchanged, an image is composited (R144). -/
def execDrawImage (handle : Word) (xo yo : Int) (scale : Nat) (s : State) : Host.Outcome State Fault Refusal :=
  .next (match s.decodeAnswer handle with
    | none => (s.afterDecode handle).raiseError 3 .decodeError
    | some img => ((s.afterDecode handle).setFb (s.fb.composite img scale xo yo)).retire 3)

end Sys2Proof.Machine
end

