-- ==== Sys2Proof/Machine/Rasterizer.lean ====
section
/-! DEFINITION. The rasterizer commands DRAW_BOX, DRAW_CIRCLE and DRAW_LINE (41_rasterizer.md R120 to R126). All arithmetic
is on exact integers (D4). The loops of boxes and disks run over the part of their square inside the frame, which R124
derives for boxes; the square as R120 and R124 write it stands beside each as `boxPoints` and `diskPoints` (log 10). -/

namespace Sys2Proof.Machine

/-! ## Boxes -/

/-- The points of a box as R124 writes it: x in x1 .. x2, y in y1 .. y2. -/
def boxPoints (x1 y1 x2 y2 : Int) : List (Int × Int) := rectPoints x1 y1 x2 y2

/-- Fill a box: the clipped loop of R124. -/
def Memory.fillBox (m : Memory) (x1 y1 x2 y2 : Int) (on : Bool) : Memory := m.setPixels (clippedRect x1 y1 x2 y2) on

/-! ## Disks -/

/-- The points of Disk(cx, cy, d) as R120 writes it: the offsets of the square of radius d div 2 with dx² + dy² ≤ r². -/
def diskPoints (cx cy : Int) (d : Nat) : List (Int × Int) :=
  let r : Int := (d / 2 : Nat)
  ((rectPoints (-r) (-r) r r).filter fun p => p.1 * p.1 + p.2 * p.2 ≤ r * r).map fun p => (cx + p.1, cy + p.2)

/-- The points of Disk(cx, cy, d) inside the frame (R120, log 10). -/
def diskPointsClipped (cx cy : Int) (d : Nat) : List (Int × Int) :=
  let r : Int := (d / 2 : Nat)
  (clippedRect (cx - r) (cy - r) (cx + r) (cy + r)).filter fun p =>
    (p.1 - cx) * (p.1 - cx) + (p.2 - cy) * (p.2 - cy) ≤ r * r

/-- Disk(cx, cy, d, on): stamp a filled disk of radius d div 2 (R120). -/
def Memory.disk (m : Memory) (cx cy : Int) (d : Nat) (on : Bool) : Memory := m.setPixels (diskPointsClipped cx cy d) on

/-! ## The walk -/

/-- What one walk does not change: |x2 − x1|, |y2 − y1|, the step signs and the endpoint (R121). -/
structure Walk where
  dx : Int
  dy : Int
  sx : Int
  sy : Int
  x2 : Int
  y2 : Int
  deriving DecidableEq, Repr

/-- The constants of Walk(x1, y1, x2, y2) (R121, D11). -/
def walkOf (x1 y1 x2 y2 : Int) : Walk where
  dx := (x2 - x1).natAbs
  dy := (y2 - y1).natAbs
  sx := if x1 < x2 then 1 else -1
  sy := if y1 < y2 then 1 else -1
  x2 := x2
  y2 := y2

/-- One pass of the loop of R121: (x, y, err) after it. Both tests use e2 = 2 × err from before the pass (D10). -/
def walkStep (w : Walk) (p : Int × Int × Int) : Int × Int × Int :=
  let (x, y, err) := p
  let e2 := 2 * err
  let (x, err) := if e2 > -w.dy then (x + w.sx, err - w.dy) else (x, err)
  let (y, err) := if e2 < w.dx then (y + w.sy, err + w.dx) else (y, err)
  (x, y, err)

/-- The points from (x, y, err) on, up to the endpoint; the first argument bounds the number of passes (log 11). -/
def walkFrom (w : Walk) : Nat → Int × Int × Int → List (Int × Int)
  | 0, p => [(p.1, p.2.1)]
  | n + 1, p => if p.1 = w.x2 ∧ p.2.1 = w.y2 then [(p.1, p.2.1)] else (p.1, p.2.1) :: walkFrom w n (walkStep w p)

/-- Walk(x1, y1, x2, y2): the points the line visits, in order (R121). It has max(dx, dy) + 1 points (R122), so max(dx, dy)
passes are enough (log 11). -/
def walk (x1 y1 x2 y2 : Int) : List (Int × Int) :=
  let w := walkOf x1 y1 x2 y2
  walkFrom w (max w.dx w.dy).toNat (x1, y1, w.dx - w.dy)

/-- A disk at every point of a list (R126). -/
def Memory.stampDisks (m : Memory) (pts : List (Int × Int)) (d : Nat) (on : Bool) : Memory :=
  pts.foldl (fun m p => m.disk p.1 p.2 d on) m

/-! ## Commands -/

/-- DRAW_BOX: fill a rectangle, both ends inclusive; an inverted range is empty (R124, D9). -/
def execDrawBox (x1 y1 x2 y2 : Int) (on : Bool) (s : State) : Host.Outcome State Fault Refusal :=
  .next ((s.setFb (s.fb.fillBox x1 y1 x2 y2 on)).retire 3)

/-- DRAW_CIRCLE: stamp a filled disk (R125). -/
def execDrawCircle (cx cy : Int) (diam : Nat) (on : Bool) (s : State) : Host.Outcome State Fault Refusal :=
  .next ((s.setFb (s.fb.disk cx cy diam on)).retire 2)

/-- DRAW_LINE: a disk of the thickness at every point of the walk (R126). -/
def execDrawLine (x1 y1 x2 y2 : Int) (on : Bool) (thick : Nat) (s : State) : Host.Outcome State Fault Refusal :=
  .next ((s.setFb (s.fb.stampDisks (walk x1 y1 x2 y2) thick on)).retire 3)

end Sys2Proof.Machine
end

