-- ==== Sys2Proof/Machine/Streamer.lean ====
section
/-! DEFINITION. The streamer commands FLUSH and INIT (44_streamer.md R190 to R198). -/

namespace Sys2Proof.Machine

/-- One sink transaction: it is issued and logged with its answer, also when the answer is FAIL (R190, R192). -/
def State.emit (tag : SinkTag) (b : Byte) (s : State) : State :=
  let s1 := s.afterSinkAnswer
  { s1 with obs := { s1.obs with sink := s1.obs.sink ++ [⟨tag, b, s.sinkAnswer⟩] } }

/-- Transactions in order, each after the answer to the one before (R191); the first FAIL ends them (R192, R198). The Bool
says that every answer was OK. -/
def emitAll : List (SinkTag × Byte) → State → State × Bool
  | [], s => (s, true)
  | (tag, b) :: rest, s => if s.sinkAnswer then emitAll rest (s.emit tag b) else (s.emit tag b, false)

/-- The transactions of one page of a FLUSH: page select, two column commands, 128 data bytes (R193). -/
def pageTxns (cfg : Config.Params) (fb : Memory) (p : Nat) : List (SinkTag × Byte) :=
  [(.cmd, cfg.pageCmdBase ||| BitVec.ofNat 8 p), (.cmd, cfg.colLoCmd), (.cmd, cfg.colHiCmd)]
    ++ (List.range 128).map fun x => (.data, fb.read (x + p * 128))

/-- The transactions of a FLUSH, pages 0 to 7 (R193, R194). -/
def flushTxns (cfg : Config.Params) (fb : Memory) : List (SinkTag × Byte) :=
  (List.range 8).flatMap (pageTxns cfg fb)

/-- The transactions of an INIT: INIT_SEQ, all as commands, in order (R197). -/
def initTxns (cfg : Config.Params) : List (SinkTag × Byte) := cfg.initSeq.map fun b => (.cmd, b)

/-- A one-word packet that issues transactions: it completes when every answer is OK, and ends with TRANSPORT_ERROR at the
first FAIL (R192, R198). -/
def streamPacket (txns : List (SinkTag × Byte)) (s : State) : State :=
  match emitAll txns s with
  | (s1, true) => s1.retire 1
  | (s1, false) => s1.raiseError 1 .transportError

/-- FLUSH: send the whole framebuffer as it stands at the packet's start (R193, R249). -/
def execFlush (s : State) : Host.Outcome State Fault Refusal := .next (streamPacket (flushTxns s.cfg s.fb) s)

/-- INIT: send the controller initialization sequence (R197). -/
def execInit (s : State) : Host.Outcome State Fault Refusal := .next (streamPacket (initTxns s.cfg) s)

end Sys2Proof.Machine
end

