-- ==== Sys2Proof/Machine/Text.lean ====
section
/-! DEFINITION. The text command DRAW_TEXT (43_text.md R160 to R173). -/

namespace Sys2Proof.Machine

/-- The font provider's functions, for one font and size (R160): TEXT_W, TEXT_H and RENDER. -/
structure FontProvider where
  textW : List Byte → Nat
  textH : List Byte → Nat
  render : List Byte → Int → Int → List (Int × Int)

/-- The provider of this implementation, applied to FONT_HANDLE and FONT_SIZE (R160). -/
def fontProvider (font : Word) (size : Nat) : FontProvider where
  textW := Config.textW font size
  textH := Config.textH font size
  render := Config.render font size

/-- The whitespace bytes (R161, D14). -/
def isWhite (b : Byte) : Bool := b == 0x09 || b == 0x0A || b == 0x0B || b == 0x0C || b == 0x0D || b == 0x20

/-- The empty test: no byte, or only whitespace bytes (R161). -/
def textBlank (text : List Byte) : Bool := text.all isWhite

/-- Tokens(T): the split at every byte 0x20; a token may be empty (R162). -/
def tokens : List Byte → List (List Byte)
  | [] => [[]]
  | b :: rest =>
    if b = 0x20 then [] :: tokens rest
    else match tokens rest with
      | [] => [[b]]
      | t :: ts => (b :: t) :: ts

/-- The hyphen, byte 0x2D (R164). -/
def hyphen : Byte := 0x2D

/-- A string of width w fits at cursor x cx (R163). -/
def fits (wrap : Nat) (cx : Int) (w : Nat) : Bool := wrap == 0 || cx + w ≤ wrap

/-- The loop of R164 from length k on: shorten by one byte, and again until the rest with its hyphen fits or has one byte;
a length of 0 or 1 stays. -/
def shrinkFrom (fitsAt : Nat → Bool) : Nat → Nat
  | 0 => 0
  | 1 => 1
  | k + 2 => if fitsAt (k + 1) then k + 1 else shrinkFrom fitsAt (k + 1)

/-- The number of bytes of a token that does not fit that are rendered before the hyphen (R164): the width is measured
again at each length. -/
def shrinkLen (fp : FontProvider) (wrap : Nat) (cx : Int) (tok : List Byte) : Nat :=
  shrinkFrom (fun k => cx + fp.textW (tok.take k ++ [hyphen]) ≤ wrap) tok.length

/-- The layout in progress: the cursor, the tallest height so far, and the glyph canvas (R23, R167, R172). The canvas is a
W × H bitmap in the framebuffer's pixel coordinates; it is held in the framebuffer's packing (R170, log 13). -/
structure Layout where
  cx : Int
  cy : Int
  maxh : Nat
  canvas : Memory
  deriving DecidableEq, Repr

/-- Render(s, px, py) at the cursor: light the string's in-frame points in the canvas and track its height (R167, R169). -/
def renderAt (fp : FontProvider) (str : List Byte) (l : Layout) : Layout :=
  { l with maxh := max l.maxh (fp.textH str), canvas := l.canvas.setPixels (fp.render str l.cx l.cy) true }

/-- A token that fits: render it, advance by its width and the width of one space (R165). -/
def placeToken (fp : FontProvider) (tok : List Byte) (l : Layout) : Layout :=
  let l1 := renderAt fp tok l
  { l1 with cx := l.cx + fp.textW tok + fp.textW [0x20] }

/-- A token that does not fit: render its fragment with a hyphen, go to the left margin x one line height FONT_SIZE lower
(R164, R166). -/
def placeFragment (fp : FontProvider) (x : Int) (size k : Nat) (tok : List Byte) (l : Layout) : Layout :=
  let l1 := renderAt fp (tok.take k ++ [hyphen]) l
  { l1 with cx := x, cy := l.cy + size }

/-- The layout loop of R172; the first argument bounds the number of passes (R173, log 12). -/
def layoutLoop (fp : FontProvider) (x : Int) (wrap size : Nat) : Nat → List (List Byte) → Layout → Layout
  | 0, _, l => l
  | _ + 1, [], l => l
  | n + 1, tok :: pending, l =>
    if fits wrap l.cx (fp.textW tok) then layoutLoop fp x wrap size n pending (placeToken fp tok l)
    else
      let k := shrinkLen fp wrap l.cx tok
      let rest := tok.drop k
      layoutLoop fp x wrap size n (if rest.isEmpty then pending else rest :: pending) (placeFragment fp x size k tok l)

/-- The layout before the first token: the cursor at (x, y), no height, an all-zero canvas (R23, R172). -/
def layoutStart (x y : Int) : Layout := ⟨x, y, 0, Memory.zero⟩

/-- The layout of a text: at most 2L + 1 passes (R173). -/
def layoutText (fp : FontProvider) (x y : Int) (wrap size : Nat) (text : List Byte) : Layout :=
  layoutLoop fp x wrap size (2 * text.length + 1) (tokens text) (layoutStart x y)

/-- Transfer(): each canvas byte is ORed into the framebuffer byte at its index (R170). -/
def Memory.transfer (m canvas : Memory) : Memory :=
  (List.range 1024).foldl (fun m i => m.write i (m.read i ||| canvas.read i)) m

/-- The total height (cy − y) + maxh, mod 2^32 (R168). -/
def layoutHeight (y : Int) (l : Layout) : Word := BitVec.ofInt 32 ((l.cy - y) + l.maxh)

/-- The effect of DRAW_TEXT with a given provider (R172): the empty test, then the font check, then layout, RESULT, and the
transfer unless G = 1 (R161, R168, R171). -/
def drawTextWith (fp : FontProvider) (x y : Int) (wrap size : Nat) (font : Word) (getHeight : Bool) (text : List Byte)
    (s : State) : State :=
  let n := textPacketLength text.length
  if textBlank text then (s.setResult 0).retire n
  else if s.fontAnswer font size then
    let l := layoutText fp x y wrap size text
    let s1 := (s.afterFontOk font size).setResult (layoutHeight y l)
    (if getHeight then s1 else s1.setFb (s1.fb.transfer l.canvas)).retire n
  else (s.afterFontOk font size).raiseError n .fontError

/-- DRAW_TEXT: lay out and draw a byte string with greedy word wrap (R172). -/
def execDrawText (x y : Int) (wrap size : Nat) (font : Word) (getHeight : Bool) (text : List Byte) (s : State) :
    Host.Outcome State Fault Refusal :=
  .next (drawTextWith (fontProvider font size) x y wrap size font getHeight text s)

end Sys2Proof.Machine
end

