-- ==== Sys2Proof/Machine/Dispatch.lean ====
section
/-! DEFINITION. One arm per command (30_encoding.md R77). -/

namespace Sys2Proof.Machine

def exec (i : Instr) (s : State) : Host.Outcome State Fault Refusal :=
  match i with
  | .setPixel x y on => Sys2Proof.Machine.execSetPixel x y on s
  | .clear => Sys2Proof.Machine.execClear s
  | .flush => Sys2Proof.Machine.execFlush s
  | .drawBox x1 y1 x2 y2 on => Sys2Proof.Machine.execDrawBox x1 y1 x2 y2 on s
  | .drawCircle cx cy diam on => Sys2Proof.Machine.execDrawCircle cx cy diam on s
  | .drawLine x1 y1 x2 y2 on thick => Sys2Proof.Machine.execDrawLine x1 y1 x2 y2 on thick s
  | .drawImage handle xo yo scale => Sys2Proof.Machine.execDrawImage handle xo yo scale s
  | .drawText x y wrap size font getHeight text => Sys2Proof.Machine.execDrawText x y wrap size font getHeight text s
  | .init => Sys2Proof.Machine.execInit s
  | .getPixel x y => Sys2Proof.Machine.execGetPixel x y s

end Sys2Proof.Machine
end

