-- ==== Sys2Proof/Machine/Engine.lean ====
section
/-! DEFINITION. The engine's move (10_state.md R38 to R40; 30_encoding.md R86). -/

namespace Sys2Proof.Machine

/-- One word from the head of the FIFO to the end of the packet buffer (R38, R39). As soon as the packet is complete the
engine is in EXEC (R39, R40). An empty FIFO leaves the engine waiting (R226, R247). -/
def fetchWord (s : State) : State :=
  match s.fifo with
  | [] => s
  | w :: rest =>
    { s with
      fifo := rest
      pkt := s.pkt ++ [w]
      engine := if packetComplete (s.pkt ++ [w]) then .exec else s.engine }

/-- The packet in the buffer is decoded and runs to completion, or ends with its decoding error (R86, R216). -/
def runPacket (s : State) : Host.Outcome State Fault Refusal :=
  match decode s.pkt with
  | .ok i _ => exec i s
  | .bad c n => .next (s.raiseError n c)
  | .incomplete => .fault .execWithoutPacket

/-- The engine's move (R40, R86): HALTED does nothing (R213); EXEC runs the packet; IDLE starts a complete packet, or else
fetches a word. -/
def engineStep (s : State) : Host.Outcome State Fault Refusal :=
  match s.engine with
  | .halted => .next s
  | .exec => runPacket s
  | .idle => if packetComplete s.pkt then runPacket { s with engine := .exec } else .next (fetchWord s)

end Sys2Proof.Machine
end

