-- ==== Sys2Proof/Machine/Flags.lean ====
section
/-! DEFINITION. The block has no condition flags (10_state.md R37). Its status bits are those of the STATUS register: BUSY
and FULL are computed (R27, R29, R41), ERR, DROP and ECODE are stored, and STATUS is their word (R26). -/

namespace Sys2Proof.Machine

/-- STATUS.BUSY: the engine is executing a packet, or the FIFO or the packet buffer holds a word (R27). -/
def State.busy (s : State) : Bool := s.engine == .exec || !s.fifo.isEmpty || !s.pkt.isEmpty

/-- STATUS.FULL: the FIFO holds CMD_FIFO_DEPTH words (R29). -/
def State.full (s : State) : Bool := s.fifo.length == s.cfg.fifoDepth

/-- The STATUS word (R26): bit 0 BUSY, bit 1 ERR, bit 2 FULL, bit 3 DROP, bits 11:8 ECODE, every other bit 0. -/
def State.statusWord (s : State) : Word :=
  (0#20 ++ s.ecode ++ 0#4 ++ BitVec.ofBool s.drop ++ BitVec.ofBool s.full ++ BitVec.ofBool s.err
    ++ BitVec.ofBool s.busy : BitVec 32)

end Sys2Proof.Machine
end

