-- ==== Sys2Proof/Machine/HostPort.lean ====
section
/-! DEFINITION. The host's accesses to the register window (10_state.md R25 to R36; 20_memory.md R52 to R56;
70_reset_and_hazards.md R240, R243, R254). -/

namespace Sys2Proof.Machine

/-- What stands at an offset of the window (R25, R55). -/
inductive Reg where
  | status
  | ctrl
  | cmd
  | result
  | csp
  | epkt
  | unmapped
  /-- Word k of FBWIN (R52). -/
  | fbwin (k : Nat)
  deriving DecidableEq, Repr

/-- The register at an offset: bits 1:0 of the offset are ignored (R54); the map is that of R25 and R55. -/
def regAt (offset : BitVec 11) : Reg :=
  match offset.toNat / 4 with
  | 0 => .status
  | 1 => .ctrl
  | 2 => .cmd
  | 3 => .result
  | 4 => .csp
  | 5 => .epkt
  | k => if 256 ≤ k then .fbwin (k - 256) else .unmapped

/-! ## Reads -/

/-- FBWIN word k: FB[4k] in bits 7:0 up to FB[4k + 3] in bits 31:24 (R52, R53). -/
def fbWord (m : Memory) (k : Nat) : Word :=
  (m.read (4 * k + 3) ++ m.read (4 * k + 2) ++ m.read (4 * k + 1) ++ m.read (4 * k) : BitVec 32)

/-- The read returns an unspecified value: RESULT and FBWIN while BUSY = 1 (R34, R52, R246). -/
def readUnspecified (r : Reg) (s : State) : Bool :=
  match r with
  | .result => s.busy
  | .fbwin _ => s.busy
  | _ => false

/-- The value a read returns (R25, R32 to R36, R52, R55); a free value where it is unspecified (log 7). -/
def readValue (r : Reg) (s : State) : Word :=
  if readUnspecified r s then Config.freeReadWord s.env.draws
  else match r with
    | .status => s.statusWord
    | .ctrl => 0
    | .cmd => 0
    | .result => s.result
    | .csp => s.csp
    | .epkt => s.epkt
    | .unmapped => 0
    | .fbwin k => fbWord s.fb k

/-- A host read: it changes nothing of the block (R56); the value is seen. -/
def hostRead (offset : BitVec 11) (s : State) : State :=
  let s1 : State := { s with obs := { s.obs with reads := s.obs.reads ++ [⟨offset, readValue (regAt offset) s⟩] } }
  if readUnspecified (regAt offset) s then s1.drawn else s1

/-! ## Writes -/

/-- A write to CMD: the word is appended to the FIFO, or dropped with DROP set when FULL = 1 (R30, R33). -/
def cmdWrite (w : Word) (s : State) : State :=
  if s.full then { s with drop := true } else { s with fifo := s.fifo ++ [w] }

/-- A write to STATUS: bit 1 = 1 while ERR = 1 resumes (R28, R214), bit 3 = 1 clears DROP (R30), both at once if both are 1
(R26); every other bit is ignored. -/
def statusWrite (w : Word) (s : State) : State :=
  let s1 := if w.getLsbD 1 && s.err then s.resume else s
  if w.getLsbD 3 then { s1 with drop := false } else s1

/-- What a packet in EXEC has done to the outside when a reset aborts it after k interactions (R243, U17, log 6): k of the
transactions of a FLUSH or INIT, or the one question of a DRAW_IMAGE or DRAW_TEXT if k is not 0. -/
def abortedAfter (k : Nat) (s : State) : State :=
  match decode s.pkt with
  | .ok .flush _ => (emitAll ((flushTxns s.cfg s.fb).take k) s).1
  | .ok .init _ => (emitAll ((initTxns s.cfg).take k) s).1
  | .ok (.drawImage handle _ _ _) _ => if k = 0 then s else s.afterDecode handle
  | .ok (.drawText _ _ _ size font _ text) _ => if k = 0 || textBlank text then s else s.afterFontOk font size
  | .ok _ _ => s
  | .bad _ _ => s
  | .incomplete => s

/-- CTRL.RESET: abort the packet in execution, if any, at an arbitrary point, then reset (R32, R240, R243). -/
def hostReset (s : State) : State :=
  if s.engine = .exec then (abortedAfter (Config.freeAbortPoint s.env.draws) s.drawn).blockReset else s.blockReset

/-- A host write (R25, R26, R32, R33, R56); writes elsewhere are ignored. -/
def hostWrite (offset : BitVec 11) (w : Word) (s : State) : State :=
  match regAt offset with
  | .status => statusWrite w s
  | .ctrl => if w.getLsbD 0 then hostReset s else s
  | .cmd => cmdWrite w s
  | .result => s
  | .csp => s
  | .epkt => s
  | .unmapped => s
  | .fbwin _ => s

end Sys2Proof.Machine
end

