-- ==== Sys2Proof/Machine/Step.lean ====
section
/-! DEFINITION. One move of the machine: the engine's or the host's, as the turns say (20_memory.md R60; log 5). -/

namespace Sys2Proof.Machine

/-- The state with the given turns to come. -/
def State.withTurns (s : State) (turns : List Turn) : State := { s with env := { s.env with turns := turns } }

/-- One step (R60, R254): the next turn is the engine's or one host access; with no turn planned the engine moves. -/
def step (s : State) : Host.Outcome State Fault Refusal :=
  match s.env.turns with
  | [] => engineStep s
  | .engine :: rest => engineStep (s.withTurns rest)
  | .write offset w :: rest => .next (hostWrite offset w (s.withTurns rest))
  | .read offset :: rest => .next (hostRead offset (s.withTurns rest))

/-- s with the packet of a table word complete in the packet buffer, the engine in EXEC on it and to move next, so that the
next step runs exactly that packet (log 17). -/
def State.withFetchWord (s : State) (nbits w : Nat) : State :=
  { s.withTurns [] with pkt := tablePacket nbits w, engine := .exec, err := false, ecode := 0 }

end Sys2Proof.Machine
end

