-- ==== Sys2Proof/Machine/Assembler.lean ====
section
/-! DEFINITION. The assembler: from a line of text to the words it stands for (30_encoding.md R83 to R85). `none` is the
assembler's refusal. -/

namespace Sys2Proof.Machine

/-! ## Lexing -/

/-- A piece of a line: a run of plain characters, a string's bytes, or a comma. -/
inductive AsmToken where
  | atom (cs : List Char)
  | str (bs : List Byte)
  | comma
  deriving DecidableEq, Repr

/-- Where the lexer stands: between tokens, in a plain run, in a string, after a backslash, after the x of a \xHH escape,
after its first digit. Runs and strings are kept in reverse. -/
inductive LexMode where
  | between
  | inAtom (acc : List Char)
  | inString (acc : List Byte)
  | escape (acc : List Byte)
  | hexHigh (acc : List Byte)
  | hexLow (acc : List Byte) (high : Nat)
  deriving DecidableEq, Repr

/-- The value of a hexadecimal digit, of either case (log 26). -/
def hexDigit (c : Char) : Option Nat :=
  let n := c.toNat
  if 48 ≤ n ∧ n ≤ 57 then some (n - 48)
  else if 65 ≤ n ∧ n ≤ 70 then some (n - 55)
  else if 97 ≤ n ∧ n ≤ 102 then some (n - 87)
  else none

/-- A space or a tab, which separates a mnemonic from its operands (log 26). -/
def isBlankChar (c : Char) : Bool := c.toNat == 32 || c.toNat == 9

/-- The character code of a double quote. -/
def quoteCode : Nat := 34

/-- The character code of a backslash. -/
def backslashCode : Nat := 92

/-- The character code of a semicolon, which starts a comment (R83). -/
def semicolonCode : Nat := 59

/-- The character code of a comma. -/
def commaCode : Nat := 44

/-- The tokens of a line (R83, R85). In a string, backslash-quote, backslash-backslash and \xHH are the escapes, and every
other character stands for its one-byte code. DESIGN CHOICE: a backslash before any other character has no meaning in R85 and
the line is refused (log 27, unsafe). DESIGN CHOICE: R85 does not say what the one-byte code of a character outside ASCII is;
it is the code point for 0x80 to 0xFF, and a character from 0x100 on has none, so its line is refused (log 28, unsafe). -/
def lex : LexMode → List Char → Option (List AsmToken)
  | .between, [] => some []
  | .between, c :: cs =>
    if c.toNat = semicolonCode then some []
    else if isBlankChar c then lex .between cs
    else if c.toNat = commaCode then (lex .between cs).map (.comma :: ·)
    else if c.toNat = quoteCode then lex (.inString []) cs
    else lex (.inAtom [c]) cs
  | .inAtom acc, [] => some [.atom acc.reverse]
  | .inAtom acc, c :: cs =>
    if c.toNat = semicolonCode then some [.atom acc.reverse]
    else if isBlankChar c then (lex .between cs).map (.atom acc.reverse :: ·)
    else if c.toNat = commaCode then (lex .between cs).map fun ts => .atom acc.reverse :: .comma :: ts
    else if c.toNat = quoteCode then none
    else lex (.inAtom (c :: acc)) cs
  | .inString acc, c :: cs =>
    if c.toNat = quoteCode then (lex .between cs).map (.str acc.reverse :: ·)
    else if c.toNat = backslashCode then lex (.escape acc) cs
    else if c.toNat < 256 then lex (.inString (BitVec.ofNat 8 c.toNat :: acc)) cs
    else none
  | .escape acc, c :: cs =>
    if c.toNat = quoteCode ∨ c.toNat = backslashCode then lex (.inString (BitVec.ofNat 8 c.toNat :: acc)) cs
    else if c = 'x' then lex (.hexHigh acc) cs
    else none
  | .hexHigh acc, c :: cs =>
    match hexDigit c with
    | some d => lex (.hexLow acc d) cs
    | none => none
  | .hexLow acc high, c :: cs =>
    match hexDigit c with
    | some d => lex (.inString (BitVec.ofNat 8 (high * 16 + d) :: acc)) cs
    | none => none
  | .inString _, [] => none
  | .escape _, [] => none
  | .hexHigh _, [] => none
  | .hexLow _ _, [] => none

/-- The operands of a command: tokens separated by single commas (R83). -/
def splitOperands : List AsmToken → Option (List AsmToken)
  | [] => some []
  | [.comma] => none
  | [t] => some [t]
  | .comma :: _ :: _ => none
  | t :: .comma :: t' :: rest => (splitOperands (t' :: rest)).map (t :: ·)
  | _ :: _ :: _ => none

/-! ## Literals -/

/-- A digit string in a base, most significant digit first; the empty string is none. -/
def digitsValue (base : Nat) (cs : List Char) : Option Nat :=
  if cs.isEmpty then none
  else cs.foldl (fun acc c => acc.bind fun a => (hexDigit c).bind fun d => if d < base then some (a * base + d) else none)
    (some 0)

/-- A number: decimal with an optional minus sign, or hexadecimal after 0x (R85). -/
def numberOf : AsmToken → Option Int
  | .atom ('0' :: 'x' :: ds) => (digitsValue 16 ds).map fun (n : Nat) => (n : Int)
  | .atom ('-' :: ds) => (digitsValue 10 ds).map fun (n : Nat) => -(n : Int)
  | .atom ds => (digitsValue 10 ds).map fun (n : Nat) => (n : Int)
  | .str _ => none
  | .comma => none

/-- A number that is not negative. -/
def natOf (t : AsmToken) : Option Nat := (numberOf t).bind fun v => if 0 ≤ v then some v.toNat else none

/-- A word or handle, 0 to 2^32 − 1 (R83, R84). -/
def wordOf (t : AsmToken) : Option Word := (natOf t).bind fun n => if n < 2 ^ 32 then some (BitVec.ofNat 32 n) else none

/-- A colour: on = 1, off = 0, or a number that is 0 or 1 (R83, R85). -/
def colourOf (t : AsmToken) : Option Bool :=
  if t = .atom ['o', 'n'] then some true
  else if t = .atom ['o', 'f', 'f'] then some false
  else match numberOf t with
    | some 0 => some false
    | some 1 => some true
    | _ => none

/-- A string literal. -/
def stringOf : AsmToken → Option (List Byte)
  | .str bs => some bs
  | .atom _ => none
  | .comma => none

/-! ## Commands -/

/-- The names a line can begin with: the mnemonics of R83 and the pseudo-instructions of R84. -/
inductive AsmName where
  | op (o : Opcode)
  /-- DRAW_TEXT.H and MEASURE_TEXT: DRAW_TEXT with G = 1 (R83, R84). -/
  | measureText
  /-- CLS (R84). -/
  | cls
  /-- .word (R84). -/
  | word
  deriving DecidableEq, Repr

/-- The name's spelling (R83, R84). -/
def nameTable : List (List Char × AsmName) :=
  [(['S', 'E', 'T', '_', 'P', 'I', 'X', 'E', 'L'], .op .setPixel),
   (['C', 'L', 'E', 'A', 'R'], .op .clear),
   (['F', 'L', 'U', 'S', 'H'], .op .flush),
   (['D', 'R', 'A', 'W', '_', 'B', 'O', 'X'], .op .drawBox),
   (['D', 'R', 'A', 'W', '_', 'C', 'I', 'R', 'C', 'L', 'E'], .op .drawCircle),
   (['D', 'R', 'A', 'W', '_', 'L', 'I', 'N', 'E'], .op .drawLine),
   (['D', 'R', 'A', 'W', '_', 'I', 'M', 'A', 'G', 'E'], .op .drawImage),
   (['D', 'R', 'A', 'W', '_', 'T', 'E', 'X', 'T'], .op .drawText),
   (['D', 'R', 'A', 'W', '_', 'T', 'E', 'X', 'T', '.', 'H'], .measureText),
   (['M', 'E', 'A', 'S', 'U', 'R', 'E', '_', 'T', 'E', 'X', 'T'], .measureText),
   (['I', 'N', 'I', 'T'], .op .init),
   (['G', 'E', 'T', '_', 'P', 'I', 'X', 'E', 'L'], .op .getPixel),
   (['C', 'L', 'S'], .cls),
   (['.', 'w', 'o', 'r', 'd'], .word)]

/-- The name a run of characters spells. -/
def nameOf (cs : List Char) : Option AsmName := (nameTable.find? fun r => r.1 == cs).map (·.2)

/-- DRAW_TEXT's operands x, y, wrap, size, font, text, with the given G (R83). -/
def asmText (g : Bool) : List AsmToken → Option Instr
  | [x, y, wrap, size, font, text] => do
    return .drawText (← numberOf x) (← numberOf y) (← natOf wrap) (← natOf size) (← wordOf font) g (← stringOf text)
  | _ => none

/-- The command of a mnemonic and its operands, in the order of R83. -/
def asmInstr : Opcode → List AsmToken → Option Instr
  | .setPixel, [x, y, on] => do return .setPixel (← numberOf x) (← numberOf y) (← colourOf on)
  | .clear, [] => some .clear
  | .flush, [] => some .flush
  | .drawBox, [x1, y1, x2, y2, on] => do
    return .drawBox (← numberOf x1) (← numberOf y1) (← numberOf x2) (← numberOf y2) (← colourOf on)
  | .drawCircle, [cx, cy, diam, on] => do
    return .drawCircle (← numberOf cx) (← numberOf cy) (← natOf diam) (← colourOf on)
  | .drawLine, [x1, y1, x2, y2, on, thick] => do
    return .drawLine (← numberOf x1) (← numberOf y1) (← numberOf x2) (← numberOf y2) (← colourOf on) (← natOf thick)
  | .drawImage, [handle, xo, yo, scale] => do
    return .drawImage (← wordOf handle) (← numberOf xo) (← numberOf yo) (← natOf scale)
  | .drawText, ops => asmText false ops
  | .init, [] => some .init
  | .getPixel, [x, y] => do return .getPixel (← numberOf x) (← numberOf y)
  | _, _ => none

/-- The packet of a command, refused when an operand is out of its field's range (R83). -/
def asmEncode (i : Instr) : Option (List Word) := if i.wellFormed then some (encode i) else none

/-- The words of a name with its operands: one packet, or the expansion of a pseudo-instruction (R84). -/
def asmLine : AsmName → List AsmToken → Option (List Word)
  | .op o, ops => (asmInstr o ops).bind asmEncode
  | .measureText, ops => (asmText true ops).bind asmEncode
  | .cls, [] => some (encode .clear ++ encode .flush)
  | .cls, _ :: _ => none
  | .word, [w] => (wordOf w).map fun v => [v]
  | .word, _ => none

/-- The words of one line; a line without a name, or a comment alone, has none (R83, log 26). -/
def assembleLine (line : List Char) : Option (List Word) :=
  match lex .between line with
  | none => none
  | some [] => some []
  | some (.atom m :: ops) => (nameOf m).bind fun n => (splitOperands ops).bind (asmLine n)
  | some (_ :: _) => none

/-- The words of a program, one command a line (R83). -/
def assemble : List (List Char) → Option (List Word)
  | [] => some []
  | line :: rest => (assembleLine line).bind fun ws => (assemble rest).map (ws ++ ·)

end Sys2Proof.Machine
end

