-- ==== Sys2Proof/Safety.lean ====
section
/-! DEFINITION. What the statements are said in: the invariant that every step keeps, whose move is next, runs and their ends
(70_reset_and_hazards.md R253), the host's writing of a program to CMD, and which command a line of assembly spells
(30_encoding.md R83). -/

namespace Sys2Proof.Machine

/-- The invariant of the block: what the spec says of every state a run can reach. -/
structure State.Inv (s : State) : Prop where
  /-- FB is in canonical form: bytes 0 to 1023 and no other (R20, R22). -/
  fbCanonical : s.fb.wf = true
  /-- CMD_FIFO_DEPTH is at least 1 (R6). -/
  depthPositive : 1 ≤ s.cfg.fifoDepth
  /-- The FIFO holds at most CMD_FIFO_DEPTH words (R38). -/
  fifoBounded : s.fifo.length ≤ s.cfg.fifoDepth
  /-- The packet buffer holds at most MAX_PACKET_WORDS words (R39). -/
  pktBounded : s.pkt.length ≤ Config.maxPacketWords
  /-- IDLE: no complete packet in the packet buffer (R40). -/
  idleIncomplete : s.engine = .idle → packetComplete s.pkt = false
  /-- EXEC: the packet buffer holds exactly one complete packet (R39, R40). -/
  execComplete : s.engine = .exec → packetLength s.pkt = some s.pkt.length
  /-- HALTED: the packet buffer was emptied at error entry, and no word moves (R211, R213). -/
  haltedEmpty : s.engine = .halted → s.pkt = []
  /-- HALTED is ERR = 1 (R40). -/
  haltedErr : s.engine = .halted ↔ s.err = true
  /-- ECODE is 0 while ERR = 0 (R31). -/
  ecodeNone : s.err = false → s.ecode = 0#4
  /-- While ERR = 1, ECODE is one of 1 to 5 (R31, R210). -/
  ecodeSome : s.err = true → 1 ≤ s.ecode.toNat ∧ s.ecode.toNat ≤ 5

/-! ## Whose move is next (R60) -/

/-- The next move is the engine's. -/
def State.engineNext (s : State) : Prop := s.env.turns = [] ∨ ∃ rest, s.env.turns = .engine :: rest

/-- The turn is a write of 1 to CTRL bit 0, a reset (R32). -/
def Turn.resets : Turn → Bool
  | .engine => false
  | .read _ => false
  | .write offset w => regAt offset == .ctrl && w.getLsbD 0

/-- The next move is a reset by the host (R32). -/
def State.resetNext (s : State) : Prop := ∃ turn rest, s.env.turns = turn :: rest ∧ turn.resets = true

/-! ## Running -/

/-- k steps, stopping at the first fault or refusal. -/
def runSteps : Nat → State → Host.Outcome State Fault Refusal
  | 0, s => .next s
  | k + 1, s =>
    match step s with
    | .next t => runSteps k t
    | .fault r => .fault r
    | .refused r => .refused r

/-- The window offset of CMD (R25). -/
def cmdOffset : BitVec 11 := 0x008

/-- The host writes words to CMD, one after the other. -/
def cmdWrites (ws : List Word) : List Turn := ws.map (Turn.write cmdOffset)

/-- k moves of the engine. -/
def engineTurns (k : Nat) : List Turn := List.replicate k .engine

/-- The block's own state at power-on reset, with the parameters, the environment and the observation of s (R241). -/
def State.atReset (s : State) : State := { State.reset with cfg := s.cfg, env := s.env, obs := s.obs }

/-! ## The ends of a run (R253) -/

/-- The word a turn writes to CMD, if it does. -/
def Turn.cmdWord : Turn → Option Word
  | .engine => none
  | .read _ => none
  | .write offset w => if regAt offset = .cmd then some w else none

/-- The words the turns write to CMD, in order: the program P of a run that has these turns to come (R253). -/
def programWords (turns : List Turn) : List Word := turns.filterMap Turn.cmdWord

/-- A run begins (R253): the block is at its reset state, and no turn is a reset, which would begin another run (log 29). -/
def State.runStart (s : State) : Prop := s = s.atReset ∧ ∀ turn ∈ s.env.turns, turn.resets = false

/-- The next move is a write to CMD that finds FULL = 1, so that its word is dropped (R30, R33). -/
def State.dropsNext (s : State) : Bool :=
  match s.env.turns with
  | [] => false
  | turn :: _ => turn.cmdWord.isSome && s.full

/-- A word of P was dropped in the first k steps, whether or not the host has cleared DROP since (R30, R245, log 29). -/
def dropsWithin : Nat → State → Bool
  | 0, _ => false
  | k + 1, s =>
    s.dropsNext || match step s with
      | .next t => dropsWithin k t
      | .fault _ => false
      | .refused _ => false

/-- Every word of P is written: no write to CMD is to come (R253). -/
def State.allWritten (s : State) : Bool := (programWords s.env.turns).isEmpty

/-- Completed: every word of P written and not dropped, the engine IDLE, FIFO and packet buffer empty, ERR = 0 (R253). That no
word was dropped is said here by DROP = 0, and of the whole run by `runEnd`. -/
def State.completed (s : State) : Bool :=
  s.allWritten && !s.drop && s.engine == .idle && s.fifo.isEmpty && s.pkt.isEmpty && !s.err

/-- Error: ERR = 1 (R253). -/
def State.inError (s : State) : Bool := s.err

/-- Stuck: every word of P written, and the engine waits in an incomplete packet (R247, R253): with a word in the FIFO it would
still move (log 29). -/
def State.stuck (s : State) : Bool :=
  s.allWritten && s.engine == .idle && s.fifo.isEmpty && !s.pkt.isEmpty && !packetComplete s.pkt

/-- Dropped: DROP = 1, so the program the engine saw is not P (R253). -/
def State.dropped (s : State) : Bool := s.drop

/-- The ways a run ends (R253). -/
inductive RunEnd where
  | completed
  | error
  | stuck
  | dropped
  deriving DecidableEq, Repr

/-- How the run from s has ended after k steps, in exactly one way (R253); `none`: it goes on. DESIGN CHOICE: where a word was
dropped the end is `dropped` whatever else holds, since a claim about P does not apply then (log 29). DESIGN CHOICE: the end is
judged at step k, whatever host moves are still to come; a run in ERR = 1 is `error` there, and when the host clears ERR later it
goes on and may have another end at a later k (log 30). -/
def runEnd (k : Nat) (s : State) : Option RunEnd :=
  match runSteps k s with
  | .next t =>
    if dropsWithin k s || t.dropped then some .dropped
    else if t.inError then some .error
    else if t.completed then some .completed
    else if t.stuck then some .stuck
    else none
  | .fault _ => none
  | .refused _ => none

/-! ## What a line of assembly spells -/

/-- The name and the operands of a line spell the command: the mnemonic of R83, the operands in its order; G = 1 is spelled
DRAW_TEXT.H or MEASURE_TEXT (R83, R84). -/
def Spells : Instr → AsmName → List AsmToken → Prop
  | .setPixel x y on, n, ops =>
    n = .op .setPixel ∧ ∃ a b c, ops = [a, b, c] ∧ numberOf a = some x ∧ numberOf b = some y ∧ colourOf c = some on
  | .clear, n, ops => n = .op .clear ∧ ops = []
  | .flush, n, ops => n = .op .flush ∧ ops = []
  | .drawBox x1 y1 x2 y2 on, n, ops =>
    n = .op .drawBox ∧ ∃ a b c d e, ops = [a, b, c, d, e] ∧ numberOf a = some x1 ∧ numberOf b = some y1 ∧
      numberOf c = some x2 ∧ numberOf d = some y2 ∧ colourOf e = some on
  | .drawCircle cx cy diam on, n, ops =>
    n = .op .drawCircle ∧ ∃ a b c d, ops = [a, b, c, d] ∧ numberOf a = some cx ∧ numberOf b = some cy ∧
      natOf c = some diam ∧ colourOf d = some on
  | .drawLine x1 y1 x2 y2 on thick, n, ops =>
    n = .op .drawLine ∧ ∃ a b c d e f, ops = [a, b, c, d, e, f] ∧ numberOf a = some x1 ∧ numberOf b = some y1 ∧
      numberOf c = some x2 ∧ numberOf d = some y2 ∧ colourOf e = some on ∧ natOf f = some thick
  | .drawImage handle xo yo scale, n, ops =>
    n = .op .drawImage ∧ ∃ a b c d, ops = [a, b, c, d] ∧ wordOf a = some handle ∧ numberOf b = some xo ∧
      numberOf c = some yo ∧ natOf d = some scale
  | .drawText x y wrap size font g text, n, ops =>
    n = (if g then .measureText else .op .drawText) ∧ ∃ a b c d e f, ops = [a, b, c, d, e, f] ∧ numberOf a = some x ∧
      numberOf b = some y ∧ natOf c = some wrap ∧ natOf d = some size ∧ wordOf e = some font ∧ stringOf f = some text
  | .init, n, ops => n = .op .init ∧ ops = []
  | .getPixel x y, n, ops => n = .op .getPixel ∧ ∃ a b, ops = [a, b] ∧ numberOf a = some x ∧ numberOf b = some y

end Sys2Proof.Machine
end

