-- ==== Sys2Proof/Certificates/Slice0/Obligations.lean ====
section
/-! DEFINITION. The statements about the model, each with the rule of spec/ it formalises. -/

open Sys2Proof Sys2Proof.Machine

/-! ## Encoding (30_encoding.md) -/

/-- Sample packets written out from R71 to R77 decode to the commands they stand for, one for each opcode. -/
def Obligations.SamplePacketsDecode : Prop :=
  decode [0x00000101, 0x00030005] = .ok (.setPixel 5 3 true) 2 ∧
  decode [0x00000002] = .ok .clear 1 ∧
  decode [0x00000003] = .ok .flush 1 ∧
  decode [0x00000004, 0xFFFBFFFB, 0x00020002] = .ok (.drawBox (-5) (-5) 2 2 false) 3 ∧
  decode [0x00030105, 0x00200040] = .ok (.drawCircle 64 32 3 true) 2 ∧
  decode [0x00010106, 0x0000FFFB, 0x00000005] = .ok (.drawLine (-5) 0 5 0 true 1) 3 ∧
  decode [0x01000007, 0x0014000A, 0x00000001] = .ok (.drawImage 1 10 20 256) 3 ∧
  decode [0x001E0208, 0x00000000, 0x00080002, 0x00000007, 0x00006968]
    = .ok (.drawText 0 0 30 8 7 true [0x68, 0x69]) 5 ∧
  decode [0x00000009] = .ok .init 1 ∧
  decode [0x0000000A, 0xFFFE0000] = .ok (.getPixel 0 (-2)) 2

/-- Every command whose operands are in range decodes back from its packet, whatever follows it in the stream, at the length
R70 gives it. -/
def Obligations.DecodeOfEncode : Prop :=
  ∀ (i : Instr) (rest : List Word), i.wellFormed = true →
    decode (encode i ++ rest) = .ok i i.packetWords ∧ (encode i).length = i.packetWords

/-- Whatever words arrive, a decoded command has its operands in range, and its length is that of R70, within the words
present and within MAX_PACKET_WORDS. -/
def Obligations.DecodedIsWellFormed : Prop :=
  ∀ (ws : List Word) (i : Instr) (n : Nat), decode ws = .ok i n →
    i.wellFormed = true ∧ n = i.packetWords ∧ n ≤ ws.length ∧ n ≤ Config.maxPacketWords

/-- Decoding waits exactly as long as the packet is incomplete; else it consumes the packet's length, of one word for an
illegal opcode (R70, R78, R82). -/
def Obligations.DecodeWaitsForCompletePacket : Prop :=
  ∀ ws : List Word,
    (decode ws = .incomplete ↔ packetComplete ws = false) ∧
    (∀ i n, decode ws = .ok i n → packetLength ws = some n) ∧
    (∀ c n, decode ws = .bad c n → packetLength ws = some n)

/-- R80: an illegal header ends its one-word packet with code 1; a legal OPC with a masked bit that differs from MATCH ends
its whole packet with code 2. -/
def Obligations.IllegalHeadersEndInError : Prop :=
  (∀ (s : State) (h : Word) (args : List Word),
    s.env.turns = [] → s.engine = .exec → s.pkt = h :: args →
    (h.extractLsb' 0 8 = 0x00#8 ∨ 0x0B#8 ≤ h.extractLsb' 0 8) →
    step s = .next { s with
      err := true
      ecode := 1#4
      epkt := s.csp
      csp := s.csp + 1#32
      pkt := []
      engine := .halted }) ∧
  (∀ (s : State) (h : Word) (args : List Word) (op : Opcode) (n : Nat),
    s.env.turns = [] → s.engine = .exec → s.pkt = h :: args →
    h.extractLsb' 0 8 = opcByte op → packetLength s.pkt = some n → n ≤ s.pkt.length →
    h &&& headerMask op ≠ headerMatch op →
    step s = .next { s with
      err := true
      ecode := 2#4
      epkt := s.csp
      csp := s.csp + BitVec.ofNat 32 n
      pkt := []
      engine := .halted })

/-- R79 agrees with R71 and R77: a header with OPC op passes MASK and MATCH exactly when RSV is 0 and every field the opcode
does not use is 0. -/
def Obligations.MaskCoversUnusedFields : Prop :=
  ∀ (h : Word) (op : Opcode), h.extractLsb' 0 8 = opcByte op →
    (h &&& headerMask op = headerMatch op ↔
      h.extractLsb' 10 6 = 0#6 ∧
      (op ∉ [.setPixel, .drawBox, .drawCircle, .drawLine] → h.getLsbD 8 = false) ∧
      (op ≠ .drawText → h.getLsbD 9 = false) ∧
      (op ∉ [.drawCircle, .drawLine, .drawImage, .drawText] → h.extractLsb' 16 16 = 0#16))

/-- No header matches two rows of R79, and a header that matches a row has that row's opcode. -/
def Obligations.OpcodeRowsDisjoint : Prop :=
  ∀ (h : Word) (op : Opcode), h &&& headerMask op = headerMatch op →
    headerOpcode h = some op ∧ ∀ op' : Opcode, h &&& headerMask op' = headerMatch op' → op' = op

/-- R75: text byte i is byte i mod 4 of text word i div 4, and unpacking what the encoder packs gives the text back, whatever
follows. -/
def Obligations.TextPackingRoundTrip : Prop :=
  ∀ (text : List Byte) (rest : List Word),
    (packText text).length = (text.length + 3) / 4 ∧
    unpackText text.length (packText text ++ rest) = text ∧
    ∀ i, i < text.length →
      text[i]? = ((packText text)[i / 4]?).map fun w => w.extractLsb' (8 * (i % 4)) 8

/-- R83: a line other than CLS and .word is accepted exactly when its name and its operands, in the order of R83, spell a
command whose operands are in range, and it is then that command's packet, which decodes to it; DRAW_TEXT has G = 0, DRAW_TEXT.H
and MEASURE_TEXT have G = 1; R84: CLS is CLEAR then FLUSH, and .word is its one word, 0 to 2^32 − 1, unchanged. -/
def Obligations.AssembledPacketDecodes : Prop :=
  (∀ (o : Opcode) (ops : List AsmToken) (ws : List Word), asmLine (.op o) ops = some ws →
    ∃ i : Instr, i.wellFormed = true ∧ i.opcode = o ∧ ws = encode i ∧ decode ws = .ok i ws.length) ∧
  (∀ (n : AsmName) (ops : List AsmToken) (ws : List Word), n ≠ .cls → n ≠ .word →
    (asmLine n ops = some ws ↔ ∃ i : Instr, Spells i n ops ∧ i.wellFormed = true ∧ ws = encode i)) ∧
  (∀ (i : Instr) (n : AsmName) (ops : List AsmToken), Spells i n ops → i.wellFormed = true →
    asmLine n ops = some (encode i) ∧ decode (encode i) = .ok i (encode i).length) ∧
  nameOf ['D', 'R', 'A', 'W', '_', 'T', 'E', 'X', 'T'] = some (.op .drawText) ∧
  nameOf ['D', 'R', 'A', 'W', '_', 'T', 'E', 'X', 'T', '.', 'H'] = some .measureText ∧
  nameOf ['M', 'E', 'A', 'S', 'U', 'R', 'E', '_', 'T', 'E', 'X', 'T'] = some .measureText ∧
  asmLine .cls [] = some [0x00000002, 0x00000003] ∧
  ∀ (a : AsmToken) (ws : List Word), asmLine .word [a] = some ws ↔
    ∃ k : Nat, numberOf a = some (k : Int) ∧ k < 2 ^ 32 ∧ ws = [BitVec.ofNat 32 k]

/-! ## Framebuffer (10_state.md, 40_framebuffer.md) -/

/-- R21: the map from an in-bounds pixel to (byte index, bit) is a bijection onto 0..1023 × 0..7. -/
def Obligations.PixelMapBijective : Prop :=
  (∀ x y : Int, inBounds x y = true →
    pixIndex x y = x.toNat + y.toNat / 8 * 128 ∧ pixIndex x y < 1024 ∧ pixBit y = y.toNat % 8 ∧ pixBit y < 8) ∧
  (∀ i b : Nat, i < 1024 → b < 8 →
    ∃ x y : Int, inBounds x y = true ∧ pixIndex x y = i ∧ pixBit y = b ∧
      ∀ u v : Int, inBounds u v = true → pixIndex u v = i → pixBit v = b → u = x ∧ v = y)

/-- R101, with R100: SET_PIXEL outside the frame changes no byte; inside it sets or clears bit y mod 8 of byte
x + (y div 8) × 128 and changes nothing else. -/
def Obligations.SetPixelChangesOneBit : Prop :=
  ∀ (x y : Int) (on : Bool) (s : State), s.fb.wf = true →
    ∃ fb : Memory,
      exec (.setPixel x y on) s = .next { s with fb := fb, csp := s.csp + 2#32, pkt := [], engine := .idle } ∧
      fb.wf = true ∧
      (¬(0 ≤ x ∧ x ≤ 127 ∧ 0 ≤ y ∧ y ≤ 63) → ∀ a, fb.read a = s.fb.read a) ∧
      ((0 ≤ x ∧ x ≤ 127 ∧ 0 ≤ y ∧ y ≤ 63) →
        fb.read (pixIndex x y) = (if on then s.fb.read (pixIndex x y) ||| 1#8 <<< (y.toNat % 8)
          else s.fb.read (pixIndex x y) &&& ~~~(1#8 <<< (y.toNat % 8))) ∧
        ∀ a, a ≠ pixIndex x y → fb.read a = s.fb.read a)

/-- R103: CLEAR makes every byte 0x00 and changes nothing else; it issues no sink transaction. -/
def Obligations.ClearZeroesFramebuffer : Prop :=
  ∀ s : State, ∃ fb : Memory,
    exec .clear s = .next { s with fb := fb, csp := s.csp + 1#32, pkt := [], engine := .idle } ∧
    fb.wf = true ∧ (∀ a, fb.read a = 0x00#8) ∧
    ∀ k, fbWord fb k = 0x00000000#32

/-- R104: GET_PIXEL writes RESULT with the pixel as 0 or 1, with 0 outside the frame, and changes nothing else. -/
def Obligations.GetPixelReadsPixel : Prop :=
  ∀ (x y : Int) (s : State), s.fb.wf = true →
    exec (.getPixel x y) s = .next { s with
      result := if (0 ≤ x ∧ x ≤ 127 ∧ 0 ≤ y ∧ y ≤ 63) ∧
          (s.fb.read (x.toNat + y.toNat / 8 * 128)).getLsbD (y.toNat % 8) = true then 1#32 else 0#32
      csp := s.csp + 2#32
      pkt := []
      engine := .idle }

/-- R105: SET_PIXEL then GET_PIXEL of the same in-bounds pixel gives the colour; SetPixel of two different in-bounds pixels
commute; a pixel of a cleared framebuffer reads 0. -/
def Obligations.PixelReadBackLaws : Prop :=
  (∀ (x y : Int) (on : Bool) (s : State), s.fb.wf = true → inBounds x y = true →
    ∃ t u : State, exec (.setPixel x y on) s = .next t ∧ exec (.getPixel x y) t = .next u ∧
      u.result = (if on then 1#32 else 0#32) ∧ u.fb = t.fb) ∧
  (∀ (x y u v : Int) (a b : Bool) (m : Memory), m.wf = true → inBounds x y = true → inBounds u v = true →
    (x ≠ u ∨ y ≠ v) → (m.setPixel x y a).setPixel u v b = (m.setPixel u v b).setPixel x y a) ∧
  (∀ (x y : Int) (s : State),
    ∃ t u : State, exec .clear s = .next t ∧ exec (.getPixel x y) t = .next u ∧ u.result = 0#32)

/-! ## Rasterizer (41_rasterizer.md) -/

/-- R124: DRAW_BOX gives the colour to exactly the in-frame pixels with x in x1 .. x2 and y in y1 .. y2, none when a range is
inverted; every byte that holds none of them, and everything else, is unchanged. -/
def Obligations.DrawBoxFillsRectangle : Prop :=
  ∀ (x1 y1 x2 y2 : Int) (on : Bool) (s : State), s.fb.wf = true →
    ∃ fb : Memory,
      exec (.drawBox x1 y1 x2 y2 on) s = .next { s with fb := fb, csp := s.csp + 3#32, pkt := [], engine := .idle } ∧
      fb.wf = true ∧
      (∀ u v : Int, inBounds u v = true →
        fb.pix u v = if x1 ≤ u ∧ u ≤ x2 ∧ y1 ≤ v ∧ v ≤ y2 then on else s.fb.pix u v) ∧
      ∀ a : Nat, (∀ u v : Int, inBounds u v = true → x1 ≤ u → u ≤ x2 → y1 ≤ v → v ≤ y2 → a ≠ pixIndex u v) →
        fb.read a = s.fb.read a

/-- R124's derived clipping: the clipped loop leaves the same framebuffer as SetPixel of every point of the whole
rectangle. -/
def Obligations.BoxClippingChangesNothing : Prop :=
  ∀ (x1 y1 x2 y2 : Int) (on : Bool) (m : Memory), m.wf = true →
    m.fillBox x1 y1 x2 y2 on = m.setPixels (boxPoints x1 y1 x2 y2) on

/-- R120, R125: DRAW_CIRCLE gives the colour to exactly the in-frame pixels whose offset from (cx, cy) satisfies
dx² + dy² ≤ r² with r = diameter div 2; every byte that holds none of them, and everything else, is unchanged. -/
def Obligations.DrawCircleStampsDisk : Prop :=
  ∀ (cx cy : Int) (diam : Nat) (on : Bool) (s : State), s.fb.wf = true →
    ∃ fb : Memory,
      exec (.drawCircle cx cy diam on) s = .next { s with fb := fb, csp := s.csp + 2#32, pkt := [], engine := .idle } ∧
      fb.wf = true ∧
      (∀ u v : Int, inBounds u v = true →
        fb.pix u v = if (u - cx) ^ 2 + (v - cy) ^ 2 ≤ ((diam / 2 : Nat) : Int) ^ 2 then on else s.fb.pix u v) ∧
      ∀ a : Nat, (∀ u v : Int, inBounds u v = true → (u - cx) ^ 2 + (v - cy) ^ 2 ≤ ((diam / 2 : Nat) : Int) ^ 2 →
        a ≠ pixIndex u v) → fb.read a = s.fb.read a

/-- From R120 and R101: the disk restricted to the frame leaves the same framebuffer as the loop over the whole square of offsets;
the disks of radius 0, 1, 2 and 3 have 1, 5, 13 and 29 points; an odd diameter gives the disk of the even one below. The
restriction to the frame is the model's (log 10, DEDUCED): R124 derives it for boxes only; the counts are R120's own
"[derived: by counting the offsets of this rule]". -/
def Obligations.DiskClippingChangesNothing : Prop :=
  (∀ (cx cy : Int) (d : Nat) (on : Bool) (m : Memory), m.wf = true →
    m.disk cx cy d on = m.setPixels (diskPoints cx cy d) on) ∧
  (∀ cx cy : Int, [0, 2, 4, 6].map (fun d => (diskPoints cx cy d).length) = [1, 5, 13, 29]) ∧
  ∀ (cx cy : Int) (r : Nat) (on : Bool) (s : State),
    exec (.drawCircle cx cy (2 * r + 1) on) s = exec (.drawCircle cx cy (2 * r) on) s

/-- R122: for every pair of endpoints the walk begins at the first, ends at the second, has max(dx, dy) + 1 points, all
different, consecutive ones at most 1 apart in each coordinate; and the loop of R121 ends by its own test: more passes change
nothing. R122 marks its properties "[from general knowledge, not in source]"; the last clause checks the model's bound of
max(dx, dy) passes (log 11, DEDUCED). -/
def Obligations.WalkReachesEndpoint : Prop :=
  ∀ x1 y1 x2 y2 : Int,
    (walk x1 y1 x2 y2).head? = some (x1, y1) ∧
    (walk x1 y1 x2 y2).getLast? = some (x2, y2) ∧
    (walk x1 y1 x2 y2).length = max (x2 - x1).natAbs (y2 - y1).natAbs + 1 ∧
    (walk x1 y1 x2 y2).Nodup ∧
    (∀ (k : Nat) (p q : Int × Int), (walk x1 y1 x2 y2)[k]? = some p → (walk x1 y1 x2 y2)[k + 1]? = some q →
      (q.1 - p.1).natAbs ≤ 1 ∧ (q.2 - p.2).natAbs ≤ 1) ∧
    ∀ n : Nat, max (x2 - x1).natAbs (y2 - y1).natAbs ≤ n →
      walkFrom (walkOf x1 y1 x2 y2) n (x1, y1, (walkOf x1 y1 x2 y2).dx - (walkOf x1 y1 x2 y2).dy) = walk x1 y1 x2 y2

/-- R121, R123: along a walk the error term begins at dx − dy, and each pass makes the two updates of R121, both tests on e2 =
2 × err from before the pass: x moves by sx and err by −dy when e2 > −dy, y moves by sy and err by dx when e2 < dx; sx is 1 when
x1 < x2 and else −1, sy is 1 when y1 < y2 and else −1; at every pass of a walk between different endpoints
−1.5 × dy < err ≤ 1.5 × dx. -/
def Obligations.WalkErrorBounded : Prop :=
  ∀ x1 y1 x2 y2 dx dy sx sy : Int, dx = (x2 - x1).natAbs → dy = (y2 - y1).natAbs →
    sx = (if x1 < x2 then 1 else -1) → sy = (if y1 < y2 then 1 else -1) →
    ∃ err : Nat → Int, err 0 = dx - dy ∧
      (∀ (k : Nat) (p q : Int × Int), (walk x1 y1 x2 y2)[k]? = some p → (walk x1 y1 x2 y2)[k + 1]? = some q →
        q.1 = p.1 + (if 2 * err k > -dy then sx else 0) ∧
        q.2 = p.2 + (if 2 * err k < dx then sy else 0) ∧
        err (k + 1) = err k - (if 2 * err k > -dy then dy else 0) + (if 2 * err k < dx then dx else 0)) ∧
      ((x1 ≠ x2 ∨ y1 ≠ y2) → ∀ k : Nat, k ≤ max (x2 - x1).natAbs (y2 - y1).natAbs →
        2 * err k > -3 * dy ∧ 2 * err k ≤ 3 * dx)

/-- R126: DRAW_LINE gives the colour to exactly the in-frame pixels in the disk of diameter thickness around some point of the
walk; every byte that holds none of them, and everything else, is unchanged. -/
def Obligations.DrawLineStampsWalk : Prop :=
  ∀ (x1 y1 x2 y2 : Int) (on : Bool) (thick : Nat) (s : State), s.fb.wf = true →
    ∃ fb : Memory,
      exec (.drawLine x1 y1 x2 y2 on thick) s
        = .next { s with fb := fb, csp := s.csp + 3#32, pkt := [], engine := .idle } ∧
      fb.wf = true ∧
      (∀ u v : Int, inBounds u v = true →
        ((∃ p ∈ walk x1 y1 x2 y2, (u - p.1) ^ 2 + (v - p.2) ^ 2 ≤ ((thick / 2 : Nat) : Int) ^ 2) → fb.pix u v = on) ∧
        ((¬∃ p ∈ walk x1 y1 x2 y2, (u - p.1) ^ 2 + (v - p.2) ^ 2 ≤ ((thick / 2 : Nat) : Int) ^ 2) →
          fb.pix u v = s.fb.pix u v)) ∧
      ∀ a : Nat, (∀ u v : Int, inBounds u v = true →
        (∃ p ∈ walk x1 y1 x2 y2, (u - p.1) ^ 2 + (v - p.2) ^ 2 ≤ ((thick / 2 : Nat) : Int) ^ 2) → a ≠ pixIndex u v) →
        fb.read a = s.fb.read a

/-- R126's corner case: with THICK 0 or 1 the line lights exactly the walk's in-bounds points. -/
def Obligations.ThinLineIsTheWalk : Prop :=
  ∀ (x1 y1 x2 y2 : Int) (on : Bool) (thick : Nat) (s t : State), s.fb.wf = true → thick ≤ 1 →
    exec (.drawLine x1 y1 x2 y2 on thick) s = .next t →
    ∀ u v : Int, inBounds u v = true →
      t.fb.pix u v = if (u, v) ∈ walk x1 y1 x2 y2 then on else s.fb.pix u v

/-! ## Images (42_image.md) -/

/-- R144: when DECODE answers FAIL, DRAW_IMAGE ends in DECODE_ERROR and nothing of the block but the error state changes. -/
def Obligations.DrawImageDecodeFailure : Prop :=
  ∀ (handle : Word) (xo yo : Int) (scale : Nat) (s : State) (rest : List (Option Image)),
    s.env.decodeAnswers = none :: rest →
    exec (.drawImage handle xo yo scale) s = .next { s with
      err := true
      ecode := 3#4
      epkt := s.csp
      csp := s.csp + 3#32
      pkt := []
      engine := .halted
      env := { s.env with decodeAnswers := rest }
      obs := { s.obs with asked := s.obs.asked ++ [.decode handle] } }

/-- R141, R143, R144: when DECODE answers an image, DRAW_IMAGE completes; it lights exactly the in-frame pixels of the
resampled image's rectangle whose alpha is > 127; every byte that holds none of them, and everything else, is unchanged. -/
def Obligations.DrawImageStampsAlphaMask : Prop :=
  ∀ (handle : Word) (xo yo : Int) (scale : Nat) (s : State) (img : Image) (rest : List (Option Image)),
    s.fb.wf = true → s.env.decodeAnswers = some img :: rest →
    let nw := img.w * scale / 256
    let nh := img.h * scale / 256
    let out := resample img nw nh
    let lit : Int → Int → Prop := fun u v =>
      xo ≤ u ∧ u < xo + nw ∧ yo ≤ v ∧ v < yo + nh ∧ 127 < (imagePixel out (u - xo).toNat (v - yo).toNat).a.toNat
    ∃ fb : Memory,
      exec (.drawImage handle xo yo scale) s = .next { s with
        fb := fb
        csp := s.csp + 3#32
        pkt := []
        engine := .idle
        env := { s.env with decodeAnswers := rest }
        obs := { s.obs with asked := s.obs.asked ++ [.decode handle] } } ∧
      fb.wf = true ∧
      (∀ u v : Int, inBounds u v = true →
        (lit u v → fb.pix u v = true) ∧ (¬lit u v → fb.pix u v = s.fb.pix u v)) ∧
      ∀ a : Nat, (∀ u v : Int, inBounds u v = true → lit u v → a ≠ pixIndex u v) → fb.read a = s.fb.read a

/-- R145: whatever the decoder answers, DRAW_IMAGE clears no pixel. -/
def Obligations.ImageNeverClears : Prop :=
  ∀ (handle : Word) (xo yo : Int) (scale : Nat) (s t : State), s.fb.wf = true →
    exec (.drawImage handle xo yo scale) s = .next t →
    ∀ u v : Int, inBounds u v = true → s.fb.pix u v = true → t.fb.pix u v = true

/-- R142: RESAMPLE gives an image of exactly nw × nh pixels, and the image itself when the size does not change; so at SCALE
0x0100 (R76) the pixels lit are those of the decoded image. -/
def Obligations.ResampleKeepsItsLaws : Prop :=
  (∀ (img : Image) (nw nh : Nat), (resample img nw nh).w = nw ∧ (resample img nw nh).h = nh) ∧
  (∀ img : Image, resample img img.w img.h = img) ∧
  ∀ (m : Memory) (img : Image) (xo yo u v : Int), m.wf = true → inBounds u v = true →
    ((m.composite img 0x0100 xo yo).pix u v = true ↔
      m.pix u v = true ∨ (xo ≤ u ∧ u < xo + img.w ∧ yo ≤ v ∧ v < yo + img.h ∧
        127 < (imagePixel img (u - xo).toNat (v - yo).toNat).a.toNat))

/-! ## Text (43_text.md) -/

/-- R161: on an empty or whitespace-only text DRAW_TEXT writes RESULT with 0 and completes; FB is unchanged and the font
provider is not asked. -/
def Obligations.BlankTextIsNoOp : Prop :=
  ∀ (x y : Int) (wrap size : Nat) (font : Word) (g : Bool) (text : List Byte) (s : State),
    (∀ b ∈ text, b ∈ [0x09#8, 0x0A#8, 0x0B#8, 0x0C#8, 0x0D#8, 0x20#8]) →
    exec (.drawText x y wrap size font g text) s = .next { s with
      result := 0#32
      csp := s.csp + BitVec.ofNat 32 (4 + (text.length + 3) / 4)
      pkt := []
      engine := .idle }

/-- R172: when FONT_OK answers false for a text that passes the empty test, DRAW_TEXT ends in FONT_ERROR and nothing of the
block but the error state changes. -/
def Obligations.FontFailureEndsText : Prop :=
  ∀ (x y : Int) (wrap size : Nat) (font : Word) (g : Bool) (text : List Byte) (s : State) (b : Byte) (rest : List Bool),
    b ∈ text → b ∉ [0x09#8, 0x0A#8, 0x0B#8, 0x0C#8, 0x0D#8, 0x20#8] → s.env.fontAnswers = false :: rest →
    exec (.drawText x y wrap size font g text) s = .next { s with
      err := true
      ecode := 4#4
      epkt := s.csp
      csp := s.csp + BitVec.ofNat 32 (4 + (text.length + 3) / 4)
      pkt := []
      engine := .halted
      env := { s.env with fontAnswers := rest }
      obs := { s.obs with asked := s.obs.asked ++ [.fontOk font size] } }

/-- R168, R170, R171: when the font loads, DRAW_TEXT writes RESULT with ((cy − y) + maxh) mod 2^32 of the layout, leaves FB
unchanged with G = 1, lights exactly the canvas pixels in addition with G = 0, and changes nothing else. -/
def Obligations.DrawTextTransfersCanvas : Prop :=
  ∀ (x y : Int) (wrap size : Nat) (font : Word) (g : Bool) (text : List Byte) (s : State) (b : Byte) (rest : List Bool),
    s.fb.wf = true → b ∈ text → b ∉ [0x09#8, 0x0A#8, 0x0B#8, 0x0C#8, 0x0D#8, 0x20#8] →
    s.env.fontAnswers = true :: rest →
    let l := layoutText (fontProvider font size) x y wrap size text
    ∃ fb : Memory,
      exec (.drawText x y wrap size font g text) s = .next { s with
        fb := fb
        result := BitVec.ofInt 32 ((l.cy - y) + l.maxh)
        csp := s.csp + BitVec.ofNat 32 (4 + (text.length + 3) / 4)
        pkt := []
        engine := .idle
        env := { s.env with fontAnswers := rest }
        obs := { s.obs with asked := s.obs.asked ++ [.fontOk font size] } } ∧
      fb.wf = true ∧
      (g = true → fb = s.fb) ∧
      (g = false → (∀ u v : Int, inBounds u v = true → fb.pix u v = (s.fb.pix u v || l.canvas.pix u v)) ∧
        ∀ a : Nat, (∀ u v : Int, inBounds u v = true → l.canvas.pix u v = true → a ≠ pixIndex u v) →
          fb.read a = s.fb.read a)

/-- R162: the tokens of a text hold no space, there is one more of them than spaces in the text, and joined with single
spaces they give the text back. -/
def Obligations.TokensSplitAtSpaces : Prop :=
  ∀ text : List Byte,
    (tokens text).length = text.count 0x20#8 + 1 ∧
    (∀ t ∈ tokens text, 0x20#8 ∉ t) ∧
    List.intercalate [0x20#8] (tokens text) = text

/-- R164: a token of 0 or 1 bytes is not truncated; of a longer one at least one byte is kept and at least one is left, and
the length kept is the greatest that fits with the hyphen, or 1 if none does. -/
def Obligations.ShrinkKeepsLongestFit : Prop :=
  ∀ (fp : FontProvider) (wrap : Nat) (cx : Int) (tok : List Byte),
    let k := shrinkLen fp wrap cx tok
    let fitsAt : Nat → Prop := fun j => cx + fp.textW (tok.take j ++ [0x2D#8]) ≤ (wrap : Int)
    (tok.length ≤ 1 → k = tok.length) ∧
    (2 ≤ tok.length → 1 ≤ k ∧ k < tok.length ∧ (fitsAt k ∨ k = 1) ∧ ∀ j, k < j → j < tok.length → ¬fitsAt j)

/-- R169: Render lights the in-frame points of RENDER in the canvas, clears none, and raises the tallest height to the
string's; the cursor stays; before the first Render no canvas pixel is lit. -/
def Obligations.RenderOrsPoints : Prop :=
  (∀ x y u v : Int, (layoutStart x y).canvas.pix u v = false) ∧
  ∀ (fp : FontProvider) (str : List Byte) (l : Layout), l.canvas.wf = true →
    (renderAt fp str l).canvas.wf = true ∧
    (∀ u v : Int, inBounds u v = true →
      ((renderAt fp str l).canvas.pix u v = true ↔ l.canvas.pix u v = true ∨ (u, v) ∈ fp.render str l.cx l.cy)) ∧
    (renderAt fp str l).maxh = max l.maxh (fp.textH str) ∧
    (renderAt fp str l).cx = l.cx ∧ (renderAt fp str l).cy = l.cy

/-- R163, R165, R166, R167, R169, R172: the layout begins with all tokens pending, the cursor at (x, y), no height and an empty
canvas, and ends when none is pending. A token fits when WRAP = 0 or cx + w ≤ WRAP: it is rendered at the cursor, cx advances by
its width and the width of one space, cy stays. Else its fragment, the token cut by the shrink loop and a hyphen, is rendered at
the cursor, cx is x, cy advances by FONT_SIZE, and what is left of the token, if anything, is pending before the later tokens.
With WRAP = 0 every token is placed whole, in order, without a hyphen, and the cursor never leaves its line. -/
def Obligations.UnboundedTextNeverWraps : Prop :=
  (∀ (fp : FontProvider) (x y : Int) (wrap size : Nat) (text : List Byte),
    layoutText fp x y wrap size text = layoutLoop fp x wrap size (2 * text.length + 1) (tokens text) ⟨x, y, 0, []⟩) ∧
  (∀ (fp : FontProvider) (x : Int) (wrap size n : Nat) (l : Layout), layoutLoop fp x wrap size n [] l = l) ∧
  (∀ (fp : FontProvider) (x : Int) (wrap size n : Nat) (tok : List Byte) (pending : List (List Byte)) (l : Layout),
    (wrap = 0 ∨ l.cx + fp.textW tok ≤ wrap →
      layoutLoop fp x wrap size (n + 1) (tok :: pending) l = layoutLoop fp x wrap size n pending {
        cx := l.cx + fp.textW tok + fp.textW [0x20#8]
        cy := l.cy
        maxh := max l.maxh (fp.textH tok)
        canvas := l.canvas.setPixels (fp.render tok l.cx l.cy) true }) ∧
    (0 < wrap → (wrap : Int) < l.cx + fp.textW tok →
      ∀ (k : Nat) (fragment : List Byte), k = shrinkLen fp wrap l.cx tok → fragment = tok.take k ++ [0x2D#8] →
        layoutLoop fp x wrap size (n + 1) (tok :: pending) l
          = layoutLoop fp x wrap size n (if k = tok.length then pending else tok.drop k :: pending) {
              cx := x
              cy := l.cy + size
              maxh := max l.maxh (fp.textH fragment)
              canvas := l.canvas.setPixels (fp.render fragment l.cx l.cy) true })) ∧
  ∀ (fp : FontProvider) (x y : Int) (size : Nat) (text : List Byte),
    layoutText fp x y 0 size text = (tokens text).foldl (fun l tok => placeToken fp tok l) (layoutStart x y) ∧
    (layoutText fp x y 0 size text).cy = y

/-- R173: the layout loop ends: 2L + 1 passes are enough from any layout in progress, since more change nothing. -/
def Obligations.LayoutLoopEnds : Prop :=
  ∀ (fp : FontProvider) (x : Int) (wrap size extra : Nat) (text : List Byte) (l : Layout),
    layoutLoop fp x wrap size (2 * text.length + 1 + extra) (tokens text) l
      = layoutLoop fp x wrap size (2 * text.length + 1) (tokens text) l

/-- R168's derived fact: the cursor never moves up, so the height is a natural number; every height written is (cy − y) +
maxh with cy ≥ y. -/
def Obligations.LayoutHeightIsNatural : Prop :=
  ∀ (fp : FontProvider) (x y : Int) (wrap size : Nat) (text : List Byte),
    ∃ k : Nat, (layoutText fp x y wrap size text).cy = y + k * size ∧
      layoutHeight y (layoutText fp x y wrap size text)
        = BitVec.ofNat 32 (k * size + (layoutText fp x y wrap size text).maxh)

/-- R170: Transfer ORs into byte x + page × 128, for every page 0..7 and column x in 0..127, the byte whose bit b is canvas
pixel (x, page × 8 + b); no other byte changes; the effect is SetPixel(u, v, true) of every lit canvas point, which R170 marks
"[derived: from this rule and 10_state.md rule R21]". That the canvas is held in the framebuffer's packing is the model's
(log 13, DEDUCED). -/
def Obligations.TransferOrsCanvasBytes : Prop :=
  ∀ m canvas : Memory, m.wf = true →
    (m.transfer canvas).wf = true ∧
    (∀ page x : Nat, page < 8 → x < 128 → ∀ b : Nat, b < 8 →
      ((m.transfer canvas).read (x + page * 128)).getLsbD b =
        ((m.read (x + page * 128)).getLsbD b || canvas.pix x (page * 8 + b : Nat))) ∧
    (∀ a : Nat, 1024 ≤ a → (m.transfer canvas).read a = m.read a) ∧
    ∀ pts : List (Int × Int),
      (∀ u v : Int, inBounds u v = true → ((u, v) ∈ pts ↔ canvas.pix u v = true)) →
      m.transfer canvas = m.setPixels pts true

/-! ## Streamer (44_streamer.md) -/

/-- R194: a FLUSH with every answer OK issues exactly 1048 transactions, 24 CMD and 1024 DATA, in the order of R193, and
changes nothing of the block but CSP and the packet buffer. -/
def Obligations.FlushIssuesWholeFrame : Prop :=
  ∀ (s : State) (rest : List Bool), s.env.sinkAnswers = List.replicate 1048 true ++ rest →
    ∃ txns : List SinkTxn,
      exec .flush s = .next { s with
        csp := s.csp + 1#32
        pkt := []
        engine := .idle
        env := { s.env with sinkAnswers := rest }
        obs := { s.obs with sink := s.obs.sink ++ txns } } ∧
      txns.length = 1048 ∧
      (txns.filter fun t => t.tag = .cmd).length = 24 ∧
      (txns.filter fun t => t.tag = .data).length = 1024 ∧
      ∀ p : Nat, p < 8 →
        txns[p * 131]? = some ⟨.cmd, s.cfg.pageCmdBase ||| BitVec.ofNat 8 p, true⟩ ∧
        txns[p * 131 + 1]? = some ⟨.cmd, s.cfg.colLoCmd, true⟩ ∧
        txns[p * 131 + 2]? = some ⟨.cmd, s.cfg.colHiCmd, true⟩ ∧
        ∀ x : Nat, x < 128 → txns[p * 131 + 3 + x]? = some ⟨.data, s.fb.read (x + p * 128), true⟩

/-- R195: two FLUSH packets in a row with every answer OK issue identical lists, FB is not changed, and the DATA bytes are
FB[0] to FB[1023] in order. -/
def Obligations.FlushIsIdempotent : Prop :=
  ∀ (s : State) (rest : List Bool), s.env.sinkAnswers = List.replicate 2096 true ++ rest →
    ∃ (t u : State) (txns : List SinkTxn),
      exec .flush s = .next t ∧ exec .flush t = .next u ∧
      t.obs.sink = s.obs.sink ++ txns ∧ u.obs.sink = s.obs.sink ++ txns ++ txns ∧
      t.fb = s.fb ∧ u.fb = s.fb ∧
      (txns.filter fun x => x.tag = .data).map (fun x => x.byte) = (List.range 1024).map s.fb.read

/-- R197: an INIT with every answer OK issues INIT_SEQ, all as commands and in order, and changes nothing of the block but
CSP and the packet buffer. -/
def Obligations.InitIssuesSequence : Prop :=
  ∀ (s : State) (rest : List Bool), s.env.sinkAnswers = List.replicate s.cfg.initSeq.length true ++ rest →
    exec .init s = .next { s with
      csp := s.csp + 1#32
      pkt := []
      engine := .idle
      env := { s.env with sinkAnswers := rest }
      obs := { s.obs with sink := s.obs.sink ++ s.cfg.initSeq.map fun b => ⟨.cmd, b, true⟩ } }

/-- R198: when the sink answers FAIL to transaction k of a FLUSH or an INIT, the transactions before it and the failing one
stay in the sink log, no later one is issued, and the packet ends with TRANSPORT_ERROR; FB is unchanged. -/
def Obligations.TransportFailureEndsPacket : Prop :=
  ∀ (s : State) (i : Instr) (txns : List (SinkTag × Byte)) (k : Nat) (rest : List Bool),
    (i = .flush ∧ txns = flushTxns s.cfg s.fb) ∨ (i = .init ∧ txns = initTxns s.cfg) →
    k < txns.length → s.env.sinkAnswers = List.replicate k true ++ false :: rest →
    ∃ new : List SinkTxn,
      exec i s = .next { s with
        err := true
        ecode := 5#4
        epkt := s.csp
        csp := s.csp + 1#32
        pkt := []
        engine := .halted
        env := { s.env with sinkAnswers := rest }
        obs := { s.obs with sink := s.obs.sink ++ new } } ∧
      new.map (fun t => (t.tag, t.byte)) = txns.take (k + 1) ∧
      new.map (fun t => t.ok) = List.replicate k true ++ [false]

/-! ## Engine and errors (10_state.md, 30_encoding.md R86, 60_exceptions.md) -/

/-- R86: when the packet buffer holds a packet that decodes to a command, a step of the engine runs exactly that command on
the state in EXEC, whether no turn is planned or the engine's turn is next. -/
def Obligations.StepRunsDecodedPacket : Prop :=
  ∀ (s : State) (i : Instr) (n : Nat), decode s.pkt = .ok i n → s.engine ≠ .halted →
    (s.env.turns = [] → step s = exec i { s with engine := .exec }) ∧
    ∀ rest : List Turn, s.env.turns = .engine :: rest →
      step s = exec i { s with engine := .exec, env := { s.env with turns := rest } }

/-- The state in which a table word is the next packet steps to what the command decoded from it does (log 17). -/
def Obligations.StepRunsFetchedWord : Prop :=
  ∀ (s : State) (nbits w : Nat) (i : Instr), decodeTableWord nbits w = some i →
    step (s.withFetchWord nbits w) = exec i (s.withFetchWord nbits w)

/-- R35, R86: every command answers a next state from every state; CSP has advanced by the packet's length mod 2^32, the
packet buffer is empty, the FIFO, DROP, the parameters and the planned turns are unchanged, and the engine is IDLE with ERR,
ECODE and EPKT unchanged, or HALTED. -/
def Obligations.EveryCommandConsumesItsPacket : Prop :=
  ∀ (i : Instr) (s : State), ∃ t : State,
    exec i s = .next t ∧
    t.csp = s.csp + BitVec.ofNat 32 (encode i).length ∧
    t.pkt = [] ∧ t.fifo = s.fifo ∧ t.drop = s.drop ∧ t.cfg = s.cfg ∧
    t.env.turns = s.env.turns ∧ t.obs.reads = s.obs.reads ∧
    ((t.engine = .idle ∧ t.err = s.err ∧ t.ecode = s.ecode ∧ t.epkt = s.epkt) ∨ (t.engine = .halted ∧ t.err = true))

/-- R211, R212: when a step ends a packet in execution with an error, ERR is 1, ECODE is a code its decoding or its command can
raise, EPKT is its header's position, CSP has passed the whole packet, the packet buffer is empty; FIFO, DROP, FB and RESULT
keep their values, and transactions were issued only with code 5, by FLUSH or INIT: the packet's own, in its order, up to and
including the one that failed. -/
def Obligations.ErrorEntryIsPrecise : Prop :=
  ∀ s t : State, s.Inv → s.engine = .exec → step s = .next t → t.engine = .halted →
    t.err = true ∧ t.epkt = s.csp ∧ t.csp = s.csp + BitVec.ofNat 32 s.pkt.length ∧ t.pkt = [] ∧
    t.fifo = s.fifo ∧ t.drop = s.drop ∧ t.fb = s.fb ∧ t.result = s.result ∧
    ((decode s.pkt = .bad .illegalOpcode s.pkt.length ∧ t.ecode = 1#4 ∧ t.obs.sink = s.obs.sink) ∨
     (decode s.pkt = .bad .reservedField s.pkt.length ∧ t.ecode = 2#4 ∧ t.obs.sink = s.obs.sink) ∨
     (∃ i, decode s.pkt = .ok i s.pkt.length ∧ i.opcode = .drawImage ∧ t.ecode = 3#4 ∧ t.obs.sink = s.obs.sink) ∨
     (∃ i, decode s.pkt = .ok i s.pkt.length ∧ i.opcode = .drawText ∧ t.ecode = 4#4 ∧ t.obs.sink = s.obs.sink) ∨
     (∃ i txns, decode s.pkt = .ok i s.pkt.length ∧
       (i = .flush ∧ txns = flushTxns s.cfg s.fb ∨ i = .init ∧ txns = initTxns s.cfg) ∧ t.ecode = 5#4 ∧
       ∃ new last, t.obs.sink = s.obs.sink ++ new ++ [last] ∧ last.ok = false ∧ (∀ x ∈ new, x.ok = true) ∧
         (new ++ [last]).map (fun x => (x.tag, x.byte)) = txns.take (new.length + 1)))

/-- R213, R33, R30, R218: while the engine is HALTED its move changes nothing; and whatever the engine is doing, IDLE, EXEC or
HALTED, a host write to CMD is appended to the tail of the FIFO when FULL = 0, and dropped with DROP set when FULL = 1, and
changes nothing else. -/
def Obligations.HaltedEngineStandsStill : Prop :=
  (∀ s : State, s.engine = .halted →
    (s.env.turns = [] → step s = .next s) ∧
    ∀ rest : List Turn, s.env.turns = .engine :: rest → step s = .next { s with env := { s.env with turns := rest } }) ∧
  ∀ (s : State) (offset : BitVec 11) (w : Word) (rest : List Turn), 0x008 ≤ offset.toNat → offset.toNat < 0x00C →
    s.env.turns = .write offset w :: rest →
    (s.fifo.length ≠ s.cfg.fifoDepth →
      step s = .next { s with fifo := s.fifo ++ [w], env := { s.env with turns := rest } }) ∧
    (s.fifo.length = s.cfg.fifoDepth →
      step s = .next { s with drop := true, env := { s.env with turns := rest } })

/-- R214, R28, R30: a host write to STATUS with bit 1 = 1 while ERR = 1 clears ERR and ECODE and makes the engine IDLE; bit 3
= 1 clears DROP; with ERR = 0 bit 1 has no effect; EPKT, CSP, RESULT, FB and the FIFO are unchanged. -/
def Obligations.StatusWriteResumes : Prop :=
  ∀ (s : State) (w : Word) (rest : List Turn), s.env.turns = .write 0x000 w :: rest →
    (s.err = true → w.getLsbD 1 = true →
      step s = .next { s with
        err := false
        ecode := 0#4
        engine := .idle
        drop := s.drop && !w.getLsbD 3
        env := { s.env with turns := rest } }) ∧
    (s.err = false ∨ w.getLsbD 1 = false →
      step s = .next { s with drop := s.drop && !w.getLsbD 3, env := { s.env with turns := rest } })

/-- R38, R39: the engine in IDLE with an incomplete packet moves the FIFO's head word to the end of the packet buffer, keeps
the order of the stream, and is in EXEC exactly when the packet is now complete; with an empty FIFO it waits (R247). -/
def Obligations.FetchKeepsStreamOrder : Prop :=
  ∀ s : State, s.engine = .idle → packetComplete s.pkt = false → s.env.turns = [] →
    (s.fifo = [] → step s = .next s) ∧
    ∀ (w : Word) (rest : List Word), s.fifo = w :: rest →
      ∃ t : State, step s = .next t ∧ t.pkt ++ t.fifo = s.pkt ++ s.fifo ∧ t.fifo = rest ∧
        (t.engine = .exec ↔ packetComplete t.pkt = true) ∧ (t.engine = .exec ∨ t.engine = .idle) ∧
        t = { s with pkt := t.pkt, fifo := t.fifo, engine := t.engine }

/-- R86 with R33, R38, R39: a command's packet written word by word to CMD of an idle, empty block, with as many engine moves
as it has words after it, runs as the command at the next engine move. -/
def Obligations.WrittenPacketRuns : Prop :=
  ∀ (i : Instr) (s : State), i.wellFormed = true → s.engine = .idle → s.fifo = [] → s.pkt = [] →
    i.packetWords ≤ s.cfg.fifoDepth →
    s.env.turns = cmdWrites (encode i) ++ engineTurns (i.packetWords + 1) →
    runSteps (2 * i.packetWords + 1) s
      = exec i { s with pkt := encode i, engine := .exec, env := { s.env with turns := [] } }

/-! ## Invariants and whole-machine rules -/

/-- The state after reset meets the invariant. -/
def Obligations.ResetMeetsInvariant : Prop := State.reset.Inv

/-- From every state that meets the invariant, a step that answers a next state answers one that meets it. -/
def Obligations.StepKeepsInvariant : Prop :=
  ∀ s t : State, s.Inv → step s = .next t → t.Inv

/-- R226, R253: from every state that meets the invariant a step answers a next state, so the block never stops by itself; from
every such state a run has ended after some number of steps that leaves no move of the host to come; and at a completed end of a
run from reset CSP is the number of words of the program, mod 2^32. That a dropped word makes the end `dropped` whatever else
holds is the model's choice (log 29), and so is that an end is judged at each step (log 30). -/
def Obligations.StepNeverStops : Prop :=
  (∀ s : State, s.Inv → ∃ t : State, step s = .next t) ∧
  (∀ s : State, s.Inv → ∃ (k : Nat) (t : State) (e : RunEnd),
    runSteps k s = .next t ∧ t.env.turns = [] ∧ runEnd k s = some e) ∧
  ∀ (s t : State) (k : Nat), s.runStart → 1 ≤ s.cfg.fifoDepth →
    runEnd k s = some .completed → runSteps k s = .next t →
    t.csp = BitVec.ofNat 32 (programWords s.env.turns).length ∧ t.busy = false

/-- R20: FB is changed only by a move of the engine that runs SET_PIXEL, CLEAR, DRAW_BOX, DRAW_CIRCLE, DRAW_LINE, DRAW_IMAGE or
DRAW_TEXT, and by a reset. -/
def Obligations.OnlyDrawingWritesFramebuffer : Prop :=
  ∀ (s t : State) (a : Nat), step s = .next t → t.fb.read a ≠ s.fb.read a →
    (s.engineNext ∧ s.engine ≠ .halted ∧ ∃ (i : Instr) (n : Nat), decode s.pkt = .ok i n ∧
      i.opcode ∈ [.setPixel, .clear, .drawBox, .drawCircle, .drawLine, .drawImage, .drawText]) ∨
    (∃ (offset : BitVec 11) (w : Word) (rest : List Turn), s.env.turns = .write offset w :: rest ∧
      regAt offset = .ctrl ∧ w.getLsbD 0 = true)

/-- R34: RESULT is changed only by a move of the engine that runs GET_PIXEL or DRAW_TEXT to completion without an error, and by
a reset. -/
def Obligations.OnlyTwoCommandsWriteResult : Prop :=
  ∀ s t : State, step s = .next t → t.result ≠ s.result →
    (s.engineNext ∧ s.engine ≠ .halted ∧ t.engine = .idle ∧ ∃ (i : Instr) (n : Nat), decode s.pkt = .ok i n ∧
      i.opcode ∈ [.getPixel, .drawText]) ∨
    (∃ (offset : BitVec 11) (w : Word) (rest : List Turn), s.env.turns = .write offset w :: rest ∧
      regAt offset = .ctrl ∧ w.getLsbD 0 = true)

/-- R191, R254: the sink log only grows, and only by transactions of the FLUSH or INIT in the packet buffer, a prefix of that
packet's list in its order, when the engine moves or, of a packet in execution, when a reset cuts it short; the parameters never
change (R240). -/
def Obligations.SinkLogOnlyGrows : Prop :=
  ∀ s t : State, step s = .next t →
    t.cfg = s.cfg ∧
    ∃ new : List SinkTxn, t.obs.sink = s.obs.sink ++ new ∧
      (new = [] ∨ (s.engineNext ∧ s.engine ≠ .halted ∨ s.resetNext ∧ s.engine = .exec) ∧ ∃ n,
        (decode s.pkt = .ok .flush n ∧ new.map (fun x => (x.tag, x.byte)) <+: flushTxns s.cfg s.fb) ∨
        (decode s.pkt = .ok .init n ∧ new.map (fun x => (x.tag, x.byte)) <+: initTxns s.cfg))

/-! ## Host interface and reset (10_state.md, 20_memory.md, 70_reset_and_hazards.md) -/

/-- R29, with R26, R27, R31: the bits of STATUS: bit 0 is 1 when the engine is in EXEC or a word waits, bit 1 is ERR, bit 2 is 1
exactly when the FIFO holds CMD_FIFO_DEPTH words, bit 3 is DROP, bits 11:8 are ECODE, every other bit is 0. -/
def Obligations.StatusWordBits : Prop :=
  ∀ s : State,
    (s.statusWord.getLsbD 0 = true ↔ s.engine = .exec ∨ s.fifo ≠ [] ∨ s.pkt ≠ []) ∧
    s.statusWord.getLsbD 1 = s.err ∧
    (s.statusWord.getLsbD 2 = true ↔ s.fifo.length = s.cfg.fifoDepth) ∧
    s.statusWord.getLsbD 3 = s.drop ∧
    s.statusWord.extractLsb' 8 4 = s.ecode ∧
    ∀ k : Nat, (4 ≤ k ∧ k < 8) ∨ 12 ≤ k → s.statusWord.getLsbD k = false

/-- R52, R56, R60: with BUSY = 0 a read of offset 0x400 + 4k + j of the window (j ignored, R54) returns FB[4k] to FB[4k + 3],
lower byte in lower bits, and the read changes nothing of the block. -/
def Obligations.FbwinReadsFramebuffer : Prop :=
  ∀ (s : State) (k j : Nat) (rest : List Turn), k < 256 → j < 4 → s.busy = false →
    s.env.turns = .read (BitVec.ofNat 11 (0x400 + 4 * k + j)) :: rest →
    ∃ v : Word,
      step s = .next { s with
        env := { s.env with turns := rest }
        obs := { s.obs with reads := s.obs.reads ++ [⟨BitVec.ofNat 11 (0x400 + 4 * k + j), v⟩] } } ∧
      ∀ b : Nat, b < 4 → v.extractLsb' (8 * b) 8 = s.fb.read (4 * k + b)

/-- R55, R54, R25, R56: address bits 1:0 are ignored; offsets 0x018 to 0x3FF read 0 and ignore writes; 0x400 to 0x7FF are the
words of FBWIN; writes to RESULT, CSP, EPKT and FBWIN are ignored; STATUS reads its word, CTRL and CMD read 0; CSP and EPKT read
exactly; RESULT reads exactly when BUSY = 0. A step whose turn is a read returns that value to the host and changes nothing of
the block, whatever BUSY is; a step whose turn is a write does what the write of its register does, and an ignored one does
nothing. -/
def Obligations.WindowMap : Prop :=
  ∀ (offset : BitVec 11) (w : Word) (s : State),
    regAt offset = regAt (offset &&& 0x7FC#11) ∧
    (0x018 ≤ offset.toNat ∧ offset.toNat < 0x400 → readValue (regAt offset) s = 0#32 ∧ hostWrite offset w s = s) ∧
    (0x400 ≤ offset.toNat → regAt offset = .fbwin ((offset.toNat - 0x400) / 4)) ∧
    (0x00C ≤ offset.toNat → hostWrite offset w s = s) ∧
    (offset.toNat < 0x004 → readValue (regAt offset) s = s.statusWord) ∧
    (0x004 ≤ offset.toNat ∧ offset.toNat < 0x00C → readValue (regAt offset) s = 0#32) ∧
    (0x010 ≤ offset.toNat ∧ offset.toNat < 0x014 → readValue (regAt offset) s = s.csp) ∧
    (0x014 ≤ offset.toNat ∧ offset.toNat < 0x018 → readValue (regAt offset) s = s.epkt) ∧
    (0x00C ≤ offset.toNat ∧ offset.toNat < 0x010 → s.busy = false → readValue (regAt offset) s = s.result) ∧
    (∀ rest : List Turn, s.env.turns = .read offset :: rest →
      ∃ (v : Word) (draws : Nat),
        step s = .next { s with
          env := { s.env with turns := rest, draws := draws }
          obs := { s.obs with reads := s.obs.reads ++ [⟨offset, v⟩] } } ∧
        (offset.toNat < 0x004 → v = s.statusWord) ∧
        (0x004 ≤ offset.toNat → offset.toNat < 0x00C → v = 0#32) ∧
        (0x00C ≤ offset.toNat → offset.toNat < 0x010 → s.busy = false → v = s.result) ∧
        (0x010 ≤ offset.toNat → offset.toNat < 0x014 → v = s.csp) ∧
        (0x014 ≤ offset.toNat → offset.toNat < 0x018 → v = s.epkt) ∧
        (0x018 ≤ offset.toNat → offset.toNat < 0x400 → v = 0#32) ∧
        (s.busy = false ∨ offset.toNat < 0x00C ∨ 0x010 ≤ offset.toNat ∧ offset.toNat < 0x400 → draws = s.env.draws)) ∧
    ∀ rest : List Turn, s.env.turns = .write offset w :: rest →
      step s = .next (hostWrite offset w { s with env := { s.env with turns := rest } }) ∧
      (0x00C ≤ offset.toNat → step s = .next { s with env := { s.env with turns := rest } })

/-- R240, R32: a write of 1 to CTRL bit 0, in any state, puts every piece of the block's state at its power-on value and keeps
the parameters; with no packet in execution nothing is asked of the outside and no transaction issued (R242); a write of 0
has no effect. -/
def Obligations.CtrlResetRestoresResetState : Prop :=
  ∀ (s : State) (w : Word) (rest : List Turn), s.env.turns = .write 0x004 w :: rest →
    (w.getLsbD 0 = true → ∃ t : State, step s = .next t ∧
      t = { State.reset with cfg := s.cfg, env := t.env, obs := t.obs } ∧
      t.env.turns = rest ∧
      (s.engine ≠ .exec → t.env = { s.env with turns := rest } ∧ t.obs = s.obs)) ∧
    (w.getLsbD 0 = false → step s = .next { s with env := { s.env with turns := rest } })

/-- R243: a CTRL.RESET in the middle of a FLUSH or INIT leaves in the sink log a prefix of that packet's transactions, issues no
further one, and puts every piece of the block's state at its reset value. -/
def Obligations.ResetAbortsPacket : Prop :=
  ∀ (s : State) (i : Instr) (n : Nat) (txns : List (SinkTag × Byte)) (w : Word) (rest : List Turn),
    s.env.turns = .write 0x004 w :: rest → w.getLsbD 0 = true → s.engine = .exec → decode s.pkt = .ok i n →
    (i = .flush ∧ txns = flushTxns s.cfg s.fb) ∨ (i = .init ∧ txns = initTxns s.cfg) →
    ∃ t : State, step s = .next t ∧
      t = { State.reset with cfg := s.cfg, env := t.env, obs := t.obs } ∧
      t.obs.reads = s.obs.reads ∧ t.obs.asked = s.obs.asked ∧ t.env.turns = rest ∧
      ∃ new : List SinkTxn, t.obs.sink = s.obs.sink ++ new ∧ new.map (fun x => (x.tag, x.byte)) <+: txns

/-- R241: after power-on reset, whatever the parameters, every register of the window and every word of FBWIN reads 0, every
byte of FB is 0x00, FIFO and packet buffer are empty, the engine is IDLE, CSP is 0, and a word written to CMD becomes the
first word of the stream. -/
def Obligations.ResetReadsZero : Prop :=
  ∀ cfg : Config.Params, 1 ≤ cfg.fifoDepth →
    (∀ offset : BitVec 11, readValue (regAt offset) { State.reset with cfg := cfg } = 0#32) ∧
    (∀ a, State.reset.fb.read a = 0x00#8) ∧
    State.reset.fifo = [] ∧ State.reset.pkt = [] ∧ State.reset.engine = .idle ∧ State.reset.csp = 0#32 ∧
    ∀ w : Word, hostWrite 0x008 w { State.reset with cfg := cfg } = { State.reset with cfg := cfg, fifo := [w] }
end

