-- ==== Sys2Proof/Laws/Decode.lean ====
section
/-! SUPPORT. What the encoder writes the decoder reads, field by field, and when the length of a packet is known
(30_encoding.md R70 to R82). -/

namespace Sys2Proof

/-! ## Fields -/

theorem coordOk_iff {v : Int} : coordOk v = true ↔ -32768 ≤ v ∧ v ≤ 32767 := by simp [coordOk]

theorem sizeOk_iff {n : Nat} : sizeOk n = true ↔ n ≤ 65535 := by simp [sizeOk]

/-- The lower half of a word put together from two halves. -/
theorem extract_low (hi lo : BitVec 16) : (hi ++ lo : BitVec 32).extractLsb' 0 16 = lo := by
  ext i hi16
  rw [BitVec.getElem_extractLsb']
  rw [BitVec.getLsbD_append, if_pos (by omega), Nat.zero_add, BitVec.getLsbD_eq_getElem hi16]

/-- The upper half of a word put together from two halves. -/
theorem extract_high (hi lo : BitVec 16) : (hi ++ lo : BitVec 32).extractLsb' 16 16 = hi := by
  ext i hi16
  rw [BitVec.getElem_extractLsb']
  rw [BitVec.getLsbD_append, if_neg (by omega), Nat.add_sub_cancel_left, BitVec.getLsbD_eq_getElem hi16]

theorem toInt_ofInt_coord {v : Int} (h : coordOk v = true) : (BitVec.ofInt 16 v).toInt = v := by
  rw [coordOk_iff] at h
  rw [BitVec.toInt_ofInt, Int.bmod_eq_of_le (by omega) (by omega)]

theorem toNat_ofNat_size {n : Nat} (h : sizeOk n = true) : (BitVec.ofNat 16 n).toNat = n := by
  rw [sizeOk_iff] at h
  rw [BitVec.toNat_ofNat, Nat.mod_eq_of_lt (by omega)]

theorem sext16At_coordWord_low (a b : Int) (ha : coordOk a = true) : sext16At (coordWord a b) 0 = a := by
  rw [sext16At, coordWord, extract_low, toInt_ofInt_coord ha]

theorem sext16At_coordWord_high (a b : Int) (hb : coordOk b = true) : sext16At (coordWord a b) 16 = b := by
  rw [sext16At, coordWord, extract_high, toInt_ofInt_coord hb]

theorem zext16At_sizeWord_low (a b : Nat) (ha : sizeOk a = true) : zext16At (sizeWord a b) 0 = a := by
  rw [zext16At, sizeWord, extract_low, toNat_ofNat_size ha]

theorem zext16At_sizeWord_high (a b : Nat) (hb : sizeOk b = true) : zext16At (sizeWord a b) 16 = b := by
  rw [zext16At, sizeWord, extract_high, toNat_ofNat_size hb]

/-- Every signed field is in range (R72). -/
theorem coordOk_sext16At (w : Word) (lo : Nat) : coordOk (sext16At w lo) = true := by
  rw [coordOk_iff, sext16At]
  have h1 : -2 ^ 15 ≤ (w.extractLsb' lo 16).toInt := BitVec.le_toInt _
  have h2 : (w.extractLsb' lo 16).toInt < 2 ^ 15 := BitVec.toInt_lt
  omega

/-- Every unsigned field is in range (R74, R76). -/
theorem sizeOk_zext16At (w : Word) (lo : Nat) : sizeOk (zext16At w lo) = true := by
  rw [sizeOk_iff, zext16At]
  have := (w.extractLsb' lo 16).isLt
  omega

/-! ## Headers -/

/-- A bit of a header word, by its field (R71). -/
theorem headerWord_bit (op : Opcode) (c g : Bool) (u i : Nat) : (headerWord op c g u).getLsbD i =
    if i < 8 then (opcByte op).getLsbD i else if i = 8 then c else if i = 9 then g else if i < 16 then false
    else (BitVec.ofNat 16 u).getLsbD (i - 16) := by
  change BitVec.getLsbD (w := 16 + 6 + 1 + 1 + 8)
    (BitVec.ofNat 16 u ++ 0#6 ++ BitVec.ofBool g ++ BitVec.ofBool c ++ opcByte op) i = _
  simp only [BitVec.getLsbD_append]
  by_cases h1 : i < 8
  · simp [h1]
  by_cases h2 : i = 8
  · subst h2; simp
  by_cases h3 : i = 9
  · subst h3; simp
  by_cases h4 : i < 16
  all_goals rw [if_neg h1, if_neg (by omega), if_neg (by omega), if_neg h1, if_neg h2, if_neg h3]
  · rw [if_pos (by omega), if_pos h4, BitVec.getLsbD_zero]
  · rw [if_neg (by omega), if_neg h4, (by omega : i - 8 - 1 - 1 - 6 = i - 16)]

theorem headerWord_opc (op : Opcode) (c g : Bool) (u : Nat) : (headerWord op c g u).extractLsb' 0 8 = opcByte op := by
  ext i hi
  rw [BitVec.getElem_extractLsb', headerWord_bit, if_pos (by omega), Nat.zero_add, BitVec.getLsbD_eq_getElem hi]

theorem opcodeOf_opcByte (op : Opcode) : opcodeOf (opcByte op) = some op := by cases op <;> rfl

theorem headerOpcode_headerWord (op : Opcode) (c g : Bool) (u : Nat) : headerOpcode (headerWord op c g u) = some op := by
  rw [headerOpcode, headerWord_opc, opcodeOf_opcByte]

theorem opcodeOf_eq_some {b : Byte} {op : Opcode} : opcodeOf b = some op ↔ b = opcByte op := by
  constructor
  · intro h
    unfold opcodeOf at h
    split at h <;> simp only [Option.some.injEq, reduceCtorEq] at h <;> subst h <;>
      exact BitVec.eq_of_toNat_eq (by simp_all [opcByte])
  · rintro rfl; exact opcodeOf_opcByte op

theorem headerWord_colour (op : Opcode) (c g : Bool) (u : Nat) : (headerWord op c g u).getLsbD 8 = c := by
  rw [headerWord_bit]; rfl

theorem headerWord_mode (op : Opcode) (c g : Bool) (u : Nat) : (headerWord op c g u).getLsbD 9 = g := by
  rw [headerWord_bit]; rfl

theorem headerWord_size (op : Opcode) (c g : Bool) (u : Nat) (hu : sizeOk u = true) :
    zext16At (headerWord op c g u) 16 = u := by
  have : (headerWord op c g u).extractLsb' 16 16 = BitVec.ofNat 16 u := by
    ext i hi
    rw [BitVec.getElem_extractLsb', headerWord_bit, if_neg (by omega), if_neg (by omega), if_neg (by omega),
      if_neg (by omega), Nat.add_sub_cancel_left, BitVec.getLsbD_eq_getElem hi]
  rw [zext16At, this, toNat_ofNat_size hu]

/-! ## Lengths -/

/-- A packet is at most MAX_PACKET_WORDS = 16388 words long (R6, R39). -/
theorem packetLength_le {ws : List Word} {n : Nat} (h : packetLength ws = some n) : 1 ≤ n ∧ n ≤ 16388 := by
  cases ws with
  | nil => simp [packetLength] at h
  | cons hd args =>
    simp only [packetLength] at h
    cases ho : headerOpcode hd with
    | none => simp [ho] at h; omega
    | some op =>
      simp only [ho] at h
      generalize (hd :: args)[2]? = w2 at h
      cases w2 with
      | none => cases op <;> simp [opcodeLength] at h <;> omega
      | some w2 =>
        have := sizeOk_iff.mp (sizeOk_zext16At w2 0)
        cases op <;> simp [opcodeLength, textPacketLength] at h <;> omega

/-- Once the length is known, more words do not change it (R82). -/
theorem packetLength_append {ws : List Word} {n : Nat} (h : packetLength ws = some n) (more : List Word) :
    packetLength (ws ++ more) = some n := by
  cases ws with
  | nil => simp [packetLength] at h
  | cons hd args =>
    simp only [packetLength, List.cons_append] at h ⊢
    split
    · rename_i ho; simpa [ho] using h
    · rename_i op ho
      simp only [ho] at h
      cases hw : (hd :: args)[2]? with
      | some w2 =>
        rw [hw] at h
        have : (hd :: (args ++ more))[2]? = some w2 := by
          rw [← List.cons_append, List.getElem?_append_left (by
            have := List.getElem?_eq_some_iff.mp hw; exact this.1)]
          exact hw
        rw [this]; exact h
      | none =>
        rw [hw] at h
        cases op <;> simp_all [opcodeLength]

/-- A packet whose length is not known yet has at most two words (R82). -/
theorem packetLength_none {ws : List Word} (h : packetLength ws = none) : ws.length ≤ 2 := by
  cases ws with
  | nil => simp
  | cons hd args =>
    simp only [packetLength] at h
    split at h
    · simp at h
    · rename_i op _
      cases hw : (hd :: args)[2]? with
      | none => simpa using List.getElem?_eq_none_iff.mp hw
      | some w2 => rw [hw] at h; cases op <;> simp [opcodeLength] at h

/-- A word that completes a packet completes it exactly (R39, R82). -/
theorem packetComplete_snoc {ws : List Word} {w : Word} (h : packetComplete ws = false)
    (h' : packetComplete (ws ++ [w]) = true) : packetLength (ws ++ [w]) = some (ws ++ [w]).length := by
  cases hl : packetLength ws with
  | some n =>
    have hl' := packetLength_append hl [w]
    simp only [packetComplete, hl, decide_eq_false_iff_not, not_le] at h
    simp only [packetComplete, hl', decide_eq_true_eq] at h'
    rw [hl']
    simp only [List.length_append, List.length_singleton] at h' ⊢
    congr 1; omega
  | none =>
    have hlen := packetLength_none hl
    cases hl' : packetLength (ws ++ [w]) with
    | none => simp [packetComplete, hl'] at h'
    | some n =>
      simp only [packetComplete, hl', decide_eq_true_eq] at h'
      match ws, hl, hl', hlen with
      | [], hl, hl', _ =>
        have := packetLength_le hl'
        simp only [List.nil_append, List.length_singleton] at h' ⊢
        congr 1; omega
      | hd :: args, hl, hl', hlen =>
        simp only [packetLength] at hl
        split at hl
        · simp at hl
        · rename_i op ho
          have hop : op = .drawText := by
            cases hw : (hd :: args)[2]? <;> rw [hw] at hl <;> (cases op <;> simp [opcodeLength] at hl); rfl
          subst hop
          simp only [packetLength, List.cons_append, ho] at hl'
          cases hw : (hd :: (args ++ [w]))[2]? with
          | none => rw [hw] at hl'; simp [opcodeLength] at hl'
          | some w2 =>
            rw [hw] at hl'
            simp only [opcodeLength, textPacketLength, Option.some.injEq] at hl'
            simp only [List.length_append, List.length_cons, List.length_nil] at h' hlen
            omega

/-- An incomplete packet is shorter than MAX_PACKET_WORDS (R39). -/
theorem packetIncomplete_lt {ws : List Word} (h : packetComplete ws = false) : ws.length < 16388 := by
  cases hl : packetLength ws with
  | none => have := packetLength_none hl; omega
  | some n =>
    have := packetLength_le hl
    simp only [packetComplete, hl, decide_eq_false_iff_not, not_le] at h
    omega

/-! ## Decoding -/

/-- Decoding, said by the packet's opcode and length. -/
theorem decode_cases (ws : List Word) :
    (packetLength ws = none ∧ decode ws = .incomplete) ∨
    (∃ n, packetLength ws = some n ∧ ws.length < n ∧ decode ws = .incomplete) ∨
    (∃ h args, ws = h :: args ∧ headerOpcode h = none ∧ packetLength ws = some 1 ∧ decode ws = .bad .illegalOpcode 1) ∨
    (∃ h args op n, ws = h :: args ∧ headerOpcode h = some op ∧ packetLength ws = some n ∧ n ≤ ws.length ∧
      decode ws = if headerReserved op h = true then .bad .reservedField n else .ok (operandsOf op h ws) n) := by
  cases ws with
  | nil => exact .inl ⟨rfl, rfl⟩
  | cons h args =>
    cases ho : headerOpcode h with
    | none => exact .inr (.inr (.inl ⟨h, args, rfl, ho, by simp only [packetLength, ho], by simp only [decode, ho]⟩))
    | some op =>
      cases hl : opcodeLength op (h :: args)[2]? with
      | none => exact .inl ⟨by simp only [packetLength, ho, hl], by simp only [decode, ho, hl]⟩
      | some n =>
        by_cases hn : (h :: args).length < n
        · exact .inr (.inl ⟨n, by simp only [packetLength, ho, hl], hn, by simp only [decode, ho, hl, hn, if_true]⟩)
        · exact .inr (.inr (.inr ⟨h, args, op, n, rfl, ho, by simp only [packetLength, ho, hl], by omega,
            by simp only [decode, ho, hl, hn, if_false]⟩))

/-- A header of a legal opcode with no reserved bit set decodes as soon as its words are there. -/
theorem decode_cons_ok (h : Word) (args : List Word) (op : Opcode) (n : Nat) (ho : headerOpcode h = some op)
    (hl : opcodeLength op (h :: args)[2]? = some n) (hn : n ≤ (h :: args).length) (hr : headerReserved op h = false) :
    decode (h :: args) = .ok (operandsOf op h (h :: args)) n := by
  simp only [decode, ho, hl, hr]
  rw [if_neg (by omega)]
  simp

/-- A decoded command's length is the packet's, the command's own, and within the words present. -/
theorem decode_ok_length {ws : List Word} {i : Instr} {n : Nat} (h : decode ws = .ok i n) :
    packetLength ws = some n ∧ n = i.packetWords ∧ n ≤ ws.length := by
  rcases decode_cases ws with ⟨-, h'⟩ | ⟨_, -, -, h'⟩ | ⟨_, _, -, -, -, h'⟩ | ⟨hd, args, op, m, rfl, ho, hl, hle, h'⟩
  · simp [h'] at h
  · simp [h'] at h
  · simp [h'] at h
  · rw [h'] at h
    split at h
    · simp at h
    · simp only [Decoded.ok.injEq] at h
      obtain ⟨rfl, rfl⟩ := h
      refine ⟨hl, ?_, hle⟩
      simp only [packetLength, ho] at hl
      cases op <;> simp [opcodeLength] at hl <;> simp [operandsOf, Instr.packetWords, hl]
      rcases hx : args[1]? with _ | w2
      · simp [hx] at hl
      · simp [hx] at hl
        simp [unpackText, hl]

/-- A decoding error's length is the packet's, and its cause is one of two. -/
theorem decode_bad_length {ws : List Word} {c : ErrorCode} {n : Nat} (h : decode ws = .bad c n) :
    packetLength ws = some n ∧ n ≤ ws.length ∧ (c = .illegalOpcode ∨ c = .reservedField) := by
  rcases decode_cases ws with ⟨-, h'⟩ | ⟨_, -, -, h'⟩ | ⟨_, _, rfl, -, hl, h'⟩ | ⟨hd, args, op, m, rfl, ho, hl, hle, h'⟩
  · simp [h'] at h
  · simp [h'] at h
  · rw [h'] at h
    simp only [Decoded.bad.injEq] at h
    obtain ⟨rfl, rfl⟩ := h
    exact ⟨hl, by simp, .inl rfl⟩
  · rw [h'] at h
    split at h
    · simp only [Decoded.bad.injEq] at h
      obtain ⟨rfl, rfl⟩ := h
      exact ⟨hl, hle, .inr rfl⟩
    · simp at h

/-- What does not decode yet is not complete. -/
theorem decode_incomplete {ws : List Word} (h : decode ws = .incomplete) : packetComplete ws = false := by
  rcases decode_cases ws with ⟨hl, -⟩ | ⟨_, hl, hn, -⟩ | ⟨_, _, -, -, -, h'⟩ | ⟨_, _, _, _, -, -, -, -, h'⟩
  · simp [packetComplete, hl]
  · simp [packetComplete, hl, hn]
  · simp [h'] at h
  · rw [h'] at h
    split at h <;> simp at h

/-! ## Texts -/

theorem packText_length (text : List Byte) : (packText text).length = (text.length + 3) / 4 := by
  match text with
  | [] => rfl
  | [_] => simp [packText]
  | [_, _] => simp [packText]
  | [_, _, _] => simp [packText]
  | b0 :: b1 :: b2 :: b3 :: rest =>
    have ih := packText_length rest
    simp only [packText, List.length_cons, ih]
    omega

theorem encode_length (i : Instr) : (encode i).length = i.packetWords := by
  cases i <;> simp [encode, Instr.packetWords, textPacketLength, packText_length]; omega

end Sys2Proof
end

