-- ==== Sys2Proof/Laws/Memory.lean ====
section
/-! SUPPORT. What the framebuffer operations do to one byte and to one pixel, and that each keeps the canonical form
(20_memory.md R51; 40_framebuffer.md R101, R105). -/

namespace Sys2Proof.Machine

/-! ## Bytes -/

theorem Memory.wfFrom_mono {m : Memory} {lo lo' : Nat} (h : m.wfFrom lo = true) (hl : lo' ≤ lo) :
    m.wfFrom lo' = true := by
  cases m with
  | nil => rfl
  | cons c rest =>
    obtain ⟨k, v⟩ := c
    simp only [Memory.wfFrom, Bool.and_eq_true, decide_eq_true_eq, bne_iff_ne, ne_eq] at h ⊢
    exact ⟨⟨⟨by omega, h.1.1.2⟩, h.1.2⟩, h.2⟩

theorem Memory.read_below {m : Memory} {lo a : Nat} (h : m.wfFrom lo = true) (ha : a < lo) : m.read a = 0#8 := by
  induction m generalizing lo with
  | nil => rfl
  | cons c rest ih =>
    obtain ⟨k, v⟩ := c
    simp only [Memory.wfFrom, Bool.and_eq_true, decide_eq_true_eq] at h
    simp only [Memory.read]
    rw [if_neg (by omega)]
    exact ih h.2 (by omega)

theorem Memory.read_outside {m : Memory} {lo a : Nat} (h : m.wfFrom lo = true) (ha : 1024 ≤ a) : m.read a = 0#8 := by
  induction m generalizing lo with
  | nil => rfl
  | cons c rest ih =>
    obtain ⟨k, v⟩ := c
    simp only [Memory.wfFrom, Bool.and_eq_true, decide_eq_true_eq] at h
    simp only [Memory.read]
    rw [if_neg (by omega)]
    exact ih h.2

@[simp] theorem Memory.zero_read (a : Nat) : Memory.zero.read a = 0#8 := rfl

@[simp] theorem Memory.zero_wf : Memory.zero.wf = true := rfl

/-- A write changes one byte and no other. -/
theorem Memory.wfFrom_read_write {m : Memory} {lo : Nat} (h : m.wfFrom lo = true) (a b : Nat) (v : Byte) :
    (m.write a v).read b = if b = a then v else m.read b := by
  induction m generalizing lo with
  | nil =>
    simp only [Memory.write, Memory.read]
    by_cases hv : v = 0#8
    · simp [hv, Memory.read]
    · by_cases hb : b = a
      · simp [hv, hb, Memory.read]
      · simp [hv, hb, Memory.read, Ne.symm hb]
  | cons c rest ih =>
    obtain ⟨k, w⟩ := c
    simp only [Memory.wfFrom, Bool.and_eq_true, decide_eq_true_eq, bne_iff_ne, ne_eq] at h
    obtain ⟨-, hrest⟩ := h
    have hlow : ∀ c, c ≤ k → Memory.read rest c = 0#8 := fun c hc => Memory.read_below hrest (by omega)
    simp only [Memory.write]
    by_cases h1 : k < a
    · simp only [h1, if_true, Memory.read, ih hrest]
      by_cases hb : k = b
      · rw [if_pos hb, if_pos hb, if_neg (by omega)]
      · rw [if_neg hb, if_neg hb]
    · by_cases h2 : k = a
      · subst h2
        rw [if_neg h1, if_pos rfl]
        by_cases hv : v = 0#8 <;> by_cases hb : b = k
        · rw [if_pos hv, if_pos hb, hb, hlow k (Nat.le_refl k), hv]
        · rw [if_pos hv, if_neg hb, Memory.read, if_neg (Ne.symm hb)]
        · rw [if_neg hv, if_pos hb, Memory.read, if_pos hb.symm]
        · rw [if_neg hv, if_neg hb, Memory.read, Memory.read, if_neg (Ne.symm hb), if_neg (Ne.symm hb)]
      · rw [if_neg h1, if_neg h2]
        by_cases hv : v = 0#8 <;> by_cases hb : b = a
        · rw [if_pos hv, if_pos hb, Memory.read, if_neg (by omega), hlow b (by omega), hv]
        · rw [if_pos hv, if_neg hb]
        · rw [if_neg hv, if_pos hb, Memory.read, if_pos hb.symm]
        · rw [if_neg hv, if_neg hb, Memory.read, if_neg (Ne.symm hb)]

theorem Memory.read_write {m : Memory} (h : m.wf = true) (a b : Nat) (v : Byte) :
    (m.write a v).read b = if b = a then v else m.read b := Memory.wfFrom_read_write h a b v

theorem Memory.wfFrom_write {m : Memory} {lo : Nat} (h : m.wfFrom lo = true) {a : Nat} (ha : a < 1024) (hlo : lo ≤ a)
    (v : Byte) : (m.write a v).wfFrom lo = true := by
  induction m generalizing lo with
  | nil =>
    by_cases hv : v = 0#8
    · simp [Memory.write, hv, Memory.wfFrom]
    · simp [Memory.write, hv, Memory.wfFrom, ha, hlo]
  | cons c rest ih =>
    obtain ⟨k, w⟩ := c
    have h' := h
    simp only [Memory.wfFrom, Bool.and_eq_true, decide_eq_true_eq, bne_iff_ne, ne_eq] at h'
    obtain ⟨⟨⟨hk, hk'⟩, hw⟩, hrest⟩ := h'
    simp only [Memory.write]
    by_cases h1 : k < a
    · simp [h1, Memory.wfFrom, hk, hk', hw, ih hrest (by omega : k + 1 ≤ a)]
    · by_cases h2 : k = a
      · subst h2
        by_cases hv : v = 0#8
        · simp [hv, Memory.wfFrom_mono hrest (by omega : lo ≤ k + 1)]
        · simp [hv, Memory.wfFrom, hk, hk', hrest]
      · by_cases hv : v = 0#8
        · simpa [h1, h2, hv] using h
        · simp [h1, h2, hv, Memory.wfFrom, ha, hlo, hk', hw, hrest, (by omega : a + 1 ≤ k)]

/-- A write inside the framebuffer keeps the canonical form. -/
theorem Memory.wf_write {m : Memory} (h : m.wf = true) {a : Nat} (ha : a < 1024) (v : Byte) : (m.write a v).wf = true :=
  Memory.wfFrom_write h ha (Nat.zero_le a) v

theorem Memory.wfFrom_ext {m m' : Memory} {lo : Nat} (h : m.wfFrom lo = true) (h' : m'.wfFrom lo = true)
    (he : ∀ a, m.read a = m'.read a) : m = m' := by
  induction m generalizing m' lo with
  | nil =>
    cases m' with
    | nil => rfl
    | cons c rest =>
      obtain ⟨k, v⟩ := c
      simp only [Memory.wfFrom, Bool.and_eq_true, decide_eq_true_eq, bne_iff_ne, ne_eq] at h'
      have := he k
      simp [Memory.read] at this
      exact absurd this.symm h'.1.2
  | cons c rest ih =>
    obtain ⟨k, v⟩ := c
    have h0 := h
    simp only [Memory.wfFrom, Bool.and_eq_true, decide_eq_true_eq, bne_iff_ne, ne_eq] at h
    cases m' with
    | nil =>
      have := he k
      simp [Memory.read] at this
      exact absurd this h.1.2
    | cons c' rest' =>
      obtain ⟨k', v'⟩ := c'
      have h0' := h'
      simp only [Memory.wfFrom, Bool.and_eq_true, decide_eq_true_eq, bne_iff_ne, ne_eq] at h'
      have hr : ∀ {a}, a < k + 1 → Memory.read rest a = 0#8 := fun ha => Memory.read_below h.2 ha
      have hr' : ∀ {a}, a < k' + 1 → Memory.read rest' a = 0#8 := fun ha => Memory.read_below h'.2 ha
      have hkk : k = k' := by
        rcases Nat.lt_trichotomy k k' with hlt | heq | hgt
        · have := he k
          simp only [Memory.read, if_true] at this
          rw [if_neg (by omega), hr' (by omega)] at this
          exact absurd this h.1.2
        · exact heq
        · have := he k'
          simp only [Memory.read, if_true] at this
          rw [if_neg (by omega), hr (by omega)] at this
          exact absurd this.symm h'.1.2
      subst hkk
      have hv : v = v' := by simpa [Memory.read] using he k
      subst hv
      congr 1
      refine ih h.2 h'.2 fun a => ?_
      by_cases ha : k = a
      · subst ha; rw [hr (by omega), hr' (by omega)]
      · simpa [Memory.read, ha] using he a

/-- Two canonical framebuffers with the same bytes are the same list. -/
theorem Memory.wf_ext {m m' : Memory} (h : m.wf = true) (h' : m'.wf = true) (he : ∀ a, m.read a = m'.read a) : m = m' :=
  Memory.wfFrom_ext h h' he

/-! ## Pixels -/

theorem inBounds_iff {x y : Int} : inBounds x y = true ↔ 0 ≤ x ∧ x < 128 ∧ 0 ≤ y ∧ y < 64 := by
  simp [inBounds, and_assoc]

theorem pixIndex_lt {x y : Int} (h : inBounds x y = true) : pixIndex x y < 1024 := by
  rw [inBounds_iff] at h; unfold pixIndex; omega

theorem pixBit_lt (y : Int) : pixBit y < 8 := by unfold pixBit; omega

/-- Two in-bounds pixels with the same byte and bit are the same pixel (R21). -/
theorem pixel_inj {x y u v : Int} (h : inBounds x y = true) (h' : inBounds u v = true)
    (hi : pixIndex x y = pixIndex u v) (hb : pixBit y = pixBit v) : x = u ∧ y = v := by
  rw [inBounds_iff] at h h'
  unfold pixIndex at hi
  unfold pixBit at hb
  omega

theorem Memory.wf_setPixel {m : Memory} (h : m.wf = true) (x y : Int) (on : Bool) : (m.setPixel x y on).wf = true := by
  unfold Memory.setPixel
  split
  · exact Memory.wf_write h (pixIndex_lt ‹_›) _
  · exact h

theorem getLsbD_mask (b i : Nat) (hi : i < 8) : (1#8 <<< b).getLsbD i = decide (i = b) := by
  rw [BitVec.getLsbD_shiftLeft, BitVec.getLsbD_one]
  by_cases h : i = b
  · subst h; simp [hi]
  · by_cases h' : i < b
    · simp [h, h']
    · simp [h, h', hi]; omega

/-- SetPixel changes the one pixel, and that only when it is in bounds (R101, R105). -/
theorem Memory.pix_setPixel {m : Memory} (h : m.wf = true) (x y : Int) (on : Bool) {u v : Int}
    (huv : inBounds u v = true) :
    (m.setPixel x y on).pix u v = if u = x ∧ v = y then on else m.pix u v := by
  by_cases hb : inBounds x y = true
  · simp only [Memory.setPixel, hb, if_true, Memory.pix, Memory.read_write h]
    by_cases hi : pixIndex u v = pixIndex x y
    · rw [if_pos hi]
      have hmask := getLsbD_mask (pixBit y) (pixBit v) (pixBit_lt v)
      by_cases hbit : pixBit v = pixBit y
      · obtain ⟨rfl, rfl⟩ := pixel_inj huv hb hi hbit
        cases on
        · simp only [Bool.false_eq_true, if_false, BitVec.getLsbD_and, BitVec.getLsbD_not, hmask]
          simp
        · simp only [if_true, BitVec.getLsbD_or, hmask]
          simp
      · have hne : ¬(u = x ∧ v = y) := fun hc => hbit (by rw [hc.2])
        rw [if_neg hne, ← hi]
        cases on
        · simp only [Bool.false_eq_true, if_false, BitVec.getLsbD_and, BitVec.getLsbD_not, hmask]
          simp [hbit, pixBit_lt v]
        · simp only [if_true, BitVec.getLsbD_or, hmask]
          simp [hbit]
    · have hne : ¬(u = x ∧ v = y) := fun hc => hi (by rw [hc.1, hc.2])
      rw [if_neg hi, if_neg hne]
  · have hne : ¬(u = x ∧ v = y) := fun hc => hb (by rw [← hc.1, ← hc.2]; exact huv)
    simp [Memory.setPixel, hb, hne]

/-- SetPixel leaves every byte but the pixel's own, and every byte when the pixel is out of bounds (R101). -/
theorem Memory.read_setPixel {m : Memory} (h : m.wf = true) (x y : Int) (on : Bool) (a : Nat)
    (ha : inBounds x y = true → a ≠ pixIndex x y) : (m.setPixel x y on).read a = m.read a := by
  by_cases hb : inBounds x y = true
  · simp [Memory.setPixel, hb, Memory.read_write h, ha hb]
  · simp [Memory.setPixel, hb]

theorem Memory.setPixel_outside (m : Memory) {x y : Int} (on : Bool) (h : inBounds x y = false) :
    m.setPixel x y on = m := by simp [Memory.setPixel, h]

/-- Two canonical framebuffers with the same pixels are the same list: every bit is exactly one pixel (R21). -/
theorem Memory.pix_ext {m m' : Memory} (h : m.wf = true) (h' : m'.wf = true)
    (he : ∀ x y, inBounds x y = true → m.pix x y = m'.pix x y) : m = m' := by
  refine Memory.wf_ext h h' fun a => ?_
  by_cases ha : a < 1024
  · refine BitVec.eq_of_getLsbD_eq fun b hb => ?_
    have hin : inBounds ((a % 128 : Nat) : Int) ((a / 128 * 8 + b : Nat) : Int) = true := by rw [inBounds_iff]; omega
    have hx := he _ _ hin
    have hi : pixIndex ((a % 128 : Nat) : Int) ((a / 128 * 8 + b : Nat) : Int) = a := by
      simp only [pixIndex, Int.toNat_natCast]; omega
    have hbit : pixBit ((a / 128 * 8 + b : Nat) : Int) = b := by simp only [pixBit, Int.toNat_natCast]; omega
    simpa only [Memory.pix, hi, hbit] using hx
  · rw [Memory.read_outside h (by omega), Memory.read_outside h' (by omega)]

theorem Memory.wf_setPixels {m : Memory} (h : m.wf = true) (pts : List (Int × Int)) (on : Bool) :
    (m.setPixels pts on).wf = true := by
  induction pts generalizing m with
  | nil => exact h
  | cons p rest ih => exact ih (Memory.wf_setPixel h p.1 p.2 on)

/-- SetPixel of every point of a list: the points of the list take the colour, no other pixel changes. -/
theorem Memory.pix_setPixels {m : Memory} (h : m.wf = true) (pts : List (Int × Int)) (on : Bool) {u v : Int}
    (huv : inBounds u v = true) :
    (m.setPixels pts on).pix u v = if (u, v) ∈ pts then on else m.pix u v := by
  induction pts generalizing m with
  | nil => simp [Memory.setPixels]
  | cons p rest ih =>
    have hrec : m.setPixels (p :: rest) on = (m.setPixel p.1 p.2 on).setPixels rest on := rfl
    rw [hrec, ih (Memory.wf_setPixel h p.1 p.2 on), Memory.pix_setPixel h _ _ _ huv]
    by_cases h1 : (u, v) ∈ rest
    · simp [h1]
    · by_cases h2 : u = p.1 ∧ v = p.2
      · simp [h2]
      · have : ¬(u, v) = p := fun hc => h2 (by simp [← hc])
        simp [h1, h2, this]

/-- SetPixel of a list leaves every byte that holds none of its in-bounds points. -/
theorem Memory.read_setPixels {m : Memory} (h : m.wf = true) (pts : List (Int × Int)) (on : Bool) (a : Nat)
    (ha : ∀ p ∈ pts, inBounds p.1 p.2 = true → a ≠ pixIndex p.1 p.2) : (m.setPixels pts on).read a = m.read a := by
  induction pts generalizing m with
  | nil => rfl
  | cons p rest ih =>
    have hrec : m.setPixels (p :: rest) on = (m.setPixel p.1 p.2 on).setPixels rest on := rfl
    rw [hrec, ih (Memory.wf_setPixel h p.1 p.2 on) fun q hq => ha q (List.mem_cons_of_mem _ hq),
      Memory.read_setPixel h _ _ _ _ (ha p (List.mem_cons_self ..))]

/-- The order and the repetition of the points do not matter, nor do points out of bounds (D49). -/
theorem Memory.setPixels_congr {m : Memory} (h : m.wf = true) (pts pts' : List (Int × Int)) (on : Bool)
    (he : ∀ x y, inBounds x y = true → ((x, y) ∈ pts ↔ (x, y) ∈ pts')) : m.setPixels pts on = m.setPixels pts' on := by
  refine Memory.pix_ext (Memory.wf_setPixels h _ _) (Memory.wf_setPixels h _ _) fun x y hxy => ?_
  rw [Memory.pix_setPixels h _ _ hxy, Memory.pix_setPixels h _ _ hxy]
  simp [he x y hxy]

/-! ## Ranges -/

theorem mem_intRange {lo hi v : Int} : v ∈ intRange lo hi ↔ lo ≤ v ∧ v ≤ hi := by
  simp only [intRange, List.mem_map, List.mem_range]
  constructor
  · rintro ⟨k, hk, rfl⟩; omega
  · intro h; exact ⟨(v - lo).toNat, by omega, by omega⟩

theorem mem_rectPoints {x1 y1 x2 y2 x y : Int} :
    (x, y) ∈ rectPoints x1 y1 x2 y2 ↔ (x1 ≤ x ∧ x ≤ x2) ∧ (y1 ≤ y ∧ y ≤ y2) := by
  simp only [rectPoints, List.mem_flatMap, List.mem_map, mem_intRange, Prod.mk.injEq]
  constructor
  · rintro ⟨v, hv, u, hu, rfl, rfl⟩; exact ⟨hu, hv⟩
  · rintro ⟨hx, hy⟩; exact ⟨y, hy, x, hx, rfl, rfl⟩

/-- A clipped rectangle holds the in-bounds points of the rectangle (R124). -/
theorem mem_clippedRect {x1 y1 x2 y2 x y : Int} :
    (x, y) ∈ clippedRect x1 y1 x2 y2 ↔ inBounds x y = true ∧ (x1 ≤ x ∧ x ≤ x2) ∧ (y1 ≤ y ∧ y ≤ y2) := by
  rw [clippedRect, mem_rectPoints, inBounds_iff]; omega

end Sys2Proof.Machine
end

