-- ==== Sys2Proof/Laws/Drawing.lean ====
section
/-! SUPPORT. What the drawing operations do to a pixel (41_rasterizer.md R120, R124; 42_image.md R142 to R145), and that each
keeps the canonical form. -/

namespace Sys2Proof.Machine

/-! ## Boxes -/

theorem Memory.wf_fillBox {m : Memory} (h : m.wf = true) (x1 y1 x2 y2 : Int) (on : Bool) :
    (m.fillBox x1 y1 x2 y2 on).wf = true := Memory.wf_setPixels h _ _

theorem Memory.pix_fillBox {m : Memory} (h : m.wf = true) (x1 y1 x2 y2 : Int) (on : Bool) {u v : Int}
    (huv : inBounds u v = true) :
    (m.fillBox x1 y1 x2 y2 on).pix u v = if (x1 ≤ u ∧ u ≤ x2) ∧ (y1 ≤ v ∧ v ≤ y2) then on else m.pix u v := by
  rw [Memory.fillBox, Memory.pix_setPixels h _ _ huv]
  simp [mem_clippedRect, huv]

/-! ## Disks -/

/-- A point in the frame is in the disk when its offset from the centre is at most the radius long (R120). -/
def inDisk (cx cy : Int) (d : Nat) (u v : Int) : Bool :=
  (u - cx) * (u - cx) + (v - cy) * (v - cy) ≤ ((d / 2 : Nat) : Int) * ((d / 2 : Nat) : Int)

theorem abs_le_of_sq_add_sq_le {a b r : Int} (hr : 0 ≤ r) (h : a * a + b * b ≤ r * r) : -r ≤ a ∧ a ≤ r := by
  constructor <;> nlinarith [mul_self_nonneg a, mul_self_nonneg b]

theorem mem_diskPointsClipped {cx cy : Int} {d : Nat} {u v : Int} :
    (u, v) ∈ diskPointsClipped cx cy d ↔ inBounds u v = true ∧ inDisk cx cy d u v = true := by
  simp only [diskPointsClipped, List.mem_filter, mem_clippedRect, inDisk, decide_eq_true_eq]
  constructor
  · rintro ⟨⟨hb, -⟩, h⟩; exact ⟨hb, h⟩
  · rintro ⟨hb, h⟩
    have hr : (0 : Int) ≤ ((d / 2 : Nat) : Int) := by omega
    have hx := abs_le_of_sq_add_sq_le hr h
    have hy := abs_le_of_sq_add_sq_le hr (by rw [Int.add_comm]; exact h)
    exact ⟨⟨hb, by omega, by omega⟩, h⟩

theorem Memory.wf_disk {m : Memory} (h : m.wf = true) (cx cy : Int) (d : Nat) (on : Bool) :
    (m.disk cx cy d on).wf = true := Memory.wf_setPixels h _ _

theorem Memory.pix_disk {m : Memory} (h : m.wf = true) (cx cy : Int) (d : Nat) (on : Bool) {u v : Int}
    (huv : inBounds u v = true) :
    (m.disk cx cy d on).pix u v = if inDisk cx cy d u v = true then on else m.pix u v := by
  rw [Memory.disk, Memory.pix_setPixels h _ _ huv]
  simp [mem_diskPointsClipped, huv]

/-! ## The walk -/

/-- One pass, coordinate by coordinate (R121). -/
theorem walkStep_eq (w : Walk) (x y err : Int) : walkStep w (x, y, err) =
    (if 2 * err > -w.dy then x + w.sx else x, if 2 * err < w.dx then y + w.sy else y,
      err - (if 2 * err > -w.dy then w.dy else 0) + (if 2 * err < w.dx then w.dx else 0)) := by
  unfold walkStep
  by_cases h1 : 2 * err > -w.dy <;> by_cases h2 : 2 * err < w.dx <;> simp [h1, h2]

/-- While no pass before the n-th stands at the endpoint, the points are those of the passes 0 to n. -/
theorem walkFrom_eq_map (w : Walk) (n : Nat) (p : Int × Int × Int)
    (h : ∀ k < n, ¬((walkStep w)^[k] p).1 = w.x2 ∨ ¬((walkStep w)^[k] p).2.1 = w.y2) :
    walkFrom w n p = (List.range (n + 1)).map fun k => (((walkStep w)^[k] p).1, ((walkStep w)^[k] p).2.1) := by
  induction n generalizing p with
  | zero => simp [walkFrom]
  | succ n ih =>
    rw [walkFrom, if_neg]
    · rw [ih]
      · rw [List.range_succ_eq_map (n := n + 1)]; simp
      · intro k hk; exact h (k + 1) (by omega)
    · have := h 0 (by omega)
      simp only [Function.iterate_zero, id_eq] at this
      tauto

/-- The points of a walk are those of its passes from 0 on, as many as it makes (R121). -/
theorem walkFrom_points (w : Walk) (n : Nat) (p : Int × Int × Int) : ∃ m, m ≤ n ∧
    walkFrom w n p = (List.range (m + 1)).map fun k => (((walkStep w)^[k] p).1, ((walkStep w)^[k] p).2.1) := by
  induction n generalizing p with
  | zero => exact ⟨0, le_rfl, by simp [walkFrom]⟩
  | succ n ih =>
    rw [walkFrom]
    split
    · exact ⟨0, by omega, by simp⟩
    · obtain ⟨m, hm, h⟩ := ih (walkStep w p)
      refine ⟨m + 1, by omega, ?_⟩
      rw [h, List.range_succ_eq_map (n := m + 1)]
      simp

/-- Once a pass stands at the endpoint, more passes add nothing. -/
theorem walkFrom_add (w : Walk) (n m : Nat) (p : Int × Int × Int)
    (he : ((walkStep w)^[n] p).1 = w.x2 ∧ ((walkStep w)^[n] p).2.1 = w.y2) : walkFrom w (n + m) p = walkFrom w n p := by
  induction n generalizing p with
  | zero =>
    cases m with
    | zero => rfl
    | succ m => rw [Nat.zero_add]; simp only [walkFrom]; exact if_pos he
  | succ n ih =>
    rw [show n + 1 + m = (n + m) + 1 by omega, walkFrom, walkFrom]
    split
    · rfl
    · rw [ih _ he]

/-! ## Lines -/

theorem Memory.wf_stampDisks {m : Memory} (h : m.wf = true) (pts : List (Int × Int)) (d : Nat) (on : Bool) :
    (m.stampDisks pts d on).wf = true := by
  induction pts generalizing m with
  | nil => exact h
  | cons p rest ih => exact ih (Memory.wf_disk h p.1 p.2 d on)

/-- Stamping disks at a list of points: a pixel in one of the disks takes the colour, no other changes (R126). -/
theorem Memory.pix_stampDisks {m : Memory} (h : m.wf = true) (pts : List (Int × Int)) (d : Nat) (on : Bool) {u v : Int}
    (huv : inBounds u v = true) :
    (m.stampDisks pts d on).pix u v = if ∃ p ∈ pts, inDisk p.1 p.2 d u v = true then on else m.pix u v := by
  induction pts generalizing m with
  | nil => simp [Memory.stampDisks]
  | cons p rest ih =>
    have hrec : m.stampDisks (p :: rest) d on = (m.disk p.1 p.2 d on).stampDisks rest d on := rfl
    rw [hrec, ih (Memory.wf_disk h p.1 p.2 d on), Memory.pix_disk h _ _ _ _ huv]
    by_cases h1 : ∃ q ∈ rest, inDisk q.1 q.2 d u v = true
    · rw [if_pos h1, if_pos]
      obtain ⟨q, hq, hd⟩ := h1
      exact ⟨q, List.mem_cons_of_mem _ hq, hd⟩
    · rw [if_neg h1]
      by_cases h2 : inDisk p.1 p.2 d u v = true
      · rw [if_pos h2, if_pos]
        exact ⟨p, List.mem_cons_self .., h2⟩
      · rw [if_neg h2, if_neg]
        rintro ⟨q, hq, hd⟩
        rcases List.mem_cons.mp hq with rfl | hq
        · exact h2 hd
        · exact h1 ⟨q, hq, hd⟩

/-! ## Images -/

/-- The resampled image has the new size (R142, law a). -/
theorem resampleWith_size (f : Image → Nat → Nat → Nat → Nat → Pixel) (img : Image) (nw nh : Nat) :
    (resampleWith f img nw nh).w = nw ∧ (resampleWith f img nw nh).h = nh := by
  unfold resampleWith
  split
  · rename_i hc; exact ⟨hc.1.symm, hc.2.symm⟩
  · exact ⟨rfl, rfl⟩

/-- At the image's own size RESAMPLE answers the image (R142, law c). -/
theorem resampleWith_same (f : Image → Nat → Nat → Nat → Nat → Pixel) (img : Image) :
    resampleWith f img img.w img.h = img := by simp [resampleWith]

/-- At scale 1.0 a size does not change (R76, R141). -/
theorem scaledSize_one (v : Nat) : scaledSize v 256 = v := by unfold scaledSize; omega

theorem mem_imagePoints {img : Image} {xo yo u v : Int} :
    (u, v) ∈ imagePoints img xo yo ↔
      inBounds u v = true ∧ (xo ≤ u ∧ u < xo + img.w) ∧ (yo ≤ v ∧ v < yo + img.h) ∧
        opaqueAt img (u - xo).toNat (v - yo).toNat = true := by
  simp only [imagePoints, List.mem_filter, mem_clippedRect]
  constructor
  · rintro ⟨⟨hb, h1, h2⟩, h3⟩; exact ⟨hb, by omega, by omega, h3⟩
  · rintro ⟨hb, h1, h2, h3⟩; exact ⟨⟨hb, by omega, by omega⟩, h3⟩

theorem Memory.wf_compositeWith {m : Memory} (h : m.wf = true) (f : Image → Nat → Nat → Nat → Nat → Pixel) (img : Image)
    (scale : Nat) (xo yo : Int) : (m.compositeWith f img scale xo yo).wf = true := by
  unfold Memory.compositeWith
  simp only
  split
  · exact h
  · exact Memory.wf_setPixels h _ _

theorem Memory.wf_composite {m : Memory} (h : m.wf = true) (img : Image) (scale : Nat) (xo yo : Int) :
    (m.composite img scale xo yo).wf = true := Memory.wf_compositeWith h _ _ _ _ _

/-- Compositing lights the in-frame points of the resampled image whose alpha is > 127, and changes no other pixel
(R143, R144). -/
theorem Memory.pix_compositeWith {m : Memory} (h : m.wf = true) (f : Image → Nat → Nat → Nat → Nat → Pixel) (img : Image)
    (scale : Nat) (xo yo : Int) {u v : Int} (huv : inBounds u v = true) :
    (m.compositeWith f img scale xo yo).pix u v =
      if (xo ≤ u ∧ u < xo + scaledSize img.w scale) ∧ (yo ≤ v ∧ v < yo + scaledSize img.h scale) ∧
        opaqueAt (resampleWith f img (scaledSize img.w scale) (scaledSize img.h scale)) (u - xo).toNat (v - yo).toNat = true
      then true else m.pix u v := by
  unfold Memory.compositeWith
  simp only
  split
  · rw [if_neg]
    rintro ⟨h1, h2, -⟩; omega
  · rw [Memory.pix_setPixels h _ _ huv]
    simp only [mem_imagePoints, huv, true_and, (resampleWith_size f img _ _).1, (resampleWith_size f img _ _).2]

end Sys2Proof.Machine
end

