-- ==== Sys2Proof/Laws/State.lean ====
section
/-! SUPPORT. One lemma per field and update of the state, true by definition, so that no later proof unfolds an update. -/

namespace Sys2Proof.Machine

/-! ## setFb -/

@[simp] theorem State.setFb_fb (s : State) (v : Memory) : (s.setFb v).fb = v := rfl
@[simp] theorem State.setFb_fifo (s : State) (v : Memory) : (s.setFb v).fifo = s.fifo := rfl
@[simp] theorem State.setFb_pkt (s : State) (v : Memory) : (s.setFb v).pkt = s.pkt := rfl
@[simp] theorem State.setFb_engine (s : State) (v : Memory) : (s.setFb v).engine = s.engine := rfl
@[simp] theorem State.setFb_err (s : State) (v : Memory) : (s.setFb v).err = s.err := rfl
@[simp] theorem State.setFb_ecode (s : State) (v : Memory) : (s.setFb v).ecode = s.ecode := rfl
@[simp] theorem State.setFb_drop (s : State) (v : Memory) : (s.setFb v).drop = s.drop := rfl
@[simp] theorem State.setFb_result (s : State) (v : Memory) : (s.setFb v).result = s.result := rfl
@[simp] theorem State.setFb_csp (s : State) (v : Memory) : (s.setFb v).csp = s.csp := rfl
@[simp] theorem State.setFb_epkt (s : State) (v : Memory) : (s.setFb v).epkt = s.epkt := rfl
@[simp] theorem State.setFb_cfg (s : State) (v : Memory) : (s.setFb v).cfg = s.cfg := rfl
@[simp] theorem State.setFb_env (s : State) (v : Memory) : (s.setFb v).env = s.env := rfl
@[simp] theorem State.setFb_obs (s : State) (v : Memory) : (s.setFb v).obs = s.obs := rfl

/-! ## setResult -/

@[simp] theorem State.setResult_fb (s : State) (v : Word) : (s.setResult v).fb = s.fb := rfl
@[simp] theorem State.setResult_fifo (s : State) (v : Word) : (s.setResult v).fifo = s.fifo := rfl
@[simp] theorem State.setResult_pkt (s : State) (v : Word) : (s.setResult v).pkt = s.pkt := rfl
@[simp] theorem State.setResult_engine (s : State) (v : Word) : (s.setResult v).engine = s.engine := rfl
@[simp] theorem State.setResult_err (s : State) (v : Word) : (s.setResult v).err = s.err := rfl
@[simp] theorem State.setResult_ecode (s : State) (v : Word) : (s.setResult v).ecode = s.ecode := rfl
@[simp] theorem State.setResult_drop (s : State) (v : Word) : (s.setResult v).drop = s.drop := rfl
@[simp] theorem State.setResult_result (s : State) (v : Word) : (s.setResult v).result = v := rfl
@[simp] theorem State.setResult_csp (s : State) (v : Word) : (s.setResult v).csp = s.csp := rfl
@[simp] theorem State.setResult_epkt (s : State) (v : Word) : (s.setResult v).epkt = s.epkt := rfl
@[simp] theorem State.setResult_cfg (s : State) (v : Word) : (s.setResult v).cfg = s.cfg := rfl
@[simp] theorem State.setResult_env (s : State) (v : Word) : (s.setResult v).env = s.env := rfl
@[simp] theorem State.setResult_obs (s : State) (v : Word) : (s.setResult v).obs = s.obs := rfl

/-! ## retire -/

@[simp] theorem State.retire_fb (s : State) (n : Nat) : (s.retire n).fb = s.fb := rfl
@[simp] theorem State.retire_fifo (s : State) (n : Nat) : (s.retire n).fifo = s.fifo := rfl
@[simp] theorem State.retire_pkt (s : State) (n : Nat) : (s.retire n).pkt = [] := rfl
@[simp] theorem State.retire_engine (s : State) (n : Nat) : (s.retire n).engine = .idle := rfl
@[simp] theorem State.retire_err (s : State) (n : Nat) : (s.retire n).err = s.err := rfl
@[simp] theorem State.retire_ecode (s : State) (n : Nat) : (s.retire n).ecode = s.ecode := rfl
@[simp] theorem State.retire_drop (s : State) (n : Nat) : (s.retire n).drop = s.drop := rfl
@[simp] theorem State.retire_result (s : State) (n : Nat) : (s.retire n).result = s.result := rfl
@[simp] theorem State.retire_csp (s : State) (n : Nat) : (s.retire n).csp = s.csp + BitVec.ofNat 32 n := rfl
@[simp] theorem State.retire_epkt (s : State) (n : Nat) : (s.retire n).epkt = s.epkt := rfl
@[simp] theorem State.retire_cfg (s : State) (n : Nat) : (s.retire n).cfg = s.cfg := rfl
@[simp] theorem State.retire_env (s : State) (n : Nat) : (s.retire n).env = s.env := rfl
@[simp] theorem State.retire_obs (s : State) (n : Nat) : (s.retire n).obs = s.obs := rfl

/-! ## raiseError -/

@[simp] theorem State.raiseError_fb (s : State) (n : Nat) (c : ErrorCode) : (s.raiseError n c).fb = s.fb := rfl
@[simp] theorem State.raiseError_fifo (s : State) (n : Nat) (c : ErrorCode) : (s.raiseError n c).fifo = s.fifo := rfl
@[simp] theorem State.raiseError_pkt (s : State) (n : Nat) (c : ErrorCode) : (s.raiseError n c).pkt = [] := rfl
@[simp] theorem State.raiseError_engine (s : State) (n : Nat) (c : ErrorCode) : (s.raiseError n c).engine = .halted := rfl
@[simp] theorem State.raiseError_err (s : State) (n : Nat) (c : ErrorCode) : (s.raiseError n c).err = true := rfl
@[simp] theorem State.raiseError_ecode (s : State) (n : Nat) (c : ErrorCode) : (s.raiseError n c).ecode = ecodeOf c := rfl
@[simp] theorem State.raiseError_drop (s : State) (n : Nat) (c : ErrorCode) : (s.raiseError n c).drop = s.drop := rfl
@[simp] theorem State.raiseError_result (s : State) (n : Nat) (c : ErrorCode) : (s.raiseError n c).result = s.result := rfl
@[simp] theorem State.raiseError_csp (s : State) (n : Nat) (c : ErrorCode) : (s.raiseError n c).csp = s.csp + BitVec.ofNat 32 n := rfl
@[simp] theorem State.raiseError_epkt (s : State) (n : Nat) (c : ErrorCode) : (s.raiseError n c).epkt = s.csp := rfl
@[simp] theorem State.raiseError_cfg (s : State) (n : Nat) (c : ErrorCode) : (s.raiseError n c).cfg = s.cfg := rfl
@[simp] theorem State.raiseError_env (s : State) (n : Nat) (c : ErrorCode) : (s.raiseError n c).env = s.env := rfl
@[simp] theorem State.raiseError_obs (s : State) (n : Nat) (c : ErrorCode) : (s.raiseError n c).obs = s.obs := rfl

/-! ## resume -/

@[simp] theorem State.resume_fb (s : State) : (s.resume).fb = s.fb := rfl
@[simp] theorem State.resume_fifo (s : State) : (s.resume).fifo = s.fifo := rfl
@[simp] theorem State.resume_pkt (s : State) : (s.resume).pkt = s.pkt := rfl
@[simp] theorem State.resume_engine (s : State) : (s.resume).engine = .idle := rfl
@[simp] theorem State.resume_err (s : State) : (s.resume).err = false := rfl
@[simp] theorem State.resume_ecode (s : State) : (s.resume).ecode = 0 := rfl
@[simp] theorem State.resume_drop (s : State) : (s.resume).drop = s.drop := rfl
@[simp] theorem State.resume_result (s : State) : (s.resume).result = s.result := rfl
@[simp] theorem State.resume_csp (s : State) : (s.resume).csp = s.csp := rfl
@[simp] theorem State.resume_epkt (s : State) : (s.resume).epkt = s.epkt := rfl
@[simp] theorem State.resume_cfg (s : State) : (s.resume).cfg = s.cfg := rfl
@[simp] theorem State.resume_env (s : State) : (s.resume).env = s.env := rfl
@[simp] theorem State.resume_obs (s : State) : (s.resume).obs = s.obs := rfl

/-! ## blockReset -/

@[simp] theorem State.blockReset_fb (s : State) : (s.blockReset).fb = Memory.zero := rfl
@[simp] theorem State.blockReset_fifo (s : State) : (s.blockReset).fifo = [] := rfl
@[simp] theorem State.blockReset_pkt (s : State) : (s.blockReset).pkt = [] := rfl
@[simp] theorem State.blockReset_engine (s : State) : (s.blockReset).engine = .idle := rfl
@[simp] theorem State.blockReset_err (s : State) : (s.blockReset).err = false := rfl
@[simp] theorem State.blockReset_ecode (s : State) : (s.blockReset).ecode = 0 := rfl
@[simp] theorem State.blockReset_drop (s : State) : (s.blockReset).drop = false := rfl
@[simp] theorem State.blockReset_result (s : State) : (s.blockReset).result = 0 := rfl
@[simp] theorem State.blockReset_csp (s : State) : (s.blockReset).csp = 0 := rfl
@[simp] theorem State.blockReset_epkt (s : State) : (s.blockReset).epkt = 0 := rfl
@[simp] theorem State.blockReset_cfg (s : State) : (s.blockReset).cfg = s.cfg := rfl
@[simp] theorem State.blockReset_env (s : State) : (s.blockReset).env = s.env := rfl
@[simp] theorem State.blockReset_obs (s : State) : (s.blockReset).obs = s.obs := rfl

/-! ## withTurns -/

@[simp] theorem State.withTurns_fb (s : State) (ts : List Turn) : (s.withTurns ts).fb = s.fb := rfl
@[simp] theorem State.withTurns_fifo (s : State) (ts : List Turn) : (s.withTurns ts).fifo = s.fifo := rfl
@[simp] theorem State.withTurns_pkt (s : State) (ts : List Turn) : (s.withTurns ts).pkt = s.pkt := rfl
@[simp] theorem State.withTurns_engine (s : State) (ts : List Turn) : (s.withTurns ts).engine = s.engine := rfl
@[simp] theorem State.withTurns_err (s : State) (ts : List Turn) : (s.withTurns ts).err = s.err := rfl
@[simp] theorem State.withTurns_ecode (s : State) (ts : List Turn) : (s.withTurns ts).ecode = s.ecode := rfl
@[simp] theorem State.withTurns_drop (s : State) (ts : List Turn) : (s.withTurns ts).drop = s.drop := rfl
@[simp] theorem State.withTurns_result (s : State) (ts : List Turn) : (s.withTurns ts).result = s.result := rfl
@[simp] theorem State.withTurns_csp (s : State) (ts : List Turn) : (s.withTurns ts).csp = s.csp := rfl
@[simp] theorem State.withTurns_epkt (s : State) (ts : List Turn) : (s.withTurns ts).epkt = s.epkt := rfl
@[simp] theorem State.withTurns_cfg (s : State) (ts : List Turn) : (s.withTurns ts).cfg = s.cfg := rfl
@[simp] theorem State.withTurns_env (s : State) (ts : List Turn) : (s.withTurns ts).env = { s.env with turns := ts } := rfl
@[simp] theorem State.withTurns_obs (s : State) (ts : List Turn) : (s.withTurns ts).obs = s.obs := rfl

/-! ## drawn -/

@[simp] theorem State.drawn_fb (s : State) : (s.drawn).fb = s.fb := rfl
@[simp] theorem State.drawn_fifo (s : State) : (s.drawn).fifo = s.fifo := rfl
@[simp] theorem State.drawn_pkt (s : State) : (s.drawn).pkt = s.pkt := rfl
@[simp] theorem State.drawn_engine (s : State) : (s.drawn).engine = s.engine := rfl
@[simp] theorem State.drawn_err (s : State) : (s.drawn).err = s.err := rfl
@[simp] theorem State.drawn_ecode (s : State) : (s.drawn).ecode = s.ecode := rfl
@[simp] theorem State.drawn_drop (s : State) : (s.drawn).drop = s.drop := rfl
@[simp] theorem State.drawn_result (s : State) : (s.drawn).result = s.result := rfl
@[simp] theorem State.drawn_csp (s : State) : (s.drawn).csp = s.csp := rfl
@[simp] theorem State.drawn_epkt (s : State) : (s.drawn).epkt = s.epkt := rfl
@[simp] theorem State.drawn_cfg (s : State) : (s.drawn).cfg = s.cfg := rfl
@[simp] theorem State.drawn_env (s : State) : (s.drawn).env = { s.env with draws := s.env.draws + 1 } := rfl
@[simp] theorem State.drawn_obs (s : State) : (s.drawn).obs = s.obs := rfl

/-! ## Questions to the outside: the block's own fields stay -/

@[simp] theorem State.afterSinkAnswer_fb (s : State) : (s.afterSinkAnswer).fb = s.fb := by
  unfold State.afterSinkAnswer; split <;> rfl
@[simp] theorem State.afterSinkAnswer_fifo (s : State) : (s.afterSinkAnswer).fifo = s.fifo := by
  unfold State.afterSinkAnswer; split <;> rfl
@[simp] theorem State.afterSinkAnswer_pkt (s : State) : (s.afterSinkAnswer).pkt = s.pkt := by
  unfold State.afterSinkAnswer; split <;> rfl
@[simp] theorem State.afterSinkAnswer_engine (s : State) : (s.afterSinkAnswer).engine = s.engine := by
  unfold State.afterSinkAnswer; split <;> rfl
@[simp] theorem State.afterSinkAnswer_err (s : State) : (s.afterSinkAnswer).err = s.err := by
  unfold State.afterSinkAnswer; split <;> rfl
@[simp] theorem State.afterSinkAnswer_ecode (s : State) : (s.afterSinkAnswer).ecode = s.ecode := by
  unfold State.afterSinkAnswer; split <;> rfl
@[simp] theorem State.afterSinkAnswer_drop (s : State) : (s.afterSinkAnswer).drop = s.drop := by
  unfold State.afterSinkAnswer; split <;> rfl
@[simp] theorem State.afterSinkAnswer_result (s : State) : (s.afterSinkAnswer).result = s.result := by
  unfold State.afterSinkAnswer; split <;> rfl
@[simp] theorem State.afterSinkAnswer_csp (s : State) : (s.afterSinkAnswer).csp = s.csp := by
  unfold State.afterSinkAnswer; split <;> rfl
@[simp] theorem State.afterSinkAnswer_epkt (s : State) : (s.afterSinkAnswer).epkt = s.epkt := by
  unfold State.afterSinkAnswer; split <;> rfl
@[simp] theorem State.afterSinkAnswer_cfg (s : State) : (s.afterSinkAnswer).cfg = s.cfg := by
  unfold State.afterSinkAnswer; split <;> rfl
@[simp] theorem State.afterSinkAnswer_obs (s : State) : (s.afterSinkAnswer).obs = s.obs := by
  unfold State.afterSinkAnswer; split <;> rfl

@[simp] theorem State.afterFontOk_fb (s : State) (font : Word) (size : Nat) : (s.afterFontOk font size).fb = s.fb := by
  unfold State.afterFontOk; split <;> rfl
@[simp] theorem State.afterFontOk_fifo (s : State) (font : Word) (size : Nat) : (s.afterFontOk font size).fifo = s.fifo := by
  unfold State.afterFontOk; split <;> rfl
@[simp] theorem State.afterFontOk_pkt (s : State) (font : Word) (size : Nat) : (s.afterFontOk font size).pkt = s.pkt := by
  unfold State.afterFontOk; split <;> rfl
@[simp] theorem State.afterFontOk_engine (s : State) (font : Word) (size : Nat) : (s.afterFontOk font size).engine = s.engine := by
  unfold State.afterFontOk; split <;> rfl
@[simp] theorem State.afterFontOk_err (s : State) (font : Word) (size : Nat) : (s.afterFontOk font size).err = s.err := by
  unfold State.afterFontOk; split <;> rfl
@[simp] theorem State.afterFontOk_ecode (s : State) (font : Word) (size : Nat) : (s.afterFontOk font size).ecode = s.ecode := by
  unfold State.afterFontOk; split <;> rfl
@[simp] theorem State.afterFontOk_drop (s : State) (font : Word) (size : Nat) : (s.afterFontOk font size).drop = s.drop := by
  unfold State.afterFontOk; split <;> rfl
@[simp] theorem State.afterFontOk_result (s : State) (font : Word) (size : Nat) : (s.afterFontOk font size).result = s.result := by
  unfold State.afterFontOk; split <;> rfl
@[simp] theorem State.afterFontOk_csp (s : State) (font : Word) (size : Nat) : (s.afterFontOk font size).csp = s.csp := by
  unfold State.afterFontOk; split <;> rfl
@[simp] theorem State.afterFontOk_epkt (s : State) (font : Word) (size : Nat) : (s.afterFontOk font size).epkt = s.epkt := by
  unfold State.afterFontOk; split <;> rfl
@[simp] theorem State.afterFontOk_cfg (s : State) (font : Word) (size : Nat) : (s.afterFontOk font size).cfg = s.cfg := by
  unfold State.afterFontOk; split <;> rfl
@[simp] theorem State.afterFontOk_obs (s : State) (font : Word) (size : Nat) : (s.afterFontOk font size).obs = { s.obs with asked := s.obs.asked ++ [.fontOk font size] } := by
  unfold State.afterFontOk; split <;> rfl

@[simp] theorem State.afterDecode_fb (s : State) (handle : Word) : (s.afterDecode handle).fb = s.fb := by
  unfold State.afterDecode; split <;> rfl
@[simp] theorem State.afterDecode_fifo (s : State) (handle : Word) : (s.afterDecode handle).fifo = s.fifo := by
  unfold State.afterDecode; split <;> rfl
@[simp] theorem State.afterDecode_pkt (s : State) (handle : Word) : (s.afterDecode handle).pkt = s.pkt := by
  unfold State.afterDecode; split <;> rfl
@[simp] theorem State.afterDecode_engine (s : State) (handle : Word) : (s.afterDecode handle).engine = s.engine := by
  unfold State.afterDecode; split <;> rfl
@[simp] theorem State.afterDecode_err (s : State) (handle : Word) : (s.afterDecode handle).err = s.err := by
  unfold State.afterDecode; split <;> rfl
@[simp] theorem State.afterDecode_ecode (s : State) (handle : Word) : (s.afterDecode handle).ecode = s.ecode := by
  unfold State.afterDecode; split <;> rfl
@[simp] theorem State.afterDecode_drop (s : State) (handle : Word) : (s.afterDecode handle).drop = s.drop := by
  unfold State.afterDecode; split <;> rfl
@[simp] theorem State.afterDecode_result (s : State) (handle : Word) : (s.afterDecode handle).result = s.result := by
  unfold State.afterDecode; split <;> rfl
@[simp] theorem State.afterDecode_csp (s : State) (handle : Word) : (s.afterDecode handle).csp = s.csp := by
  unfold State.afterDecode; split <;> rfl
@[simp] theorem State.afterDecode_epkt (s : State) (handle : Word) : (s.afterDecode handle).epkt = s.epkt := by
  unfold State.afterDecode; split <;> rfl
@[simp] theorem State.afterDecode_cfg (s : State) (handle : Word) : (s.afterDecode handle).cfg = s.cfg := by
  unfold State.afterDecode; split <;> rfl
@[simp] theorem State.afterDecode_obs (s : State) (handle : Word) : (s.afterDecode handle).obs = { s.obs with asked := s.obs.asked ++ [.decode handle] } := by
  unfold State.afterDecode; split <;> rfl

@[simp] theorem State.emit_fb (s : State) (tag : SinkTag) (b : Byte) : (s.emit tag b).fb = s.fb := by
  unfold State.emit State.afterSinkAnswer; split <;> rfl
@[simp] theorem State.emit_fifo (s : State) (tag : SinkTag) (b : Byte) : (s.emit tag b).fifo = s.fifo := by
  unfold State.emit State.afterSinkAnswer; split <;> rfl
@[simp] theorem State.emit_pkt (s : State) (tag : SinkTag) (b : Byte) : (s.emit tag b).pkt = s.pkt := by
  unfold State.emit State.afterSinkAnswer; split <;> rfl
@[simp] theorem State.emit_engine (s : State) (tag : SinkTag) (b : Byte) : (s.emit tag b).engine = s.engine := by
  unfold State.emit State.afterSinkAnswer; split <;> rfl
@[simp] theorem State.emit_err (s : State) (tag : SinkTag) (b : Byte) : (s.emit tag b).err = s.err := by
  unfold State.emit State.afterSinkAnswer; split <;> rfl
@[simp] theorem State.emit_ecode (s : State) (tag : SinkTag) (b : Byte) : (s.emit tag b).ecode = s.ecode := by
  unfold State.emit State.afterSinkAnswer; split <;> rfl
@[simp] theorem State.emit_drop (s : State) (tag : SinkTag) (b : Byte) : (s.emit tag b).drop = s.drop := by
  unfold State.emit State.afterSinkAnswer; split <;> rfl
@[simp] theorem State.emit_result (s : State) (tag : SinkTag) (b : Byte) : (s.emit tag b).result = s.result := by
  unfold State.emit State.afterSinkAnswer; split <;> rfl
@[simp] theorem State.emit_csp (s : State) (tag : SinkTag) (b : Byte) : (s.emit tag b).csp = s.csp := by
  unfold State.emit State.afterSinkAnswer; split <;> rfl
@[simp] theorem State.emit_epkt (s : State) (tag : SinkTag) (b : Byte) : (s.emit tag b).epkt = s.epkt := by
  unfold State.emit State.afterSinkAnswer; split <;> rfl
@[simp] theorem State.emit_cfg (s : State) (tag : SinkTag) (b : Byte) : (s.emit tag b).cfg = s.cfg := by
  unfold State.emit State.afterSinkAnswer; split <;> rfl
@[simp] theorem State.emit_obs (s : State) (tag : SinkTag) (b : Byte) : (s.emit tag b).obs = { s.obs with sink := s.obs.sink ++ [⟨tag, b, s.sinkAnswer⟩] } := by
  unfold State.emit State.afterSinkAnswer; split <;> rfl

end Sys2Proof.Machine
end

