-- ==== Sys2Proof/Laws/Streamer.lean ====
section
/-! SUPPORT. What a list of sink transactions does (44_streamer.md R190 to R194, R198): to the block nothing, to the sink
log exactly the transactions issued, in order. -/

namespace Sys2Proof.Machine

/-- Issuing transactions changes only the sink's planned answers, the count of free values and the sink log. -/
theorem emitAll_frame (txns : List (SinkTag × Byte)) (s : State) :
    ∃ answers draws sink, (emitAll txns s).1 =
      { s with env := { s.env with sinkAnswers := answers, draws := draws }, obs := { s.obs with sink := sink } } := by
  induction txns generalizing s with
  | nil => exact ⟨s.env.sinkAnswers, s.env.draws, s.obs.sink, rfl⟩
  | cons t rest ih =>
    have hemit : ∃ answers draws, s.emit t.1 t.2 =
        { s with env := { s.env with sinkAnswers := answers, draws := draws },
                 obs := { s.obs with sink := s.obs.sink ++ [⟨t.1, t.2, s.sinkAnswer⟩] } } := by
      unfold State.emit State.afterSinkAnswer
      split
      · exact ⟨_, _, rfl⟩
      · exact ⟨_, _, rfl⟩
    obtain ⟨answers, draws, hemit⟩ := hemit
    simp only [emitAll]
    split
    · obtain ⟨answers', draws', sink, h⟩ := ih (s.emit t.1 t.2)
      refine ⟨answers', draws', sink, ?_⟩
      rw [h, hemit]
    · exact ⟨_, _, _, hemit⟩

/-- What is appended to the sink log is a prefix of the transactions, every answer OK but perhaps the last (R191, R192). -/
theorem emitAll_log (txns : List (SinkTag × Byte)) (s : State) :
    ∃ new, (emitAll txns s).1.obs.sink = s.obs.sink ++ new ∧ new.map (fun t => (t.tag, t.byte)) <+: txns := by
  induction txns generalizing s with
  | nil => exact ⟨[], by simp [emitAll]⟩
  | cons t rest ih =>
    simp only [emitAll]
    split
    · obtain ⟨new, h1, h2⟩ := ih (s.emit t.1 t.2)
      refine ⟨⟨t.1, t.2, s.sinkAnswer⟩ :: new, ?_, ?_⟩
      · rw [h1]; simp
      · simpa using h2
    · exact ⟨[⟨t.1, t.2, s.sinkAnswer⟩], by simp, by simp⟩

/-- The answers logged: all OK when every transaction was issued, all OK but the last when one failed (R192). -/
theorem emitAll_answers (txns : List (SinkTag × Byte)) (s : State) :
    ((emitAll txns s).2 = true → ∃ new, (emitAll txns s).1.obs.sink = s.obs.sink ++ new ∧ ∀ x ∈ new, x.ok = true) ∧
    ((emitAll txns s).2 = false → ∃ new last, (emitAll txns s).1.obs.sink = s.obs.sink ++ new ++ [last] ∧
      last.ok = false ∧ ∀ x ∈ new, x.ok = true) := by
  induction txns generalizing s with
  | nil => exact ⟨fun _ => ⟨[], by simp [emitAll]⟩, fun h => by simp [emitAll] at h⟩
  | cons t rest ih =>
    obtain ⟨h1, h2⟩ := ih (s.emit t.1 t.2)
    by_cases ha : s.sinkAnswer = true
    · simp only [emitAll, ha, if_true]
      refine ⟨fun h => ?_, fun h => ?_⟩
      · obtain ⟨new, hn, hok⟩ := h1 h
        exact ⟨⟨t.1, t.2, true⟩ :: new, by rw [hn]; simp [ha], by simpa using hok⟩
      · obtain ⟨new, last, hn, hl, hok⟩ := h2 h
        exact ⟨⟨t.1, t.2, true⟩ :: new, last, by rw [hn]; simp [ha], hl, by simpa using hok⟩
    · simp only [emitAll, ha]
      refine ⟨fun h => by simp at h, fun _ => ⟨[], ⟨t.1, t.2, s.sinkAnswer⟩, by simp, by simpa using ha, by simp⟩⟩

/-- A failed list has issued its transactions in order up to and including the one that failed, the last logged (R192, R198). -/
theorem emitAll_failed (txns : List (SinkTag × Byte)) (s : State) (h : (emitAll txns s).2 = false) :
    ∃ new last, (emitAll txns s).1.obs.sink = s.obs.sink ++ new ++ [last] ∧ last.ok = false ∧ (∀ x ∈ new, x.ok = true) ∧
      (new ++ [last]).map (fun t => (t.tag, t.byte)) = txns.take (new.length + 1) := by
  obtain ⟨new, last, hn, hl, hok⟩ := (emitAll_answers txns s).2 h
  obtain ⟨new', hn', hp⟩ := emitAll_log txns s
  have he : new ++ [last] = new' := by
    rw [hn, List.append_assoc] at hn'
    exact List.append_cancel_left hn'
  refine ⟨new, last, hn, hl, hok, ?_⟩
  rw [he, List.prefix_iff_eq_take.mp hp, ← he]
  simp

/-- With planned answers OK for all of them, every transaction is issued, and the answers are used up (R193, R197). -/
theorem emitAll_ok (txns : List (SinkTag × Byte)) (s : State) (rest : List Bool)
    (h : s.env.sinkAnswers = List.replicate txns.length true ++ rest) :
    emitAll txns s =
      ({ s with env := { s.env with sinkAnswers := rest },
                obs := { s.obs with sink := s.obs.sink ++ txns.map fun t => ⟨t.1, t.2, true⟩ } }, true) := by
  induction txns generalizing s with
  | nil =>
    obtain ⟨fb, fifo, pkt, engine, err, ecode, drop, result, csp, epkt, cfg, ⟨turns, sa, fa, da, dr⟩, ⟨sk, rd, ak⟩⟩ := s
    simp only [List.length_nil, List.replicate_zero, List.nil_append] at h
    simp [emitAll, h]
  | cons t txns ih =>
    have ha : s.env.sinkAnswers = true :: (List.replicate txns.length true ++ rest) := by
      rw [h]; simp [List.replicate_succ]
    have hans : s.sinkAnswer = true := by simp [State.sinkAnswer, ha]
    have henv : (s.emit t.1 t.2).env = { s.env with sinkAnswers := List.replicate txns.length true ++ rest } := by
      simp [State.emit, State.afterSinkAnswer, ha]
    simp only [emitAll, hans, if_true]
    rw [ih (s.emit t.1 t.2) (by rw [henv])]
    simp only [henv, State.emit_obs, hans]
    simp [State.emit, State.afterSinkAnswer, ha]

/-- With planned answers OK for the first k and FAIL for the next, the first k + 1 are issued and no more (R192, R198). -/
theorem emitAll_fail (txns : List (SinkTag × Byte)) (s : State) (k : Nat) (rest : List Bool) (hk : k < txns.length)
    (h : s.env.sinkAnswers = List.replicate k true ++ false :: rest) :
    emitAll txns s =
      ({ s with env := { s.env with sinkAnswers := rest },
                obs := { s.obs with sink := s.obs.sink ++ (txns.take k).map (fun t => ⟨t.1, t.2, true⟩)
                  ++ [⟨txns[k].1, txns[k].2, false⟩] } }, false) := by
  induction k generalizing s txns with
  | zero =>
    cases txns with
    | nil => simp at hk
    | cons t txns =>
      simp only [List.replicate_zero, List.nil_append] at h
      simp [emitAll, State.sinkAnswer, State.emit, State.afterSinkAnswer, h]
  | succ k ih =>
    cases txns with
    | nil => simp at hk
    | cons t txns =>
      have ha : s.env.sinkAnswers = true :: (List.replicate k true ++ false :: rest) := by
        rw [h]; simp [List.replicate_succ]
      have hans : s.sinkAnswer = true := by simp [State.sinkAnswer, ha]
      have henv : (s.emit t.1 t.2).env = { s.env with sinkAnswers := List.replicate k true ++ false :: rest } := by
        simp [State.emit, State.afterSinkAnswer, ha]
      simp only [emitAll, hans, if_true]
      rw [ih txns (s.emit t.1 t.2) (by simpa using hk) (by rw [henv])]
      simp only [henv, State.emit_obs, hans]
      simp [State.emit, State.afterSinkAnswer, ha]

theorem pageTxns_length (cfg : Config.Params) (fb : Memory) (p : Nat) : (pageTxns cfg fb p).length = 131 := by
  simp [pageTxns]

/-- A FLUSH has 8 × 131 = 1048 transactions (R194). -/
theorem flushTxns_length (cfg : Config.Params) (fb : Memory) : (flushTxns cfg fb).length = 1048 := by
  simp [flushTxns, pageTxns_length, List.range_succ]

end Sys2Proof.Machine
end

