-- ==== Sys2Proof/Laws/Text.lean ====
section
/-! SUPPORT. What the parts of the text layout do (43_text.md R162 to R173). -/

namespace Sys2Proof.Machine

/-! ## Transfer -/

theorem Memory.transfer_list {m : Memory} (h : m.wf = true) (canvas : Memory) (is : List Nat) (hi : ∀ i ∈ is, i < 1024) :
    (is.foldl (fun m i => m.write i (m.read i ||| canvas.read i)) m).wf = true ∧
      ∀ a, (is.foldl (fun m i => m.write i (m.read i ||| canvas.read i)) m).read a =
        if a ∈ is then m.read a ||| canvas.read a else m.read a := by
  induction is generalizing m with
  | nil => exact ⟨h, fun a => by simp⟩
  | cons i rest ih =>
    have hlt := hi i (List.mem_cons_self ..)
    obtain ⟨h1, h2⟩ := ih (Memory.wf_write h hlt (m.read i ||| canvas.read i)) fun j hj => hi j (List.mem_cons_of_mem _ hj)
    refine ⟨h1, fun a => ?_⟩
    simp only [List.foldl_cons]
    rw [h2 a, Memory.read_write h]
    by_cases ha : a = i
    · subst ha
      by_cases hr : a ∈ rest
      · simp [hr, BitVec.or_assoc]
      · simp [hr]
    · simp [ha]

theorem Memory.wf_transfer {m : Memory} (h : m.wf = true) (canvas : Memory) : (m.transfer canvas).wf = true :=
  (Memory.transfer_list h canvas _ fun _ hi => List.mem_range.mp hi).1

/-- Transfer ORs each canvas byte into its framebuffer byte (R170). -/
theorem Memory.read_transfer {m : Memory} (h : m.wf = true) (canvas : Memory) {a : Nat} (ha : a < 1024) :
    (m.transfer canvas).read a = m.read a ||| canvas.read a := by
  have := (Memory.transfer_list h canvas (List.range 1024) fun _ hi => List.mem_range.mp hi).2 a
  rw [if_pos (List.mem_range.mpr ha)] at this
  exact this

/-- Transfer lights the lit canvas pixels and changes no other (R170). -/
theorem Memory.pix_transfer {m : Memory} (h : m.wf = true) (canvas : Memory) {u v : Int} (huv : inBounds u v = true) :
    (m.transfer canvas).pix u v = (m.pix u v || canvas.pix u v) := by
  simp only [Memory.pix, Memory.read_transfer h canvas (pixIndex_lt huv), BitVec.getLsbD_or]

/-! ## Rendering -/

theorem renderAt_wf {fp : FontProvider} {str : List Byte} {l : Layout} (h : l.canvas.wf = true) :
    (renderAt fp str l).canvas.wf = true := Memory.wf_setPixels h _ _

/-- Render lights the string's in-frame points and clears none (R169). -/
theorem renderAt_pix {fp : FontProvider} {str : List Byte} {l : Layout} (h : l.canvas.wf = true) {u v : Int}
    (huv : inBounds u v = true) :
    (renderAt fp str l).canvas.pix u v = (l.canvas.pix u v || decide ((u, v) ∈ fp.render str l.cx l.cy)) := by
  simp only [renderAt, Memory.pix_setPixels h _ _ huv]
  by_cases hm : (u, v) ∈ fp.render str l.cx l.cy <;> simp [hm]

@[simp] theorem renderAt_cx (fp : FontProvider) (str : List Byte) (l : Layout) : (renderAt fp str l).cx = l.cx := rfl

@[simp] theorem renderAt_cy (fp : FontProvider) (str : List Byte) (l : Layout) : (renderAt fp str l).cy = l.cy := rfl

@[simp] theorem placeToken_cx (fp : FontProvider) (tok : List Byte) (l : Layout) :
    (placeToken fp tok l).cx = l.cx + fp.textW tok + fp.textW [0x20] := rfl

@[simp] theorem placeToken_cy (fp : FontProvider) (tok : List Byte) (l : Layout) : (placeToken fp tok l).cy = l.cy := rfl

@[simp] theorem placeToken_canvas (fp : FontProvider) (tok : List Byte) (l : Layout) :
    (placeToken fp tok l).canvas = (renderAt fp tok l).canvas := rfl

@[simp] theorem placeFragment_cx (fp : FontProvider) (x : Int) (size k : Nat) (tok : List Byte) (l : Layout) :
    (placeFragment fp x size k tok l).cx = x := rfl

@[simp] theorem placeFragment_cy (fp : FontProvider) (x : Int) (size k : Nat) (tok : List Byte) (l : Layout) :
    (placeFragment fp x size k tok l).cy = l.cy + size := rfl

@[simp] theorem placeFragment_canvas (fp : FontProvider) (x : Int) (size k : Nat) (tok : List Byte) (l : Layout) :
    (placeFragment fp x size k tok l).canvas = (renderAt fp (tok.take k ++ [hyphen]) l).canvas := rfl

/-- The canvas stays in canonical form through the layout. -/
theorem layoutLoop_wf {fp : FontProvider} {x : Int} {wrap size : Nat} (n : Nat) (pending : List (List Byte)) {l : Layout}
    (h : l.canvas.wf = true) : (layoutLoop fp x wrap size n pending l).canvas.wf = true := by
  induction n generalizing pending l with
  | zero => cases pending <;> exact h
  | succ n ih =>
    cases pending with
    | nil => exact h
    | cons tok pending =>
      simp only [layoutLoop]
      split
      · exact ih _ (renderAt_wf h)
      · exact ih _ (renderAt_wf h)

theorem layoutText_wf (fp : FontProvider) (x y : Int) (wrap size : Nat) (text : List Byte) :
    (layoutText fp x y wrap size text).canvas.wf = true := layoutLoop_wf _ _ rfl

/-! ## Tokens and fragments -/

theorem tokens_ne_nil (text : List Byte) : tokens text ≠ [] := by
  cases text with
  | nil => simp [tokens]
  | cons b rest =>
    simp only [tokens]
    split
    · simp
    · split <;> simp

/-- The shrink loop keeps at most one byte less than it began with, and never goes below one (R164). -/
theorem shrinkFrom_bounds (f : Nat → Bool) (n : Nat) (hn : 2 ≤ n) : 1 ≤ shrinkFrom f n ∧ shrinkFrom f n < n := by
  induction n with
  | zero => omega
  | succ n ih =>
    match n, ih, hn with
    | 0, _, hn => omega
    | k + 1, ih, _ =>
      simp only [shrinkFrom]
      split
      · omega
      · by_cases hk : 2 ≤ k + 1
        · have := ih hk; omega
        · have : k = 0 := by omega
          subst this; simp [shrinkFrom]

end Sys2Proof.Machine
end

