-- ==== Sys2Proof/Laws/Engine.lean ====
section
/-! SUPPORT. What the shared operations of the engine and of the host port can do, each said once: a question to the
outside, a streamed packet, a command, the engine's move, a host access, a step. -/

namespace Sys2Proof.Machine

/-! ## Questions to the outside -/

theorem afterDecode_frame (s : State) (h : Word) : ∃ answers draws, s.afterDecode h =
    { s with env := { s.env with decodeAnswers := answers, draws := draws }
             obs := { s.obs with asked := s.obs.asked ++ [.decode h] } } := by
  unfold State.afterDecode
  simp only
  split
  · exact ⟨_, s.env.draws, rfl⟩
  · exact ⟨s.env.decodeAnswers, s.env.draws + 1, rfl⟩

theorem afterFontOk_frame (s : State) (font : Word) (size : Nat) : ∃ answers draws, s.afterFontOk font size =
    { s with env := { s.env with fontAnswers := answers, draws := draws }
             obs := { s.obs with asked := s.obs.asked ++ [.fontOk font size] } } := by
  unfold State.afterFontOk
  simp only
  split
  · exact ⟨_, s.env.draws, rfl⟩
  · exact ⟨s.env.fontAnswers, s.env.draws + 1, rfl⟩

/-- A streamed packet retires or raises TRANSPORT_ERROR on the state its transactions leave. -/
theorem streamPacket_cases (txns : List (SinkTag × Byte)) (s : State) :
    ((emitAll txns s).2 = true ∧ streamPacket txns s = (emitAll txns s).1.retire 1) ∨
    ((emitAll txns s).2 = false ∧ streamPacket txns s = (emitAll txns s).1.raiseError 1 .transportError) := by
  rcases h : emitAll txns s with ⟨u, ok⟩
  cases ok
  · exact .inr ⟨rfl, by simp [streamPacket, h]⟩
  · exact .inl ⟨rfl, by simp [streamPacket, h]⟩

/-! ## A command -/

/-- The transactions of a command, if it streams any. -/
def IsStream (i : Instr) (s : State) (txns : List (SinkTag × Byte)) : Prop :=
  (i = .flush ∧ txns = flushTxns s.cfg s.fb) ∨ (i = .init ∧ txns = initTxns s.cfg)

/-- What a command has asked of the outside before it ends: u differs from s in the answers used and in what was seen. -/
def Asked (i : Instr) (s u : State) : Prop :=
  (∃ (env : Env) (obs : Observed), u =
    { s with env := { env with turns := s.env.turns }, obs := { obs with reads := s.obs.reads } }) ∧
  (u.obs.sink = s.obs.sink ∨ ∃ txns, IsStream i s txns ∧ u = (emitAll txns s).1)

/-- A command that streams nothing, said of a state that differs from s only outside the block. -/
theorem asked_self (i : Instr) (s : State) : Asked i s s := ⟨⟨s.env, s.obs, rfl⟩, .inl rfl⟩

theorem asked_decode (i : Instr) (s : State) (h : Word) : Asked i s (s.afterDecode h) := by
  obtain ⟨a, d, hf⟩ := afterDecode_frame s h
  rw [hf]
  exact ⟨⟨{ s.env with decodeAnswers := a, draws := d }, { s.obs with asked := s.obs.asked ++ [.decode h] }, rfl⟩, .inl rfl⟩

theorem asked_font (i : Instr) (s : State) (font : Word) (size : Nat) : Asked i s (s.afterFontOk font size) := by
  obtain ⟨a, d, hf⟩ := afterFontOk_frame s font size
  rw [hf]
  exact ⟨⟨{ s.env with fontAnswers := a, draws := d }, { s.obs with asked := s.obs.asked ++ [.fontOk font size] }, rfl⟩,
    .inl rfl⟩

theorem asked_stream (i : Instr) (s : State) (txns : List (SinkTag × Byte)) (h : IsStream i s txns) :
    Asked i s (emitAll txns s).1 := by
  obtain ⟨a, d, k, hf⟩ := emitAll_frame txns s
  refine ⟨?_, .inr ⟨txns, h, rfl⟩⟩
  rw [hf]
  exact ⟨{ s.env with sinkAnswers := a, draws := d }, { s.obs with sink := k }, rfl⟩

/-- A command that ended without error: a new framebuffer and a new RESULT, each only from the commands that write it. -/
def Retired (i : Instr) (s u t : State) : Prop :=
  ∃ (fb : Memory) (r : Word), t = ((u.setFb fb).setResult r).retire i.packetWords ∧
    (s.fb.wf = true → fb.wf = true) ∧
    (fb ≠ s.fb → i.opcode ∈ [.setPixel, .clear, .drawBox, .drawCircle, .drawLine, .drawImage, .drawText]) ∧
    (r ≠ s.result → i.opcode ∈ [.getPixel, .drawText])

/-- A command that ended in an error (R211): the cause, and the one opcode or the two commands that can raise it. -/
def Errored (i : Instr) (s u t : State) : Prop :=
  ∃ c : ErrorCode, t = u.raiseError i.packetWords c ∧
    ((c = .decodeError ∧ i.opcode = .drawImage ∧ u.obs.sink = s.obs.sink) ∨
     (c = .fontError ∧ i.opcode = .drawText ∧ u.obs.sink = s.obs.sink) ∨
     (c = .transportError ∧ ∃ txns, IsStream i s txns ∧ u = (emitAll txns s).1 ∧ (emitAll txns s).2 = false))

/-- A framebuffer command: only FB changes. -/
theorem retired_fb (i : Instr) (s u : State) (fb : Memory) (hu : u.result = s.result)
    (hwf : s.fb.wf = true → fb.wf = true)
    (hi : i.opcode ∈ [.setPixel, .clear, .drawBox, .drawCircle, .drawLine, .drawImage, .drawText]) :
    Retired i s u ((u.setFb fb).retire i.packetWords) :=
  ⟨fb, s.result, by rw [← hu]; rfl, hwf, fun _ => hi, fun h => absurd rfl h⟩

/-- A command that answers in RESULT: FB stays. -/
theorem retired_result (i : Instr) (s u : State) (r : Word) (hu : u.fb = s.fb) (hi : i.opcode ∈ [.getPixel, .drawText]) :
    Retired i s u ((u.setResult r).retire i.packetWords) :=
  ⟨s.fb, r, by rw [← hu]; rfl, id, fun h => absurd rfl h, fun _ => hi⟩

theorem streamed (i : Instr) (s : State) (txns : List (SinkTag × Byte)) (h : IsStream i s txns) (hn : i.packetWords = 1) :
    Asked i s (emitAll txns s).1 ∧
      (Retired i s (emitAll txns s).1 (streamPacket txns s) ∨ Errored i s (emitAll txns s).1 (streamPacket txns s)) := by
  refine ⟨asked_stream i s txns h, ?_⟩
  rcases streamPacket_cases txns s with ⟨h2, h3⟩ | ⟨h2, h3⟩
  · left
    rw [h3]
    obtain ⟨a, d, k, hf⟩ := emitAll_frame txns s
    exact ⟨s.fb, s.result, by rw [hn, hf]; rfl, id, fun h => absurd rfl h, fun h => absurd rfl h⟩
  · right
    rw [h3]
    exact ⟨.transportError, by rw [hn], .inr (.inr ⟨rfl, txns, h, rfl, h2⟩)⟩

/-- Everything a command can do: it answers a next state, after asking the outside, by completing or by an error. -/
theorem exec_cases (i : Instr) (s : State) :
    ∃ u t : State, exec i s = .next t ∧ Asked i s u ∧ (Retired i s u t ∨ Errored i s u t) := by
  cases i with
  | setPixel x y on =>
    exact ⟨s, _, rfl, asked_self _ s,
      .inl (retired_fb (.setPixel x y on) s s _ rfl (fun h => Memory.wf_setPixel h ..) (by simp [Instr.opcode]))⟩
  | clear => exact ⟨s, _, rfl, asked_self _ s, .inl (retired_fb .clear s s _ rfl (fun _ => rfl) (by simp [Instr.opcode]))⟩
  | flush => exact ⟨_, _, rfl, streamed .flush s _ (.inl ⟨rfl, rfl⟩) rfl⟩
  | drawBox x1 y1 x2 y2 on =>
    exact ⟨s, _, rfl, asked_self _ s,
      .inl (retired_fb (.drawBox x1 y1 x2 y2 on) s s _ rfl (fun h => Memory.wf_fillBox h ..) (by simp [Instr.opcode]))⟩
  | drawCircle cx cy diam on =>
    exact ⟨s, _, rfl, asked_self _ s,
      .inl (retired_fb (.drawCircle cx cy diam on) s s _ rfl (fun h => Memory.wf_disk h ..) (by simp [Instr.opcode]))⟩
  | drawLine x1 y1 x2 y2 on thick =>
    exact ⟨s, _, rfl, asked_self _ s, .inl (retired_fb (.drawLine x1 y1 x2 y2 on thick) s s _ rfl
      (fun h => Memory.wf_stampDisks h ..) (by simp [Instr.opcode]))⟩
  | drawImage h xo yo scale =>
    obtain ⟨a, d, hf⟩ := afterDecode_frame s h
    have hsink : (s.afterDecode h).obs.sink = s.obs.sink := by rw [hf]
    refine ⟨s.afterDecode h, _, rfl, asked_decode _ s h, ?_⟩
    rcases s.decodeAnswer h with _ | img
    · exact .inr ⟨.decodeError, rfl, .inl ⟨rfl, rfl, hsink⟩⟩
    · exact .inl (retired_fb (.drawImage h xo yo scale) s (s.afterDecode h) _ (by rw [hf])
        (fun h => Memory.wf_composite h ..) (by simp [Instr.opcode]))
  | drawText x y wrap size font g text =>
    simp only [exec, execDrawText, drawTextWith]
    split
    · exact ⟨s, _, rfl, asked_self _ s,
        .inl (retired_result (.drawText x y wrap size font g text) s s 0 rfl (by simp [Instr.opcode]))⟩
    · obtain ⟨a, d, hf⟩ := afterFontOk_frame s font size
      have hsink : (s.afterFontOk font size).obs.sink = s.obs.sink := by rw [hf]
      have hfb : (s.afterFontOk font size).fb = s.fb := by rw [hf]
      refine ⟨s.afterFontOk font size, _, rfl, asked_font _ s font size, ?_⟩
      split
      · left
        cases g with
        | true =>
          exact retired_result (.drawText x y wrap size font true text) s (s.afterFontOk font size) _ hfb
            (by simp [Instr.opcode])
        | false =>
          exact ⟨s.fb.transfer (layoutText (fontProvider font size) x y wrap size text).canvas,
            layoutHeight y (layoutText (fontProvider font size) x y wrap size text),
            by simp only [hf, State.setResult, State.setFb, State.retire, Instr.packetWords, Bool.false_eq_true, if_false],
            fun h => Memory.wf_transfer h _, by simp [Instr.opcode], by simp [Instr.opcode]⟩
      · exact .inr ⟨.fontError, rfl, .inr (.inl ⟨rfl, rfl, hsink⟩)⟩
  | init => exact ⟨_, _, rfl, streamed .init s _ (.inr ⟨rfl, rfl⟩) rfl⟩
  | getPixel x y =>
    exact ⟨s, _, rfl, asked_self _ s, .inl (retired_result (.getPixel x y) s s _ rfl (by simp [Instr.opcode]))⟩

/-! ## The engine's move -/

theorem fetchWord_frame (s : State) : ∃ fifo pkt engine, fetchWord s =
    { s with fifo := fifo, pkt := pkt, engine := engine } := by
  unfold fetchWord
  split
  · exact ⟨s.fifo, s.pkt, s.engine, rfl⟩
  · exact ⟨_, _, _, rfl⟩

/-- Everything the engine's move can be (R40, R86). -/
theorem engineStep_cases (s : State) :
    (s.engine = .halted ∧ engineStep s = .next s) ∨
    (s.engine ≠ .halted ∧ ∃ i n, decode s.pkt = .ok i n ∧ engineStep s = exec i { s with engine := .exec }) ∨
    (s.engine ≠ .halted ∧ ∃ c n, decode s.pkt = .bad c n ∧
      engineStep s = .next (State.raiseError n c { s with engine := .exec })) ∨
    (s.engine = .exec ∧ packetComplete s.pkt = false ∧ engineStep s = .fault .execWithoutPacket) ∨
    (s.engine = .idle ∧ packetComplete s.pkt = false ∧ engineStep s = .next (fetchWord s)) := by
  rcases he : s.engine with _ | _ | _
  · by_cases hc : packetComplete s.pkt = true
    · simp only [engineStep, he, hc, if_true, runPacket]
      rcases hx : decode s.pkt with ⟨i, n⟩ | ⟨c, n⟩ | _
      · exact .inr (.inl ⟨by simp, i, n, rfl, rfl⟩)
      · exact .inr (.inr (.inl ⟨by simp, c, n, rfl, rfl⟩))
      · rw [decode_incomplete hx] at hc; simp at hc
    · exact .inr (.inr (.inr (.inr ⟨rfl, by simpa using hc, by simp [engineStep, he, hc]⟩)))
  · have e : { s with engine := .exec } = s := by rw [← he]
    rw [e]
    simp only [engineStep, he, runPacket]
    rcases hx : decode s.pkt with ⟨i, n⟩ | ⟨c, n⟩ | _
    · exact .inr (.inl ⟨by simp, i, n, rfl, rfl⟩)
    · exact .inr (.inr (.inl ⟨by simp, c, n, rfl, rfl⟩))
    · exact .inr (.inr (.inr (.inl ⟨trivial, decode_incomplete hx, rfl⟩)))
  · exact .inl ⟨rfl, by simp [engineStep, he]⟩

/-! ## A host access -/

theorem hostRead_frame (offset : BitVec 11) (s : State) : ∃ env reads, hostRead offset s =
    { s with env := env, obs := { s.obs with reads := reads } } := by
  unfold hostRead
  simp only
  split
  · exact ⟨_, _, rfl⟩
  · exact ⟨s.env, _, rfl⟩

/-- A host write is a reset, or changes at most the FIFO, the engine state, ERR, ECODE and DROP. -/
theorem hostWrite_cases (offset : BitVec 11) (w : Word) (s : State) :
    (regAt offset = .ctrl ∧ w.getLsbD 0 = true ∧ hostWrite offset w s = hostReset s) ∨
    ∃ fifo engine err ecode drop, hostWrite offset w s =
      { s with fifo := fifo, engine := engine, err := err, ecode := ecode, drop := drop } := by
  unfold hostWrite
  split
  · right
    unfold statusWrite State.resume
    simp only
    split <;> split <;> exact ⟨_, _, _, _, _, rfl⟩
  · by_cases h : w.getLsbD 0 = true
    · left; simp only [h, if_true]; exact ⟨by assumption, trivial, trivial⟩
    · right; simp only [h]; exact ⟨_, _, _, _, _, rfl⟩
  · right
    unfold cmdWrite
    split <;> exact ⟨_, _, _, _, _, rfl⟩
  all_goals exact .inr ⟨s.fifo, s.engine, s.err, s.ecode, s.drop, rfl⟩

/-- What an aborted packet has done to the outside: answers used and things seen, and nothing of the block. -/
theorem abortedAfter_frame (k : Nat) (s : State) : ∃ (env : Env) (obs : Observed), abortedAfter k s =
    { s with env := { env with turns := s.env.turns }, obs := { obs with reads := s.obs.reads } } := by
  have hstream : ∀ txns : List (SinkTag × Byte), ∃ (env : Env) (obs : Observed), (emitAll txns s).1 =
      { s with env := { env with turns := s.env.turns }, obs := { obs with reads := s.obs.reads } } := by
    intro txns
    obtain ⟨a, d, k, h⟩ := emitAll_frame txns s
    exact ⟨{ s.env with sinkAnswers := a, draws := d }, { s.obs with sink := k }, h⟩
  unfold abortedAfter
  split
  · exact hstream _
  · exact hstream _
  · split
    · exact ⟨s.env, s.obs, rfl⟩
    · exact (asked_decode .clear s _).1
  · split
    · exact ⟨s.env, s.obs, rfl⟩
    · exact (asked_font .clear s _ _).1
  all_goals exact ⟨s.env, s.obs, rfl⟩

/-! ## A step -/

/-- Everything a step that answers a next state can be (R60): the engine's move, or the access of the next turn. -/
theorem step_cases {s t : State} (h : step s = .next t) :
    (s.engineNext ∧ engineStep (s.withTurns s.env.turns.tail) = .next t) ∨
    (∃ offset w rest, s.env.turns = .write offset w :: rest ∧ t = hostWrite offset w (s.withTurns rest)) ∨
    (∃ offset rest, s.env.turns = .read offset :: rest ∧ t = hostRead offset (s.withTurns rest)) := by
  unfold step at h
  split at h
  · rename_i heq
    refine .inl ⟨.inl heq, ?_⟩
    rwa [heq, List.tail_nil, ← heq]
  · rename_i heq
    refine .inl ⟨.inr ⟨_, heq⟩, ?_⟩
    rwa [heq]
  · rename_i heq
    simp only [Host.Outcome.next.injEq] at h
    exact .inr (.inl ⟨_, _, _, heq, h.symm⟩)
  · rename_i heq
    simp only [Host.Outcome.next.injEq] at h
    exact .inr (.inr ⟨_, _, heq, h.symm⟩)

/-- A write of 1 to CTRL bit 0 is a reset turn (R32). -/
theorem resetNext_of_write {s : State} {offset : BitVec 11} {w : Word} {rest : List Turn}
    (h : s.env.turns = .write offset w :: rest) (ho : regAt offset = .ctrl) (hw : w.getLsbD 0 = true) : s.resetNext :=
  ⟨_, _, h, by simp [Turn.resets, ho, hw]⟩

end Sys2Proof.Machine
end

