-- ==== Sys2Proof/Laws/PerInstr.lean ====
section
/-! SUPPORT. Statements made of every command as syntax, one lemma per constructor: the encoder writes as many words as R70
gives the command. -/

namespace Sys2Proof.Laws.EncodeLength

/-- The packet of a command has its length of R70. -/
def Statement (i : Instr) : Prop := (encode i).length = i.packetWords

theorem setPixel (x y : Int) (on : Bool) : Statement (.setPixel x y on) := rfl

theorem clear : Statement .clear := rfl

theorem flush : Statement .flush := rfl

theorem drawBox (x1 y1 x2 y2 : Int) (on : Bool) : Statement (.drawBox x1 y1 x2 y2 on) := rfl

theorem drawCircle (cx cy : Int) (diam : Nat) (on : Bool) : Statement (.drawCircle cx cy diam on) := rfl

theorem drawLine (x1 y1 x2 y2 : Int) (on : Bool) (thick : Nat) : Statement (.drawLine x1 y1 x2 y2 on thick) := rfl

theorem drawImage (handle : Word) (xo yo : Int) (scale : Nat) : Statement (.drawImage handle xo yo scale) := rfl

theorem drawText (x y : Int) (wrap size : Nat) (font : Word) (getHeight : Bool) (text : List Byte) :
    Statement (.drawText x y wrap size font getHeight text) := encode_length _

theorem init : Statement .init := rfl

theorem getPixel (x y : Int) : Statement (.getPixel x y) := rfl

end Sys2Proof.Laws.EncodeLength
end

