-- ==== Sys2Proof/Laws/Run.lean ====
section
/-! SUPPORT. What a move keeps along a run: the invariant of the block, the turns to come, and the count of the words of the
program (10_state.md R35, R38, R39; 70_reset_and_hazards.md R253). -/

namespace Sys2Proof.Machine

/-! ## The invariant, move by move -/

theorem State.Inv.withTurns {s : State} (h : s.Inv) (turns : List Turn) : (s.withTurns turns).Inv :=
  ⟨h.1, h.2, h.3, h.4, h.5, h.6, h.7, h.8, h.9, h.10⟩

/-- An engine that is not HALTED has no error (R40). -/
theorem State.Inv.noError {s : State} (h : s.Inv) (he : s.engine ≠ .halted) : s.err = false := by
  by_contra hc
  exact he (h.haltedErr.mpr (by simpa using hc))

theorem State.Inv.retire {s : State} (n : Nat) (hfb : s.fb.wf = true) (hd : 1 ≤ s.cfg.fifoDepth)
    (hf : s.fifo.length ≤ s.cfg.fifoDepth) (he : s.err = false) (hc : s.ecode = 0#4) : (s.retire n).Inv :=
  ⟨hfb, hd, hf, by simp, fun _ => rfl, by simp, by simp, by simp [he], fun _ => hc, by simp [he]⟩

theorem State.Inv.raiseError {s : State} (n : Nat) (c : ErrorCode) (hfb : s.fb.wf = true) (hd : 1 ≤ s.cfg.fifoDepth)
    (hf : s.fifo.length ≤ s.cfg.fifoDepth) : (s.raiseError n c).Inv :=
  ⟨hfb, hd, hf, by simp, by simp, by simp, by simp, by simp, by simp, by cases c <;> simp [ecodeOf]⟩

theorem State.Inv.fetchWord {s : State} (h : s.Inv) (hi : s.engine = .idle) : (fetchWord s).Inv := by
  have herr := h.noError (by simp [hi])
  unfold Machine.fetchWord
  split
  · exact h
  · rename_i w rest hf
    have hfl := h.fifoBounded
    rw [hf, List.length_cons] at hfl
    have hlt := packetIncomplete_lt (h.idleIncomplete hi)
    have hmx : s.pkt.length + 1 ≤ Config.maxPacketWords := hlt
    by_cases hcc : packetComplete (s.pkt ++ [w]) = true
    · simp only [hcc, if_true]
      exact ⟨h.1, h.2, by simp; omega, by simpa using hmx, by simp, fun _ => packetComplete_snoc (h.idleIncomplete hi) hcc,
        by simp, by simp [herr], h.9, h.10⟩
    · simp only [hcc]
      exact ⟨h.1, h.2, by simp; omega, by simpa using hmx, fun _ => by simpa using hcc, by simp [hi], by simp [hi],
        by simp [hi, herr], h.9, h.10⟩

/-- A command keeps the invariant, in EXEC or in IDLE. -/
theorem State.Inv.exec {s t : State} {i : Instr} (h : s.Inv) (he : s.engine ≠ .halted)
    (hx : exec i { s with engine := .exec } = .next t) : t.Inv := by
  have herr := h.noError he
  obtain ⟨u, t', hx', ⟨⟨env, obs, hu⟩, -⟩, hcase⟩ := exec_cases i { s with engine := .exec }
  obtain rfl : t' = t := by simpa using hx'.symm.trans hx
  rcases hcase with ⟨fb, r, rfl, hwf, -⟩ | ⟨c, rfl, -⟩
  · refine State.Inv.retire _ (hwf h.fbCanonical) ?_ ?_ ?_ ?_ <;>
      simp [hu, h.depthPositive, h.fifoBounded, herr, h.ecodeNone herr]
  · refine State.Inv.raiseError _ _ ?_ ?_ ?_ <;> simp [hu, h.fbCanonical, h.depthPositive, h.fifoBounded]

/-- The engine's move keeps the invariant. -/
theorem State.Inv.engineStep {s t : State} (h : s.Inv) (hs : engineStep s = .next t) : t.Inv := by
  rcases engineStep_cases s with ⟨-, h2⟩ | ⟨he, i, n, -, h2⟩ | ⟨-, c, n, -, h2⟩ | ⟨-, -, h2⟩ | ⟨hi, -, h2⟩ <;> rw [h2] at hs
  · cases hs; exact h
  · exact h.exec he hs
  · cases hs; exact State.Inv.raiseError _ _ h.fbCanonical h.depthPositive h.fifoBounded
  · cases hs
  · cases hs; exact h.fetchWord hi

theorem State.Inv.blockReset {s : State} (h : 1 ≤ s.cfg.fifoDepth) : s.blockReset.Inv := by
  constructor <;> simp [Memory.zero, h] <;> rfl

/-- A host write keeps the invariant. -/
theorem State.Inv.hostWrite {s : State} (h : s.Inv) (offset : BitVec 11) (w : Word) : (hostWrite offset w s).Inv := by
  unfold Machine.hostWrite
  split
  · have h1 : (if (w.getLsbD 1 && s.err) = true then s.resume else s).Inv := by
      split
      · rename_i hc
        have hp := h.haltedEmpty (h.haltedErr.mpr (by simp at hc; exact hc.2))
        exact ⟨h.1, h.2, h.3, h.4, fun _ => by simp [hp]; rfl, by simp, by simp, by simp, fun _ => rfl, by simp⟩
      · exact h
    simp only [statusWrite]
    split
    · exact ⟨h1.1, h1.2, h1.3, h1.4, h1.5, h1.6, h1.7, h1.8, h1.9, h1.10⟩
    · exact h1
  · split
    · unfold hostReset
      split
      · obtain ⟨env, obs, hf⟩ := abortedAfter_frame (Config.freeAbortPoint s.env.draws) s.drawn
        exact State.Inv.blockReset (by rw [hf]; exact h.depthPositive)
      · exact State.Inv.blockReset h.depthPositive
    · exact h
  · unfold cmdWrite
    split
    · exact ⟨h.1, h.2, h.3, h.4, h.5, h.6, h.7, h.8, h.9, h.10⟩
    · rename_i hf
      have hb := h.fifoBounded
      simp only [State.full, beq_iff_eq] at hf
      exact ⟨h.1, h.2, by simp; omega, h.4, h.5, h.6, h.7, h.8, h.9, h.10⟩
  all_goals exact h

/-- A host read keeps the invariant. -/
theorem State.Inv.hostRead {s : State} (h : s.Inv) (offset : BitVec 11) : (hostRead offset s).Inv := by
  obtain ⟨env, reads, hf⟩ := hostRead_frame offset s
  rw [hf]
  exact ⟨h.1, h.2, h.3, h.4, h.5, h.6, h.7, h.8, h.9, h.10⟩

/-! ## The turns to come -/

/-- The engine's move leaves the turns to come. -/
theorem engineStep_turns {s t : State} (hs : engineStep s = .next t) : t.env.turns = s.env.turns := by
  rcases engineStep_cases s with ⟨-, h2⟩ | ⟨-, i, n, -, h2⟩ | ⟨-, c, n, -, h2⟩ | ⟨-, -, h2⟩ | ⟨-, -, h2⟩ <;> rw [h2] at hs
  · cases hs; rfl
  · obtain ⟨u, t', hx, ⟨⟨env, obs, hu⟩, -⟩, hcase⟩ := exec_cases i { s with engine := .exec }
    obtain rfl : t' = t := by simpa using hx.symm.trans hs
    rcases hcase with ⟨fb, r, rfl, -⟩ | ⟨c, rfl, -⟩ <;> simp [hu]
  · cases hs; rfl
  · cases hs
  · cases hs
    obtain ⟨fifo, pkt, engine, hf⟩ := fetchWord_frame s
    rw [hf]

/-- A host write leaves the turns to come. -/
theorem hostWrite_turns (offset : BitVec 11) (w : Word) (s : State) : (hostWrite offset w s).env.turns = s.env.turns := by
  rcases hostWrite_cases offset w s with ⟨-, -, h⟩ | ⟨_, _, _, _, _, h⟩ <;> rw [h]
  unfold hostReset
  split
  · obtain ⟨env, obs, hf⟩ := abortedAfter_frame (Config.freeAbortPoint s.env.draws) s.drawn
    rw [hf]; rfl
  · rfl

/-- A host read leaves the turns to come. -/
theorem hostRead_turns (offset : BitVec 11) (s : State) : (hostRead offset s).env.turns = s.env.turns := by
  unfold hostRead
  simp only
  split <;> rfl

/-- A step uses up the next turn. -/
theorem step_turns {s t : State} (hs : step s = .next t) : t.env.turns = s.env.turns.tail := by
  rcases step_cases hs with ⟨-, h⟩ | ⟨offset, w, rest, h, rfl⟩ | ⟨offset, rest, h, rfl⟩
  · exact engineStep_turns h
  · rw [hostWrite_turns, h]; rfl
  · rw [hostRead_turns, h]; rfl

/-! ## The end of a run -/

/-- A run that ends from the state after a step ends from the state before it (R253). -/
theorem runEnd_of_step {s t : State} {k : Nat} {e : RunEnd} (hs : step s = .next t) (h : runEnd k t = some e) :
    ∃ e', runEnd (k + 1) s = some e' := by
  simp only [runEnd, runSteps, hs, dropsWithin] at h ⊢
  cases hr : runSteps k t with
  | next u =>
    rw [hr] at h
    by_cases hd : (s.dropsNext || dropsWithin k t || u.dropped) = true
    · exact ⟨.dropped, by simp only [hd, if_true]⟩
    · refine ⟨e, ?_⟩
      simp only [Bool.or_eq_true, not_or, Bool.not_eq_true] at hd
      simpa [hd] using h
  | fault r => simp [hr] at h
  | refused r => simp [hr] at h

/-! ## The words of the program -/

@[simp] theorem programWords_nil : programWords [] = [] := rfl

@[simp] theorem programWords_engine (rest : List Turn) : programWords (.engine :: rest) = programWords rest := rfl

@[simp] theorem programWords_read (offset : BitVec 11) (rest : List Turn) :
    programWords (.read offset :: rest) = programWords rest := rfl

/-- A write is a word of the program exactly at CMD (R33). -/
theorem programWords_write (offset : BitVec 11) (w : Word) (rest : List Turn) :
    programWords (.write offset w :: rest) = if regAt offset = .cmd then w :: programWords rest else programWords rest := by
  by_cases h : regAt offset = .cmd <;> simp [programWords, Turn.cmdWord, h]

/-- Words consumed, words the block holds and words still to be written: all the words of the stream, mod 2^32 (R35). -/
def State.streamCount (s : State) : Word :=
  s.csp + BitVec.ofNat 32 (s.pkt.length + s.fifo.length + (programWords s.env.turns).length)

/-- The engine's move loses no word and makes none (R35, R38). -/
theorem engineStep_streamCount {s t : State} (h : s.Inv) (hs : engineStep s = .next t) : t.streamCount = s.streamCount := by
  have ht := engineStep_turns hs
  have full : ∀ n, packetLength s.pkt = some n → n ≤ s.pkt.length → s.engine ≠ .halted → n = s.pkt.length := by
    intro n hn hle he
    rcases hse : s.engine with _ | _ | _
    · have := h.idleIncomplete hse
      simp [packetComplete, hn] at this; omega
    · have := (h.execComplete hse).symm.trans hn
      simpa using this.symm
    · exact absurd hse he
  rcases engineStep_cases s with ⟨-, h2⟩ | ⟨he, i, n, hd, h2⟩ | ⟨he, c, n, hd, h2⟩ | ⟨-, -, h2⟩ | ⟨-, -, h2⟩ <;>
    rw [h2] at hs
  · cases hs; rfl
  · obtain ⟨h3, h4, h5⟩ := decode_ok_length hd
    have hn := full n h3 h5 he
    obtain ⟨u, t', hx, ⟨⟨env, obs, hu⟩, -⟩, hcase⟩ := exec_cases i { s with engine := .exec }
    obtain rfl : t' = t := by simpa using hx.symm.trans hs
    rcases hcase with ⟨fb, r, rfl, -⟩ | ⟨c, rfl, -⟩ <;>
      simp [State.streamCount, hu, ← h4, hn, BitVec.add_assoc, BitVec.ofNat_add, Nat.add_assoc]
  · obtain ⟨h3, h5, -⟩ := decode_bad_length hd
    have hn := full n h3 h5 he
    cases hs
    simp [State.streamCount, hn, BitVec.add_assoc, BitVec.ofNat_add, Nat.add_assoc]
  · cases hs
  · cases hs
    unfold fetchWord
    split
    · rfl
    · rename_i w rest hf
      simp only [State.streamCount, hf, List.length_append, List.length_cons, List.length_nil]
      congr 2
      omega

/-- A step that is neither a reset nor a dropped write loses no word of the program and makes none (R33, R35, R38). -/
theorem step_streamCount {s t : State} (h : s.Inv) (hr : ¬s.resetNext) (hd : s.dropsNext = false) (hs : step s = .next t) :
    t.streamCount = s.streamCount := by
  rcases step_cases hs with ⟨hn, h1⟩ | ⟨offset, w, rest, h1, rfl⟩ | ⟨offset, rest, h1, rfl⟩
  · rw [engineStep_streamCount (h.withTurns _) h1]
    rcases hn with hn | ⟨rest, hn⟩ <;> simp [State.streamCount, hn]
  · unfold hostWrite
    split
    · rename_i ho
      have : ∀ u : State, (statusWrite w u).streamCount = u.streamCount := by
        intro u
        simp only [statusWrite]
        split <;> split <;> rfl
      rw [this]
      simp [State.streamCount, h1, programWords_write, ho]
    · rename_i ho
      rw [if_neg fun hw => hr (resetNext_of_write h1 ho hw)]
      simp [State.streamCount, h1, programWords_write, ho]
    · rename_i ho
      have hf : s.full = false := by simpa [State.dropsNext, h1, Turn.cmdWord, ho] using hd
      replace hf : (s.withTurns rest).full = false := hf
      simp only [cmdWrite, hf, Bool.false_eq_true, if_false, State.streamCount, h1, programWords_write, ho, if_true,
        State.withTurns_csp, State.withTurns_pkt, State.withTurns_fifo, State.withTurns_env, List.length_append,
        List.length_cons, List.length_nil]
      congr 2
      omega
    all_goals
      rename_i ho
      simp [State.streamCount, h1, programWords_write, ho]
  · obtain ⟨env, reads, hf⟩ := hostRead_frame offset (s.withTurns rest)
    have ht := hostRead_turns offset (s.withTurns rest)
    rw [hf] at ht ⊢
    simp only [State.withTurns_env] at ht
    simp [State.streamCount, ht, h1]

end Sys2Proof.Machine
end

