-- ==== Sys2Proof/Tests/Slice0.lean ====
section
/-! SUPPORT. Tests of the model, with expected values from spec/95_test_vectors.md (its vector in the comment) or worked out by
hand from the rule named, and a witness for the hypotheses of each statement. -/

namespace Sys2Proof.Tests

open Sys2Proof Sys2Proof.Machine

/-! ## Helpers -/

/-- The reset state executing a packet. -/
def running (ws : List Word) : State := { State.reset with pkt := ws, engine := .exec }

/-- A state with a framebuffer that is not empty. -/
def drawn : State := { State.reset with fb := [(3, 0x08), (1023, 0x80)], result := 7 }

/-- An engine that halted on an illegal opcode at CSP 2, with words waiting. -/
def halted : State :=
  { State.reset with engine := .halted, err := true, ecode := 1, epkt := 2, csp := 3, fifo := [0x00000101] }

/-- The state after a command that answers one; the reset state where it does not. -/
def after (i : Instr) (s : State) : State :=
  match exec i s with
  | .next t => t
  | .fault _ => State.reset
  | .refused _ => State.reset

/-- The state after one step; the reset state where there is none. -/
def stepped (s : State) : State :=
  match step s with
  | .next t => t
  | .fault _ => State.reset
  | .refused _ => State.reset

/-- The next sink answers. -/
def withSink (s : State) (answers : List Bool) : State := { s with env := { s.env with sinkAnswers := answers } }

/-- The next answer of FONT_OK. -/
def withFont (s : State) (answer : Bool) : State := { s with env := { s.env with fontAnswers := [answer] } }

/-- The next answer of DECODE. -/
def withImage (s : State) (answer : Option Image) : State := { s with env := { s.env with decodeAnswers := [answer] } }

/-- A pixel of alpha a. -/
def alpha (a : Byte) : Pixel := ⟨0, 0, 0, a⟩

/-- Test image 1: A = (255, 0) in row 0, (128, 127) in row 1. -/
def image1 : Image := ⟨2, 2, #v[alpha 255, alpha 0, alpha 128, alpha 127]⟩

/-- Test image 2: 2 × 2, every A = 255. -/
def image2 : Image := ⟨2, 2, #v[alpha 255, alpha 255, alpha 255, alpha 255]⟩

/-- Test image 3: 0 × 5. -/
def image3 : Image := ⟨0, 5, #v[]⟩

/-- The test font MONO6x8. -/
def mono : FontProvider where
  textW s := 6 * s.length
  textH s := if s.isEmpty then 0 else 8
  render s px py := (List.range s.length).map fun (i : Nat) => (px + 6 * (i : Int), py)

/-- "hello world". -/
def hello : List Byte := [0x68, 0x65, 0x6C, 0x6C, 0x6F, 0x20, 0x77, 0x6F, 0x72, 0x6C, 0x64]

/-- The framebuffer bytes listed, each holding v. -/
def bytes (v : Byte) (is : List Nat) : Memory := is.map fun i => (i, v)

/-! ## Well-formedness: one ill-formed term for each check -/

theorem test_wf_setPixel_x : (Instr.setPixel 32768 0 true).wellFormed = false := by decide
theorem test_wf_setPixel_y : (Instr.setPixel 0 (-32769) true).wellFormed = false := by decide
theorem test_wf_drawBox_x1 : (Instr.drawBox 32768 0 0 0 true).wellFormed = false := by decide
theorem test_wf_drawBox_y1 : (Instr.drawBox 0 32768 0 0 true).wellFormed = false := by decide
theorem test_wf_drawBox_x2 : (Instr.drawBox 0 0 (-32769) 0 true).wellFormed = false := by decide
theorem test_wf_drawBox_y2 : (Instr.drawBox 0 0 0 (-32769) true).wellFormed = false := by decide
theorem test_wf_drawCircle_cx : (Instr.drawCircle 32768 0 0 true).wellFormed = false := by decide
theorem test_wf_drawCircle_cy : (Instr.drawCircle 0 32768 0 true).wellFormed = false := by decide
theorem test_wf_drawCircle_diam : (Instr.drawCircle 0 0 65536 true).wellFormed = false := by decide
theorem test_wf_drawLine_x1 : (Instr.drawLine 32768 0 0 0 true 1).wellFormed = false := by decide
theorem test_wf_drawLine_y1 : (Instr.drawLine 0 32768 0 0 true 1).wellFormed = false := by decide
theorem test_wf_drawLine_x2 : (Instr.drawLine 0 0 32768 0 true 1).wellFormed = false := by decide
theorem test_wf_drawLine_y2 : (Instr.drawLine 0 0 0 32768 true 1).wellFormed = false := by decide
theorem test_wf_drawLine_thick : (Instr.drawLine 0 0 0 0 true 65536).wellFormed = false := by decide
theorem test_wf_drawImage_xo : (Instr.drawImage 1 32768 0 256).wellFormed = false := by decide
theorem test_wf_drawImage_yo : (Instr.drawImage 1 0 (-32769) 256).wellFormed = false := by decide
theorem test_wf_drawImage_scale : (Instr.drawImage 1 0 0 65536).wellFormed = false := by decide
theorem test_wf_drawText_x : (Instr.drawText 32768 0 0 8 7 false []).wellFormed = false := by decide
theorem test_wf_drawText_y : (Instr.drawText 0 32768 0 8 7 false []).wellFormed = false := by decide
theorem test_wf_drawText_wrap : (Instr.drawText 0 0 65536 8 7 false []).wellFormed = false := by decide
theorem test_wf_drawText_size : (Instr.drawText 0 0 0 65536 7 false []).wellFormed = false := by decide
theorem test_wf_drawText_text : (Instr.drawText 0 0 0 8 7 false (List.replicate 65536 0x61)).wellFormed = false := by
  have h : ∀ text : List Byte, text.length = 65536 → (Instr.drawText 0 0 0 8 7 false text).wellFormed = false := by
    intro text h
    simp [Instr.wellFormed, sizeOk, h]
  exact h _ List.length_replicate
theorem test_wf_getPixel_x : (Instr.getPixel 32768 0).wellFormed = false := by decide
theorem test_wf_getPixel_y : (Instr.getPixel 0 (-32769)).wellFormed = false := by decide
theorem test_wf_bounds : (Instr.drawLine (-32768) 32767 0 0 false 65535).wellFormed = true := by decide

/-! ## Decoding: words written out from R71 to R79 -/

/-- U16 0, RSV 0, G 0, C 1, OPC 0x01; y 63, x 127 (S-example of R102). -/
theorem test_decode_setPixel : decode
    [0b0000000000000000_000000_0_1_00000001, 0b0000000000111111_0000000001111111] = .ok (.setPixel 127 63 true) 2 := by
  decide

theorem test_decode_clear : decode [0b0000000000000000_000000_0_0_00000010] = .ok .clear 1 := by decide

theorem test_decode_flush : decode [0b0000000000000000_000000_0_0_00000011] = .ok .flush 1 := by decide

/-- V15: (120, 60) to (200, 200). -/
theorem test_decode_drawBox : decode [0b0000000000000000_000000_0_1_00000100, 0x003C0078, 0x00C800C8]
    = .ok (.drawBox 120 60 200 200 true) 3 := by decide

/-- V21: d = 6 at (-3, -3). -/
theorem test_decode_drawCircle : decode [0b0000000000000110_000000_0_1_00000101, 0xFFFDFFFD]
    = .ok (.drawCircle (-3) (-3) 6 true) 2 := by decide

/-- V39: (-32768, 0) to (32767, 1), thickness 1. -/
theorem test_decode_drawLine : decode [0b0000000000000001_000000_0_1_00000110, 0x00008000, 0x00017FFF]
    = .ok (.drawLine (-32768) 0 32767 1 true 1) 3 := by decide

/-- V41: handle 2 at (-1, -1), scale 0x0100. -/
theorem test_decode_drawImage : decode [0b0000000100000000_000000_0_0_00000111, 0xFFFFFFFF, 0x00000002]
    = .ok (.drawImage 2 (-1) (-1) 0x0100) 3 := by decide

/-- P3's MEASURE_TEXT: WRAP 30, G 1, "hello world". -/
theorem test_decode_drawText : decode [0b0000000000011110_000000_1_0_00001000, 0x00000000, 0x0008000B, 0x00000007,
    0x6C6C6568, 0x6F77206F, 0x00646C72] = .ok (.drawText 0 0 30 8 7 true hello) 7 := by decide

theorem test_decode_init : decode [0b0000000000000000_000000_0_0_00001001] = .ok .init 1 := by decide

/-- V7: GET_PIXEL (128, 5). -/
theorem test_decode_getPixel : decode [0b0000000000000000_000000_0_0_00001010, 0x00050080]
    = .ok (.getPixel 128 5) 2 := by decide

/-- The note of section 2.8: 0xFFFF0005 is DRAW_CIRCLE with DIAM 65535 and C 0. -/
theorem test_decode_free_bits : decode [0xFFFF0005, 0x00000000] = .ok (.drawCircle 0 0 65535 false) 2 := by decide

/-- V76 to V78, V81, V84, V86: the causes and the lengths. -/
theorem test_decode_errors :
    decode [0x00000000] = .bad .illegalOpcode 1 ∧ decode [0x0000000B] = .bad .illegalOpcode 1 ∧
    decode [0x000000FF] = .bad .illegalOpcode 1 ∧ decode [0x00000401, 0] = .bad .reservedField 2 ∧
    decode [0x00000209] = .bad .reservedField 1 ∧ decode [0x00000108, 0, 0, 0] = .bad .reservedField 4 := by decide

/-- R82: TEXT_LEN 5 is 6 words, and word 2 must have come. -/
theorem test_decode_waits : decode [0x00000008, 0] = .incomplete ∧
    decode [0x00000008, 0, 0x00080005, 7, 0x6C6C6568] = .incomplete ∧
    packetLength [0x00000008, 0, 0x00080005] = some 6 := by decide

/-- S1 as a table word: bits 31:0 are the header, bits 63:32 word 1. -/
theorem test_table_word : decodeTableWord 64 0x00030005_00000101 = some (.setPixel 5 3 true) := by decide

/-- DRAW_TEXT whose operand words are zeros is the empty text. -/
theorem test_table_text : decodeTableWord 32 0x00000008 = some (.drawText 0 0 0 0 0 false []) := by decide

/-- The step after withFetchWord runs the word: V3. -/
theorem test_fetch_word : (stepped (State.reset.withFetchWord 64 0x00090005_00000101)).fb = [(133, 0x02)] := by decide

/-! ## Assembler (R83 to R85) -/

/-- S4's line. -/
theorem test_assemble_box : assembleLine
    ['D', 'R', 'A', 'W', '_', 'B', 'O', 'X', ' ', '1', '0', ',', ' ', '1', '0', ',', ' ', '2', '0', ',', ' ', '0', 'x', '1', '4',
      ',', ' ', 'o', 'n', ' ', ';', ' ', 'c'] = some [0x00000104, 0x000A000A, 0x00140014] := by decide

/-- R83: 32768 is out of range and refused. -/
theorem test_assemble_range : assembleLine
    ['G', 'E', 'T', '_', 'P', 'I', 'X', 'E', 'L', ' ', '3', '2', '7', '6', '8', ',', ' ', '0'] = none := by decide

/-- V54's line: DRAW_TEXT.H 0, 0, 30, 8, 7, "hi" has G = 1; R75's word for "hi". -/
theorem test_assemble_text : assembleLine
    ['D', 'R', 'A', 'W', '_', 'T', 'E', 'X', 'T', '.', 'H', ' ', '0', ',', '0', ',', '3', '0', ',', '8', ',', '7', ',',
      '"', 'h', 'i', '"'] = some [0x001E0208, 0x00000000, 0x00080002, 0x00000007, 0x00006968] := by decide

/-- R85: the escapes of a string. -/
theorem test_lex_escapes : lex .between ['"', '\\', '"', '\\', '\\', '\\', 'x', '0', '9', 'a', '"']
    = some [.str [0x22, 0x5C, 0x09, 0x61]] := by decide

/-! ## Framebuffer -/

/-- V2. -/
theorem test_setPixel_last : (after (.setPixel 127 63 true) (running [])).fb = [(1023, 0x80)] := by decide

/-- V5: clearing one bit keeps the others. -/
theorem test_setPixel_off : (after (.setPixel 0 3 false) { running [] with fb := [(0, 0xFF)] }).fb = [(0, 0xF7)] := by decide

/-- S3. -/
theorem test_clear : (after .clear drawn).fb = [] ∧ (after .clear drawn).csp = 1 := by decide

/-- S1: the lit pixel (3, 3) of byte 3 reads 1. -/
theorem test_getPixel_lit : (after (.getPixel 3 3) drawn).result = 1 := by decide

/-- V7: (128, 5) is out of range and does not wrap to (0, 5). -/
theorem test_getPixel_outside : (after (.getPixel 128 5) { drawn with fb := [(0, 0x20)] }).result = 0 := by decide

/-! ## Rasterizer -/

/-- V11. -/
theorem test_drawBox_clipped : (after (.drawBox (-5) (-5) 2 2 true) (running [])).fb = bytes 0x07 [0, 1, 2] := by
  decide +kernel

/-- V10: inverted in y. -/
theorem test_drawBox_inverted : (after (.drawBox 5 5 5 2 true) drawn).fb = drawn.fb := by decide +kernel

/-- V17. -/
theorem test_drawCircle_plus : (after (.drawCircle 10 10 2 true) (running [])).fb
    = [(137, 0x04), (138, 0x0E), (139, 0x04)] := by decide +kernel

/-- V18. -/
theorem test_drawCircle_clipped : (after (.drawCircle 0 0 4 true) (running [])).fb
    = [(0, 0x07), (1, 0x03), (2, 0x01)] := by decide +kernel

/-- V24, V28. -/
theorem test_walk : walk 1 2 0 0 = [(1, 2), (1, 1), (0, 0)] ∧
    walk 0 0 5 (-2) = [(0, 0), (1, 0), (2, -1), (3, -1), (4, -2), (5, -2)] := by decide +kernel

/-- V36. -/
theorem test_drawLine_clipped : (after (.drawLine (-5) 0 5 0 true 1) (running [])).fb = bytes 0x01 [0, 1, 2, 3, 4, 5] := by
  decide +kernel

/-- V34: a thick line. -/
theorem test_drawLine_thick : (after (.drawLine 10 10 14 10 true 3) (running [])).fb
    = [(137, 0x04), (138, 0x0E), (139, 0x0E), (140, 0x0E), (141, 0x0E), (142, 0x0E), (143, 0x04)] := by decide +kernel

/-! ## Images -/

/-- V40: A = 128 lights, A = 127 does not. -/
theorem test_drawImage_threshold : (after (.drawImage 1 10 20 0x0100) (withImage (running []) (some image1))).fb
    = [(266, 0x30)] := by decide +kernel

/-- V47: FAIL is DECODE_ERROR, at the packet's header. -/
theorem test_drawImage_fail :
    let t := after (.drawImage 9 0 0 0x0100) (withImage { running [] with csp := 2 } none)
    t.ecode = 3 ∧ t.epkt = 2 ∧ t.csp = 5 ∧ t.engine = .halted ∧ t.fb = [] := by decide

/-- V45, V46: a new size of 0 changes nothing. -/
theorem test_drawImage_empty :
    Memory.zero.composite image2 0x50 0 0 = [] ∧ Memory.zero.composite image3 0x0100 0 0 = [] := by decide +kernel

/-! ## Text, with the test font -/

/-- V50. -/
theorem test_drawText_wrap :
    let t := drawTextWith mono 0 0 30 8 7 false hello (withFont (running []) true)
    t.fb = bytes 0x01 [0, 6, 12, 18, 24, 36, 42, 128, 134, 140, 146] ∧ t.result = 16 ∧ t.csp = 7 := by decide +kernel

/-- V52: the empty token that does not fit renders a lone hyphen. -/
theorem test_drawText_empty_token :
    let t := drawTextWith mono 0 0 10 8 7 false [0x61, 0x62, 0x20, 0x20, 0x63] (withFont (running []) true)
    t.fb = bytes 0x01 [0, 6, 128, 140, 256] ∧ t.result = 24 := by decide +kernel

/-- V54: get_height leaves FB. -/
theorem test_drawText_height :
    let t := drawTextWith mono 0 0 30 8 7 true hello (withFont (running []) true)
    t.fb = [] ∧ t.result = 16 := by decide +kernel

/-- V67: FONT_ERROR leaves RESULT and FB. -/
theorem test_drawText_font :
    let t := after (.drawText 0 0 0 8 0 false [0x68, 0x69]) (withFont (running []) false)
    t.ecode = 4 ∧ t.csp = 5 ∧ t.epkt = 0 ∧ t.fb = [] ∧ t.result = 0 := by decide

/-- V56: white space asks no font. -/
theorem test_drawText_blank :
    let t := after (.drawText 0 0 0 8 0 false [0x20, 0x20, 0x09, 0x0A, 0x20]) drawn
    t.result = 0 ∧ t.csp = 6 ∧ t.fb = drawn.fb ∧ t.obs.asked = [] := by decide

/-! ## Streamer -/

/-- V70: the default sequence. -/
theorem test_init : (after .init (withSink (running []) (List.replicate 25 true))).obs.sink
    = [0xAE, 0xD5, 0x80, 0xA8, 0x3F, 0xD3, 0x00, 0x40, 0x8D, 0x14, 0x20, 0x00, 0xA1, 0xC8, 0xDA, 0x12, 0x81, 0x7F, 0xD9, 0x22,
       0xDB, 0x20, 0xA4, 0xA6, 0xAF].map (fun b => ⟨.cmd, b, true⟩) := by decide

/-- V74: TRANSPORT_ERROR on the first byte. -/
theorem test_init_fail :
    let t := after .init (withSink (running []) [false])
    t.obs.sink = [⟨.cmd, 0xAE, false⟩] ∧ t.ecode = 5 ∧ t.csp = 1 := by decide

/-- V72: transactions 0 to 3, 130 to 134 and 1047. -/
theorem test_flush_order :
    let txns := flushTxns Config.defaultParams [(0, 0x01), (1023, 0x80)]
    txns.take 4 = [(.cmd, 0xB0), (.cmd, 0x00), (.cmd, 0x10), (.data, 0x01)] ∧
      (txns.drop 130).take 5 = [(.data, 0x00), (.cmd, 0xB1), (.cmd, 0x00), (.cmd, 0x10), (.data, 0x00)] ∧
      txns.drop 1047 = [(.data, 0x80)] := by decide +kernel

/-- V73: FAIL at the first data byte. -/
theorem test_flush_fail :
    let t := after .flush (withSink (running []) [true, true, true, false])
    t.obs.sink = [⟨.cmd, 0xB0, true⟩, ⟨.cmd, 0x00, true⟩, ⟨.cmd, 0x10, true⟩, ⟨.data, 0x00, false⟩] ∧ t.ecode = 5 ∧
      t.epkt = 0 ∧ t.csp = 1 := by decide +kernel

/-! ## Host port -/

/-- V88, halted: BUSY, ERR, ECODE 1. -/
theorem test_status_halted : halted.statusWord = 0x00000103 := by decide

/-- R53: the lower byte in the lower bits. -/
theorem test_fbwin : (stepped (drawn.withTurns [.read 0x403])).obs.reads = [⟨0x403, 0x08000000⟩] := by decide

/-- R214: the host clears ERR; EPKT stays. -/
theorem test_resume :
    let t := stepped (halted.withTurns [.write 0x000 0x00000002])
    t.engine = .idle ∧ t.statusWord = 0x00000001 ∧ t.epkt = 2 ∧ t.csp = 3 := by decide

/-- R33: a CMD write when FULL = 1 is dropped. -/
theorem test_cmd_full :
    let s : State := { halted with cfg := { halted.cfg with fifoDepth := 1 } }
    let t := stepped (s.withTurns [.write 0x008 0x00000002])
    t.drop = true ∧ t.fifo = [0x00000101] := by decide

/-- P4's end: the reset keeps the sink log. -/
theorem test_ctrl_reset :
    let s : State := { halted with fb := [(0, 0x01)], obs := { halted.obs with sink := [⟨.cmd, 0xB1, false⟩] } }
    let t := stepped (s.withTurns [.write 0x004 0x00000001])
    t.fb = [] ∧ t.statusWord = 0 ∧ t.csp = 0 ∧ t.epkt = 0 ∧ t.fifo = [] ∧ t.obs.sink = [⟨.cmd, 0xB1, false⟩] := by decide

/-! ## Witnesses: concrete inputs that meet the hypotheses of each statement -/

theorem witness_DecodeOfEncode : (Instr.setPixel (-32768) 32767 true).wellFormed = true ∧
    (Instr.drawText (-32768) 32767 65535 65535 0xFFFFFFFF true hello).wellFormed = true := by decide

theorem witness_DecodedIsWellFormed : decode [0x00000002, 0x00000003] = .ok .clear 1 := by decide

theorem witness_DecodeWaitsForCompletePacket : packetComplete [0x00000001] = false ∧
    decode [0x00000001, 0] = .ok (.setPixel 0 0 false) 2 ∧ decode [0x0000000B] = .bad .illegalOpcode 1 := by decide

theorem witness_IllegalHeaders_opcode :
    ((running [0x12345600]).env.turns = [] ∧ (running [0x12345600]).engine = .exec ∧
      (0x12345600#32).extractLsb' 0 8 = 0x00#8) ∧
    0x0B#8 ≤ (0x0000000B#32).extractLsb' 0 8 ∧ 0x0B#8 ≤ (0x000000FF#32).extractLsb' 0 8 := by decide

theorem witness_IllegalHeaders_reserved :
    let s := running [0x00000108, 0, 0, 0]
    s.env.turns = [] ∧ s.engine = .exec ∧ (0x00000108#32).extractLsb' 0 8 = opcByte .drawText ∧
      packetLength s.pkt = some 4 ∧ 4 ≤ s.pkt.length ∧ 0x00000108#32 &&& headerMask .drawText ≠ headerMatch .drawText := by
  decide

theorem witness_MaskCoversUnusedFields : (0xFFFFFF05#32).extractLsb' 0 8 = opcByte .drawCircle := by decide

theorem witness_OpcodeRowsDisjoint : 0xFFFF0208#32 &&& headerMask .drawText = headerMatch .drawText := by decide

theorem witness_TextPackingRoundTrip : 10 < hello.length := by decide

theorem witness_AssembledPacketDecodes :
    asmLine (.op .getPixel) [.atom ['-', '3', '2', '7', '6', '8'], .atom ['3', '2', '7', '6', '7']]
      = some [0x0000000A, 0x7FFF8000] := by decide

/-- A DRAW_TEXT and a DRAW_TEXT.H are spelled by the same operands under two names (R83). -/
theorem witness_Spells (g : Bool) : Spells (.drawText 0 (-1) 30 8 7 g [0x68, 0x69]) (if g then .measureText else .op .drawText)
      [.atom ['0'], .atom ['-', '1'], .atom ['3', '0'], .atom ['8'], .atom ['7'], .str [0x68, 0x69]] ∧
    (Instr.drawText 0 (-1) 30 8 7 g [0x68, 0x69]).wellFormed = true :=
  ⟨⟨rfl, _, _, _, _, _, _, rfl, by decide, by decide, by decide, by decide, by decide, by decide⟩, by cases g <;> decide⟩

theorem witness_PixelMapBijective : inBounds 0 0 = true ∧ inBounds 127 63 = true ∧ (1023 : Nat) < 1024 ∧ (7 : Nat) < 8 := by
  decide

/-- A canonical framebuffer with bytes in it: the hypothesis of every drawing statement. -/
theorem witness_canonical : drawn.fb.wf = true := by decide

theorem witness_SetPixel_bounds : inBounds 127 63 = true ∧ inBounds 128 0 = false ∧ inBounds (-1) 0 = false ∧
    inBounds 0 64 = false ∧ inBounds 0 (-1) = false ∧ (0 : Nat) ≠ pixIndex 127 63 := by decide

theorem witness_PixelReadBackLaws : drawn.fb.wf = true ∧ inBounds 0 0 = true ∧ inBounds 0 63 = true ∧ ((0 : Int) ≠ 63) := by
  decide

/-- Byte 1 holds no pixel of the box (0, 0) to (0, 0). -/
theorem witness_DrawBox_untouched : ∀ u v : Int, inBounds u v = true → 0 ≤ u → u ≤ 0 → 0 ≤ v → v ≤ 0 → 1 ≠ pixIndex u v := by
  intro u v _ h1 h2 h3 h4
  obtain rfl : u = 0 := by omega
  obtain rfl : v = 0 := by omega
  decide

/-- Byte 1 holds no pixel of the disk of diameter 1 at (0, 0). -/
theorem witness_DrawCircle_untouched : ∀ u v : Int, inBounds u v = true →
    (u - 0) ^ 2 + (v - 0) ^ 2 ≤ ((1 / 2 : Nat) : Int) ^ 2 → 1 ≠ pixIndex u v := by
  intro u v _ h
  obtain rfl : u = 0 := by norm_num at h; nlinarith [sq_nonneg u, sq_nonneg v]
  obtain rfl : v = 0 := by norm_num at h; nlinarith [sq_nonneg v]
  decide

/-- A point in a disk of the walk of one point, and one in none. -/
theorem witness_DrawLineStampsWalk : (∃ p ∈ walk 5 5 5 5, ((5 : Int) - p.1) ^ 2 + (5 - p.2) ^ 2 ≤ ((1 / 2 : Nat) : Int) ^ 2) ∧
    ¬∃ p ∈ walk 5 5 5 5, ((6 : Int) - p.1) ^ 2 + (5 - p.2) ^ 2 ≤ ((1 / 2 : Nat) : Int) ^ 2 := by decide +kernel

theorem witness_ThinLineIsTheWalk : State.reset.fb.wf = true ∧
    exec (.drawLine 0 0 1 2 true 1) State.reset = .next (after (.drawLine 0 0 1 2 true 1) State.reset) := ⟨rfl, rfl⟩

theorem witness_WalkReachesEndpoint : (walk 0 0 1 2)[0]? = some (0, 0) ∧ (walk 0 0 1 2)[1]? = some (0, 1) ∧
    max (1 - 0 : Int).natAbs (2 - 0 : Int).natAbs ≤ 2 := by decide +kernel

/-- The longest walk of R123, and V24's (1, 2) to (0, 0), whose two passes move y alone and then both. -/
theorem witness_WalkErrorBounded : ((-32768 : Int) ≠ 32767 ∨ (0 : Int) ≠ 1) ∧
    (65535 : Int) = (32767 - (-32768) : Int).natAbs ∧ (1 : Int) = (1 - 0 : Int).natAbs ∧
    65535 ≤ max (32767 - (-32768) : Int).natAbs (1 - 0 : Int).natAbs ∧
    (walk 1 2 0 0)[0]? = some (1, 2) ∧ (walk 1 2 0 0)[1]? = some (1, 1) ∧ (walk 1 2 0 0)[2]? = some (0, 0) := by
  decide +kernel

theorem witness_DrawImageDecodeFailure : (withImage drawn none).env.decodeAnswers = none :: [] := by decide

/-- An image with a lit and an unlit pixel at scale 1. -/
theorem witness_DrawImageStampsAlphaMask : drawn.fb.wf = true ∧
    (withImage drawn (some image1)).env.decodeAnswers = some image1 :: [] ∧
    127 < (imagePixel (resample image1 2 2) 0 1).a.toNat ∧ ¬127 < (imagePixel (resample image1 2 2) 1 1).a.toNat := by
  decide +kernel

theorem witness_ImageNeverClears : drawn.fb.wf = true ∧ drawn.fb.pix 3 3 = true ∧ inBounds 3 3 = true ∧
    ∃ t, exec (.drawImage 5 2 2 0x0100) drawn = .next t := ⟨by decide, by decide, by decide, _, rfl⟩

theorem witness_BlankTextIsNoOp : ∀ b ∈ [0x09#8, 0x0D#8, 0x20#8], b ∈ [0x09#8, 0x0A#8, 0x0B#8, 0x0C#8, 0x0D#8, 0x20#8] := by
  decide

/-- Bytes next to the whitespace ones are not whitespace. -/
theorem witness_FontFailureEndsText : 0x08#8 ∈ [0x20#8, 0x08#8] ∧
    0x08#8 ∉ [0x09#8, 0x0A#8, 0x0B#8, 0x0C#8, 0x0D#8, 0x20#8] ∧ 0x0E#8 ∉ [0x09#8, 0x0A#8, 0x0B#8, 0x0C#8, 0x0D#8, 0x20#8] ∧
    (withFont drawn false).env.fontAnswers = false :: [] := by decide

theorem witness_DrawTextTransfersCanvas : drawn.fb.wf = true ∧ 0x68#8 ∈ hello ∧
    0x68#8 ∉ [0x09#8, 0x0A#8, 0x0B#8, 0x0C#8, 0x0D#8, 0x20#8] ∧ (withFont drawn true).env.fontAnswers = true :: [] := by decide

/-- Tokens of 0, 1 and 2 bytes, and of one that keeps its longest fit. -/
theorem witness_ShrinkKeepsLongestFit : shrinkLen mono 0 0 [] = 0 ∧ shrinkLen mono 0 0 [0x61] = 1 ∧
    shrinkLen mono 1 0 [0x61, 0x62] = 1 ∧ shrinkLen mono 20 0 [0x61, 0x62, 0x63, 0x64] = 2 := by decide

/-- The fit test at its boundary: cx + w = WRAP fits, WRAP + 1 does not; a one-byte token that does not fit is kept whole. -/
theorem witness_LayoutPass :
    let l : Layout := ⟨18, 5, 0, []⟩
    (18 + mono.textW [0x61, 0x62] : Int) ≤ 30 ∧ (29 : Int) < 18 + mono.textW [0x61, 0x62] ∧
      shrinkLen mono 29 l.cx [0x61, 0x62] = 1 ∧ shrinkLen mono 5 l.cx [0x61] = 1 := by decide

/-- One pass at that boundary: the cursor moves by the word and a space; or to the margin 10, one line of 8 lower. -/
theorem test_layout_pass :
    let l : Layout := ⟨18, 5, 0, []⟩
    let t := layoutLoop mono 10 30 8 1 [[0x61, 0x62]] l
    let u := layoutLoop mono 10 29 8 1 [[0x61, 0x62]] l
    t.cx = 36 ∧ t.cy = 5 ∧ u.cx = 10 ∧ u.cy = 13 ∧ u.maxh = 8 := by decide +kernel

theorem witness_RenderOrsPoints : (layoutStart 0 0).canvas.wf = true ∧ inBounds 0 0 = true := by decide

theorem witness_TransferOrsCanvasBytes : drawn.fb.wf = true ∧ (7 : Nat) < 8 ∧ (127 : Nat) < 128 ∧ (1024 : Nat) ≤ 1024 := by
  decide

theorem witness_Transfer_points : ∀ u v : Int, inBounds u v = true → ((u, v) ∈ ([] : List (Int × Int)) ↔
    Memory.zero.pix u v = true) := by
  intro u v _
  simp [Memory.pix, Memory.zero, Memory.read]

theorem witness_FlushIssuesWholeFrame (s : State) :
    (withSink s (List.replicate 1048 true ++ [false])).env.sinkAnswers = List.replicate 1048 true ++ [false] := rfl

theorem witness_FlushIsIdempotent (s : State) :
    (withSink s (List.replicate 2096 true)).env.sinkAnswers = List.replicate 2096 true ++ [] := (List.append_nil _).symm

theorem witness_InitIssuesSequence (s : State) :
    (withSink s (List.replicate s.cfg.initSeq.length true)).env.sinkAnswers
      = List.replicate s.cfg.initSeq.length true ++ [] := by simp [withSink]

/-- The first and the last transaction of each kind. -/
theorem witness_TransportFailureEndsPacket : 0 < (flushTxns drawn.cfg drawn.fb).length ∧
    1047 < (flushTxns drawn.cfg drawn.fb).length ∧ 24 < (initTxns drawn.cfg).length ∧
    (withSink drawn (List.replicate 24 true ++ [false])).env.sinkAnswers = List.replicate 24 true ++ false :: [] := by
  decide +kernel

theorem witness_StepRunsDecodedPacket : decode (running [0x00000002]).pkt = .ok .clear 1 ∧
    (running [0x00000002]).engine ≠ .halted ∧ (running [0x00000002]).env.turns = [] ∧
    ((running [0x00000002]).withTurns [.engine]).env.turns = .engine :: [] := by decide

theorem witness_StepRunsFetchedWord : decodeTableWord 32 0x00000009 = some .init := by decide

/-- A state in EXEC that meets the invariant, and its step ends in an error. -/
theorem witness_ErrorEntryIsPrecise : (running [0x00000000]).Inv ∧ (running [0x00000000]).engine = .exec ∧
    step (running [0x00000000]) = .next (stepped (running [0x00000000])) ∧
    (stepped (running [0x00000000])).engine = .halted := by
  exact ⟨by constructor <;> decide, by decide, rfl, by decide⟩

/-- The same with a transport error in the middle of a FLUSH. -/
theorem witness_ErrorEntry_transport : (withSink (running [0x00000003]) [true, false]).Inv ∧
    (stepped (withSink (running [0x00000003]) [true, false])).engine = .halted := by
  refine ⟨by constructor <;> decide, by decide +kernel⟩

/-- With room in the FIFO and with none; at both ends of CMD's offsets. -/
theorem witness_HaltedEngineStandsStill : halted.engine = .halted ∧ halted.env.turns = [] ∧
    halted.fifo.length ≠ halted.cfg.fifoDepth ∧
    (let s : State := { halted with cfg := { halted.cfg with fifoDepth := 1 } }; s.fifo.length = s.cfg.fifoDepth) ∧
    0x008 ≤ (0x008#11).toNat ∧ (0x00B#11).toNat < 0x00C := by decide

/-- A block in IDLE or in EXEC whose FIFO is full. -/
def fullIn (e : Engine) : State := { State.reset with engine := e, fifo := [0], cfg := { Config.defaultParams with fifoDepth := 1 } }

/-- R218: DROP is set whatever the engine is doing, and the word is lost. -/
theorem test_drop_any_engine : ∀ e ∈ [Engine.idle, .exec, .halted],
    let t := stepped ((fullIn e).withTurns [.write 0x008 0x00000002])
    t.drop = true ∧ t.fifo = [0] ∧ t.engine = e := by decide

theorem witness_StatusWriteResumes : (halted.withTurns [.write 0x000 0xA]).env.turns = .write 0x000 0xA :: [] ∧
    halted.err = true ∧ (0xA#32).getLsbD 1 = true ∧ drawn.err = false ∧ (0x8#32).getLsbD 1 = false := by decide

theorem witness_FetchKeepsStreamOrder :
    let s : State := { drawn with pkt := [0x00000101], fifo := [0x00030005, 0x00000002] }
    s.engine = .idle ∧ packetComplete s.pkt = false ∧ s.env.turns = [] ∧ s.fifo = 0x00030005 :: [0x00000002] ∧
      drawn.fifo = [] ∧ packetComplete drawn.pkt = false := by decide

/-- A FIFO that just holds the packet. -/
theorem witness_WrittenPacketRuns :
    let i := Instr.drawBox 10 10 20 20 true
    let s : State := { drawn with
      cfg := { drawn.cfg with fifoDepth := 3 }, env := { drawn.env with turns := cmdWrites (encode i) ++ engineTurns 4 } }
    i.wellFormed = true ∧ s.engine = .idle ∧ s.fifo = [] ∧ s.pkt = [] ∧ i.packetWords ≤ s.cfg.fifoDepth ∧
      s.env.turns = cmdWrites (encode i) ++ engineTurns (i.packetWords + 1) := by decide

/-- States that meet the invariant: HALTED with words waiting, EXEC, and IDLE in the middle of a packet. -/
theorem witness_invariant : halted.Inv ∧ (running [0x00000002]).Inv ∧
    (let s : State := { drawn with pkt := [0x00000101], drop := true }; s.Inv) := by
  refine ⟨?_, ?_, ?_⟩ <;> constructor <;> decide

/-- A run from reset with a FIFO of the given depth and the given turns (R253). -/
def run (depth : Nat) (turns : List Turn) : State :=
  { State.reset with
    cfg := { Config.defaultParams with fifoDepth := depth }
    env := { Env.reset with turns := turns } }

/-- The four ends of a run (R253): CLEAR completes; an illegal header is an error; a SET_PIXEL without its word 1 is stuck; a
second word into a FIFO of one is dropped, also when the host clears DROP. Before its last word is written a run goes on. -/
theorem witness_runEnd :
    (run 1 (cmdWrites [0x00000002] ++ engineTurns 2)).runStart ∧
    runEnd 3 (run 1 (cmdWrites [0x00000002] ++ engineTurns 2)) = some .completed ∧
    runEnd 3 (run 1 (cmdWrites [0x00000000] ++ engineTurns 2)) = some .error ∧
    runEnd 2 (run 1 (cmdWrites [0x00000001] ++ engineTurns 1)) = some .stuck ∧
    runEnd 2 (run 1 (cmdWrites [0x00000002, 0x00000003])) = some .dropped ∧
    runEnd 3 (run 1 (cmdWrites [0x00000002, 0x00000003] ++ [.write 0x000 0x8])) = some .dropped ∧
    runEnd 3 (run 1 (cmdWrites [0x00000002] ++ engineTurns 2 ++ cmdWrites [0x00000003])) = none := by
  refine ⟨⟨rfl, by decide⟩, ?_⟩
  decide

/-- P2's shape: an illegal header halts the run, the host clears ERR, and the CLEAR behind it completes (log 30). -/
theorem test_runEnd_resumed :
    let s := run 2 (cmdWrites [0x000000FF, 0x00000002] ++ engineTurns 2 ++ [.write 0x000 0x2] ++ engineTurns 2)
    runEnd 4 s = some .error ∧ runEnd 7 s = some .completed := by decide

theorem witness_StepKeepsInvariant : step halted = .next halted := rfl

/-- FB is changed by SET_PIXEL and by a reset. -/
theorem witness_OnlyDrawingWritesFramebuffer :
    ((stepped (running [0x00000101, 0x00030005])).fb.read 5 ≠ (running [0x00000101, 0x00030005]).fb.read 5) ∧
    ((stepped (drawn.withTurns [.write 0x004 1])).fb.read 3 ≠ drawn.fb.read 3) := by decide

/-- RESULT is changed by GET_PIXEL, by DRAW_TEXT of an empty text, and by a reset. -/
theorem witness_OnlyTwoCommandsWriteResult :
    let s : State := { drawn with pkt := [0x0000000A, 0x00030003], engine := .exec }
    let u : State := { drawn with pkt := [0x00000008, 0, 0, 0], engine := .exec }
    (stepped s).result ≠ s.result ∧ (stepped u).result ≠ u.result ∧
      (stepped (drawn.withTurns [.write 0x004 1])).result ≠ drawn.result := by decide

/-- A step that issues one transaction. -/
theorem witness_SinkLogOnlyGrows :
    (stepped (withSink (running [0x00000009]) [false])).obs.sink = [⟨.cmd, 0xAE, false⟩] := by decide

/-- A CSP read and a STATUS read while a packet runs (BUSY = 1), and an ignored write. -/
theorem witness_WindowMap_turns :
    let s := (running [0x00000002]).withTurns [.read 0x013]
    s.busy = true ∧ s.env.turns = .read 0x013 :: [] ∧ (stepped s).obs.reads = [⟨0x013, 0⟩] ∧
      (stepped (s.withTurns [.read 0x000])).obs.reads = [⟨0x000, 0x00000001⟩] ∧
      (drawn.withTurns [.write 0x00C 1]).env.turns = .write 0x00C 1 :: [] := by decide

theorem witness_FbwinReadsFramebuffer : (255 : Nat) < 256 ∧ (3 : Nat) < 4 ∧ drawn.busy = false ∧
    (drawn.withTurns [.read (BitVec.ofNat 11 (0x400 + 4 * 255 + 3))]).env.turns = .read 0x7FF :: [] := by decide

/-- The boundary offsets of each clause. -/
theorem witness_WindowMap : regAt 0x003 = .status ∧ regAt 0x004 = .ctrl ∧ regAt 0x00B = .cmd ∧ regAt 0x00C = .result ∧
    regAt 0x00F = .result ∧ regAt 0x010 = .csp ∧ regAt 0x013 = .csp ∧ regAt 0x014 = .epkt ∧ regAt 0x017 = .epkt ∧
    regAt 0x018 = .unmapped ∧ regAt 0x3FF = .unmapped ∧ regAt 0x400 = .fbwin 0 ∧ regAt 0x7FF = .fbwin 255 ∧
    drawn.busy = false := by decide

/-- A reset of an idle block, of one in EXEC, and a write that resets nothing. -/
theorem witness_CtrlResetRestoresResetState : (0x1#32).getLsbD 0 = true ∧ (0xFFFFFFFE#32).getLsbD 0 = false ∧
    (halted.withTurns [.write 0x004 1]).env.turns = .write 0x004 1 :: [] ∧ halted.engine ≠ .exec ∧
    (running [0x00000002]).engine = .exec := by decide

theorem witness_ResetAbortsPacket :
    let s := (running [0x00000003]).withTurns [.write 0x004 1]
    s.env.turns = .write 0x004 1 :: [] ∧ (0x1#32).getLsbD 0 = true ∧ s.engine = .exec ∧ decode s.pkt = .ok .flush 1 ∧
      decode (running [0x00000009]).pkt = .ok .init 1 := by decide

theorem witness_ResetReadsZero : 1 ≤ Config.defaultParams.fifoDepth ∧
    1 ≤ (⟨1, 0, 0, 0, []⟩ : Config.Params).fifoDepth := by decide

end Sys2Proof.Tests
end

section
/-! SUPPORT. Proofs about the block's state (10_state.md): the encoder's packet decodes back to its command, a packet written
to CMD runs as its command, what a step can write, and the bits of FB and STATUS. -/

namespace Sys2Proof

/-! ## A header the encoder writes passes MASK and MATCH -/

/-- MATCH is the OPC byte with every other bit 0 (R79). -/
theorem headerMatch_eq_opcByte (op : Opcode) : headerMatch op = (opcByte op).setWidth 32 := by cases op <;> rfl

/-- MASK covers the whole OPC byte (R79). -/
theorem headerMask_opc_bit (op : Opcode) : ∀ i < 8, (headerMask op).getLsbD i = true := by cases op <;> decide

/-- The operands of a header stand in bits that MASK leaves free, or are 0 (R71, R79). -/
def HeaderFits (op : Opcode) (c g : Bool) (u : Nat) : Prop :=
  (c = false ∨ (headerMask op).getLsbD 8 = false) ∧ (g = false ∨ (headerMask op).getLsbD 9 = false) ∧
  (u = 0 ∨ (headerMask op).toNat < 2 ^ 16)

/-- A header whose operands stand in free bits has no reserved bit set (R79). -/
theorem headerReserved_headerWord {op : Opcode} {c g : Bool} {u : Nat} (h : HeaderFits op c g u) :
    headerReserved op (headerWord op c g u) = false := by
  obtain ⟨hc, hg, hu⟩ := h
  have heq : headerWord op c g u &&& headerMask op = headerMatch op := by
    refine BitVec.eq_of_getLsbD_eq fun i hi => ?_
    rw [BitVec.getLsbD_and, headerWord_bit, headerMatch_eq_opcByte, BitVec.getLsbD_setWidth]
    by_cases hopc : i < 8
    · simp [hopc, hi, headerMask_opc_bit op i hopc]
    · rw [if_neg hopc, BitVec.getLsbD_of_ge (opcByte op) i (by omega), Bool.and_false]
      split
      · subst i; exact Bool.and_eq_false_iff.mpr hc
      split
      · subst i; exact Bool.and_eq_false_iff.mpr hg
      split
      · rfl
      rcases hu with rfl | hmask
      · simp
      · have hbit : (headerMask op).getLsbD i = false :=
          Nat.testBit_lt_two_pow (hmask.trans_le (Nat.pow_le_pow_right (by decide) (by omega)))
        rw [hbit, Bool.and_false]
  simp [headerReserved, heq]

/-- A packet whose header fits its opcode decodes to that opcode's operands once its words are there (R78). -/
theorem decode_headerWord_cons {op : Opcode} {c g : Bool} {u n : Nat} {args : List Word} (h : HeaderFits op c g u)
    (hl : opcodeLength op (headerWord op c g u :: args)[2]? = some n) (hn : n ≤ args.length + 1) :
    decode (headerWord op c g u :: args) = .ok (operandsOf op (headerWord op c g u) (headerWord op c g u :: args)) n :=
  decode_cons_ok _ _ op n (headerOpcode_headerWord op c g u) hl hn (headerReserved_headerWord h)

/-! ## Text bytes -/

/-- Past the first word the text bytes are those of the later words (R75). -/
theorem textByte_cons (w : Word) (ws : List Word) (i : Nat) : textByte (w :: ws) (i + 4) = textByte ws i := by
  simp [textByte]

/-- The four bytes of a text word, the lower-addressed byte in the lower bits (R53, R75). -/
theorem textByte_word (b3 b2 b1 b0 : Byte) (ws : List Word) (i : Nat) (hi : i < 4) :
    textByte ((b3 ++ b2 ++ b1 ++ b0 : BitVec 32) :: ws) i = [b0, b1, b2, b3][i] := by
  have hword : textByte ((b3 ++ b2 ++ b1 ++ b0 : BitVec 32) :: ws) i
      = BitVec.extractLsb' (n := 8 + 8 + 8 + 8) (8 * i) 8 (b3 ++ b2 ++ b1 ++ b0) := by
    simp only [textByte, Nat.div_eq_of_lt hi, Nat.mod_eq_of_lt hi, List.getD_cons_zero]
  rw [hword]
  interval_cases i
  · exact (BitVec.extractLsb'_append_eq_of_add_le (by decide)).trans BitVec.extractLsb'_eq_self
  · rw [BitVec.extractLsb'_append_eq_of_le (by decide)]
    exact (BitVec.extractLsb'_append_eq_of_add_le (by decide)).trans BitVec.extractLsb'_eq_self
  · rw [BitVec.extractLsb'_append_eq_of_le (by decide), BitVec.extractLsb'_append_eq_of_le (by decide)]
    exact (BitVec.extractLsb'_append_eq_of_add_le (by decide)).trans BitVec.extractLsb'_eq_self
  · rw [BitVec.extractLsb'_append_eq_of_le (by decide), BitVec.extractLsb'_append_eq_of_le (by decide),
      BitVec.extractLsb'_append_eq_of_le (by decide)]
    exact BitVec.extractLsb'_eq_self

/-- Byte i of a packed text is byte i of the text, whatever words follow (R75). -/
theorem textByte_packText (text : List Byte) (rest : List Word) (i : Nat) (hi : i < text.length) :
    textByte (packText text ++ rest) i = text[i] := by
  match text with
  | [] => simp at hi
  | [b0] =>
    obtain rfl : i = 0 := by simpa using hi
    exact textByte_word 0#8 0#8 0#8 b0 rest 0 (by decide)
  | [b0, b1] =>
    refine (textByte_word 0#8 0#8 b1 b0 rest i (by simp at hi; omega)).trans ?_
    exact List.getElem_append_left (as := [b0, b1]) (bs := [0#8, 0#8]) hi
  | [b0, b1, b2] =>
    refine (textByte_word 0#8 b2 b1 b0 rest i (by simp at hi; omega)).trans ?_
    exact List.getElem_append_left (as := [b0, b1, b2]) (bs := [0#8]) hi
  | b0 :: b1 :: b2 :: b3 :: more =>
    by_cases hlt : i < 4
    · refine (textByte_word b3 b2 b1 b0 (packText more ++ rest) i hlt).trans ?_
      exact (List.getElem_append_left (as := [b0, b1, b2, b3]) (bs := more) hlt).symm
    · obtain ⟨j, rfl⟩ : ∃ j, i = j + 4 := ⟨i - 4, by omega⟩
      rw [packText, List.cons_append, textByte_cons, textByte_packText more rest j (by simpa using hi)]
      rfl

/-- Unpacking a packed text gives it back, whatever words follow (R75). -/
theorem unpackText_packText (text : List Byte) (rest : List Word) :
    unpackText text.length (packText text ++ rest) = text := by
  refine List.ext_getElem (by simp [unpackText]) fun i _ hi => ?_
  simp [unpackText, textByte_packText text rest i hi]

/-! ## Decode of encode -/

/-- Every command with its operands in range decodes back from its packet, whatever follows it in the stream. -/
theorem decode_encode_append (i : Instr) (rest : List Word) (h : i.wellFormed = true) :
    decode (encode i ++ rest) = .ok i i.packetWords := by
  cases i with
  | setPixel x y on =>
    simp only [Instr.wellFormed, Bool.and_eq_true] at h
    simp only [encode, List.cons_append, List.nil_append]
    rw [decode_headerWord_cons (n := 2) ⟨.inr rfl, .inl rfl, .inl rfl⟩ rfl (by simp)]
    simp only [operandsOf, headerWord_colour, List.getD_cons_succ, List.getD_cons_zero, sext16At_coordWord_low,
      sext16At_coordWord_high, h, Instr.packetWords]
  | clear => exact decode_headerWord_cons (n := 1) ⟨.inl rfl, .inl rfl, .inl rfl⟩ rfl (by simp)
  | flush => exact decode_headerWord_cons (n := 1) ⟨.inl rfl, .inl rfl, .inl rfl⟩ rfl (by simp)
  | drawBox x1 y1 x2 y2 on =>
    simp only [Instr.wellFormed, Bool.and_eq_true] at h
    simp only [encode, List.cons_append, List.nil_append]
    rw [decode_headerWord_cons (n := 3) ⟨.inr rfl, .inl rfl, .inl rfl⟩ rfl (by simp)]
    simp only [operandsOf, headerWord_colour, List.getD_cons_succ, List.getD_cons_zero, sext16At_coordWord_low,
      sext16At_coordWord_high, h, Instr.packetWords]
  | drawCircle cx cy diam on =>
    simp only [Instr.wellFormed, Bool.and_eq_true] at h
    simp only [encode, List.cons_append, List.nil_append]
    rw [decode_headerWord_cons (n := 2) ⟨.inr rfl, .inl rfl, .inr (by decide)⟩ rfl (by simp)]
    simp only [operandsOf, headerWord_colour, headerWord_size, List.getD_cons_succ, List.getD_cons_zero,
      sext16At_coordWord_low, sext16At_coordWord_high, h, Instr.packetWords]
  | drawLine x1 y1 x2 y2 on thick =>
    simp only [Instr.wellFormed, Bool.and_eq_true] at h
    simp only [encode, List.cons_append, List.nil_append]
    rw [decode_headerWord_cons (n := 3) ⟨.inr rfl, .inl rfl, .inr (by decide)⟩ rfl (by simp)]
    simp only [operandsOf, headerWord_colour, headerWord_size, List.getD_cons_succ, List.getD_cons_zero,
      sext16At_coordWord_low, sext16At_coordWord_high, h, Instr.packetWords]
  | drawImage handle xo yo scale =>
    simp only [Instr.wellFormed, Bool.and_eq_true] at h
    simp only [encode, List.cons_append, List.nil_append]
    rw [decode_headerWord_cons (n := 3) ⟨.inl rfl, .inl rfl, .inr (by decide)⟩ rfl (by simp)]
    simp only [operandsOf, headerWord_size, List.getD_cons_succ, List.getD_cons_zero, sext16At_coordWord_low,
      sext16At_coordWord_high, h, Instr.packetWords]
  | drawText x y wrap size font g text =>
    simp only [Instr.wellFormed, Bool.and_eq_true] at h
    have hlen : opcodeLength .drawText (some (sizeWord text.length size)) = some (textPacketLength text.length) := by
      simp only [opcodeLength, zext16At_sizeWord_low, h]
    simp only [encode, List.cons_append, List.nil_append]
    rw [decode_headerWord_cons ⟨.inl rfl, .inr rfl, .inr (by decide)⟩ hlen
      (by simp [textPacketLength, packText_length]; omega)]
    simp only [operandsOf, headerWord_mode, headerWord_size, List.getD_cons_succ, List.getD_cons_zero,
      sext16At_coordWord_low, sext16At_coordWord_high, zext16At_sizeWord_low, zext16At_sizeWord_high, List.drop_succ_cons,
      List.drop_zero, unpackText_packText, h, Instr.packetWords]
  | init => exact decode_headerWord_cons (n := 1) ⟨.inl rfl, .inl rfl, .inl rfl⟩ rfl (by simp)
  | getPixel x y =>
    simp only [Instr.wellFormed, Bool.and_eq_true] at h
    simp only [encode, List.cons_append, List.nil_append]
    rw [decode_headerWord_cons (n := 2) ⟨.inl rfl, .inl rfl, .inl rfl⟩ rfl (by simp)]
    simp only [operandsOf, List.getD_cons_succ, List.getD_cons_zero, sext16At_coordWord_low, sext16At_coordWord_high, h,
      Instr.packetWords]

/-- Words that do not reach the length of the packet they begin are no complete packet (R39, R82). -/
theorem packetComplete_of_shorter {ws more : List Word} {n : Nat} (h : packetLength (ws ++ more) = some n)
    (hn : ws.length < n) : packetComplete ws = false := by
  cases hl : packetLength ws with
  | none => simp [packetComplete, hl]
  | some m =>
    obtain rfl : m = n := by simpa using (packetLength_append hl more).symm.trans h
    simpa [packetComplete, hl] using hn

end Sys2Proof

namespace Sys2Proof.Machine

/-! ## Runs, move by move -/

/-- With no turn planned the engine moves (R60). -/
theorem step_of_no_turns {s : State} (h : s.env.turns = []) : step s = engineStep s := by simp only [step, h]

/-- The engine's turn is used up by the engine's move (R60). -/
theorem step_of_engine_turn {s : State} {rest : List Turn} (h : s.env.turns = .engine :: rest) :
    step s = engineStep (s.withTurns rest) := by simp only [step, h]

/-- A run of one step is that step. -/
theorem runSteps_one (s : State) : runSteps 1 s = step s := by
  simp only [runSteps]
  split <;> simp [*]

/-- The first step of a run, when it answers a next state. -/
theorem runSteps_succ {s t : State} (h : step s = .next t) (k : Nat) : runSteps (k + 1) s = runSteps k t := by
  simp only [runSteps, h]

/-- IDLE with an incomplete packet: the engine fetches (R39). -/
theorem engineStep_fetches {s : State} (hi : s.engine = .idle) (hc : packetComplete s.pkt = false) :
    engineStep s = .next (fetchWord s) := by simp [engineStep, hi, hc]

/-- An empty FIFO leaves the engine waiting (R247). -/
theorem fetchWord_empty {s : State} (h : s.fifo = []) : fetchWord s = s := by simp only [fetchWord, h]

/-- The head of the FIFO goes to the end of the packet buffer (R38, R39). -/
theorem fetchWord_cons {s : State} {w : Word} {rest : List Word} (h : s.fifo = w :: rest) :
    fetchWord s = { s with
      fifo := rest
      pkt := s.pkt ++ [w]
      engine := if packetComplete (s.pkt ++ [w]) then .exec else s.engine } := by simp only [fetchWord, h]

/-- A word written to CMD while the FIFO has room is appended (R33). -/
theorem step_cmdWrite {s : State} {w : Word} {rest : List Turn} (ht : s.env.turns = .write cmdOffset w :: rest)
    (hroom : s.fifo.length < s.cfg.fifoDepth) :
    step s = .next { s.withTurns rest with fifo := s.fifo ++ [w] } := by
  have hfull : (s.withTurns rest).full = false := by simp [State.full]; omega
  have hcmd : regAt cmdOffset = .cmd := by decide
  simp [step, ht, hostWrite, hcmd, cmdWrite, hfull]

/-- Words written to CMD one after the other, with room for all of them, stand in the FIFO in order (R33, R38). -/
theorem runSteps_cmdWrites (ws : List Word) (s : State) (rest : List Turn) (k : Nat)
    (ht : s.env.turns = cmdWrites ws ++ rest) (hroom : s.fifo.length + ws.length ≤ s.cfg.fifoDepth) :
    runSteps (ws.length + k) s = runSteps k { s.withTurns rest with fifo := s.fifo ++ ws } := by
  induction ws generalizing s with
  | nil =>
    have hs : { s.withTurns rest with fifo := s.fifo ++ [] } = s := by
      simp only [cmdWrites, List.map_nil, List.nil_append] at ht
      simp [State.withTurns, ← ht]
    rw [hs, List.length_nil, Nat.zero_add]
  | cons w ws ih =>
    simp only [List.length_cons] at hroom
    have hstep := step_cmdWrite (s := s) (w := w) (rest := cmdWrites ws ++ rest) ht (by omega)
    rw [List.length_cons, Nat.add_right_comm, runSteps_succ hstep, ih _ rfl (by simp; omega)]
    simp [State.withTurns]

/-- The engine's turn while a packet is incomplete and a word waits: the word is fetched (R38, R39). -/
theorem step_fetch {s : State} {w : Word} {ws : List Word} {rest : List Turn} (hi : s.engine = .idle)
    (hc : packetComplete s.pkt = false) (hf : s.fifo = w :: ws) (ht : s.env.turns = .engine :: rest) :
    step s = .next { s.withTurns rest with
      fifo := ws
      pkt := s.pkt ++ [w]
      engine := if packetComplete (s.pkt ++ [w]) then .exec else .idle } := by
  have hf' : (s.withTurns rest).fifo = w :: ws := hf
  rw [step_of_engine_turn ht, engineStep_fetches (s := s.withTurns rest) hi hc, fetchWord_cons hf']
  simp [hi]

/-- The engine fetches the rest of a packet word by word, and is in EXEC on it after the last word (R38, R39). -/
theorem runSteps_fetches (ws : List Word) (s : State) (rest : List Turn) (k : Nat) (hne : ws ≠ [])
    (hi : s.engine = .idle) (hf : s.fifo = ws) (hl : packetLength (s.pkt ++ ws) = some (s.pkt ++ ws).length)
    (ht : s.env.turns = engineTurns ws.length ++ rest) :
    runSteps (ws.length + k) s
      = runSteps k { s.withTurns rest with fifo := [], pkt := s.pkt ++ ws, engine := .exec } := by
  induction ws generalizing s with
  | nil => exact absurd rfl hne
  | cons w ws ih =>
    have hc : packetComplete s.pkt = false := packetComplete_of_shorter hl (by simp)
    have hstep := step_fetch (rest := engineTurns ws.length ++ rest) hi hc hf ht
    rw [List.length_cons, Nat.add_right_comm, runSteps_succ hstep]
    have hassoc : s.pkt ++ w :: ws = (s.pkt ++ [w]) ++ ws := by simp
    rw [hassoc] at hl ⊢
    rcases eq_or_ne ws [] with rfl | hws
    · have hdone : packetComplete (s.pkt ++ [w]) = true := by
        rw [List.append_nil] at hl
        simp [packetComplete, hl]
      simp [hdone, engineTurns, State.withTurns]
    · have hmore : packetComplete (s.pkt ++ [w]) = false :=
        packetComplete_of_shorter hl (by simpa using List.length_pos_iff.mpr hws)
      rw [ih _ hws (by simp [hmore]) rfl hl rfl]
      simp [State.withTurns]

/-! ## A packet written to CMD runs -/

/-- The engine's move in EXEC runs the packet that decodes to a command (R86). -/
theorem engineStep_exec {s : State} {i : Instr} {n : Nat} (he : s.engine = .exec) (hd : decode s.pkt = .ok i n) :
    engineStep s = exec i s := by simp only [engineStep, he, runPacket, hd]

/-- Settles O48: n CMD writes fill the FIFO, n engine moves bring the packet to EXEC, and it decodes to its command. -/
theorem writtenPacketRuns : Obligations.WrittenPacketRuns := by
  unfold Obligations.WrittenPacketRuns
  intro i s hwf hi hf hp hroom ht
  have hdec : decode (encode i) = .ok i i.packetWords := by simpa using decode_encode_append i [] hwf
  obtain ⟨hlen, -, -⟩ := decode_ok_length hdec
  have hsplit : s.env.turns = cmdWrites (encode i) ++ (engineTurns (encode i).length ++ [.engine]) := by
    rw [ht, encode_length, engineTurns, engineTurns, List.replicate_succ']
  have hne : encode i ≠ [] := List.ne_nil_of_length_pos (by rw [encode_length]; exact (packetLength_le hlen).1)
  have hcount : 2 * i.packetWords + 1 = (encode i).length + ((encode i).length + 1) := by rw [encode_length]; omega
  have hfetch := runSteps_fetches (encode i)
    { s.withTurns (engineTurns (encode i).length ++ [.engine]) with fifo := s.fifo ++ encode i } [.engine] 1 hne hi
    (by simp [hf]) (by simpa [hp, encode_length] using hlen) rfl
  rw [hcount, runSteps_cmdWrites _ s _ _ hsplit (by rw [hf, encode_length]; simpa using hroom), hfetch, runSteps_one,
    step_of_engine_turn (rest := []) rfl, engineStep_exec rfl (by simpa [hp] using hdec)]
  simp [State.withTurns, hp, hf]

/-! ## The engine fetches a word -/

/-- Settles O47: the engine's move is the fetch, which takes the head of the FIFO or waits for one. -/
theorem fetchKeepsStreamOrder : Obligations.FetchKeepsStreamOrder := by
  unfold Obligations.FetchKeepsStreamOrder
  intro s hi hc ht
  have hstep : step s = .next (fetchWord s) := by rw [step_of_no_turns ht, engineStep_fetches hi hc]
  refine ⟨fun hf => by rw [hstep, fetchWord_empty hf], fun w rest hf => ⟨fetchWord s, hstep, ?_⟩⟩
  rw [fetchWord_cons hf]
  by_cases hdone : packetComplete (s.pkt ++ [w]) = true <;> simp [hdone, hf, hi]

/-! ## The invariant -/

/-- Settles O50: each kind of turn keeps the invariant, by the lemma of its move. -/
theorem stepKeepsInvariant : Obligations.StepKeepsInvariant := by
  unfold Obligations.StepKeepsInvariant
  intro s t hinv hs
  rcases step_cases hs with ⟨-, hmove⟩ | ⟨offset, w, rest, -, rfl⟩ | ⟨offset, rest, -, rfl⟩
  · exact (hinv.withTurns _).engineStep hmove
  · exact (hinv.withTurns rest).hostWrite offset w
  · exact (hinv.withTurns rest).hostRead offset

/-! ## What a command does to the block -/

/-- Settles O43: a command retires or raises an error on a state that differs from the first only outside the block. -/
theorem everyCommandConsumesItsPacket : Obligations.EveryCommandConsumesItsPacket := by
  unfold Obligations.EveryCommandConsumesItsPacket
  intro i s
  obtain ⟨u, t, hx, ⟨⟨env, obs, rfl⟩, -⟩, hend⟩ := exec_cases i s
  refine ⟨t, hx, ?_⟩
  rcases hend with ⟨fb, r, rfl, -⟩ | ⟨c, rfl, -⟩ <;> simp [encode_length]

/-- FB and RESULT changed from s to t only as the command i may change them (R20, R34). -/
def WritesAllowed (i : Instr) (s t : State) : Prop :=
  (t.fb ≠ s.fb → i.opcode ∈ [.setPixel, .clear, .drawBox, .drawCircle, .drawLine, .drawImage, .drawText]) ∧
  (t.result ≠ s.result → t.engine = .idle ∧ i.opcode ∈ [.getPixel, .drawText])

/-- A command writes FB and RESULT only if its opcode may, and RESULT only when it completes without an error. -/
theorem exec_writesAllowed {i : Instr} {s t : State} (hx : exec i s = .next t) : WritesAllowed i s t := by
  obtain ⟨u, t', hx', ⟨⟨env, obs, rfl⟩, -⟩, hend⟩ := exec_cases i s
  obtain rfl : t' = t := by simpa using hx'.symm.trans hx
  rcases hend with ⟨fb, r, rfl, -, hfb, hr⟩ | ⟨c, rfl, -⟩
  · exact ⟨hfb, fun hne => ⟨rfl, hr hne⟩⟩
  · exact ⟨fun hne => absurd rfl hne, fun hne => absurd rfl hne⟩

/-- The engine's move leaves FB and RESULT, or runs a command that may write them. -/
theorem engineStep_writes {s t : State} (h : engineStep s = .next t) :
    (t.fb = s.fb ∧ t.result = s.result) ∨
    (s.engine ≠ .halted ∧ ∃ i n, decode s.pkt = .ok i n ∧ WritesAllowed i s t) := by
  rcases engineStep_cases s with ⟨-, h2⟩ | ⟨he, i, n, hd, h2⟩ | ⟨-, c, n, -, h2⟩ | ⟨-, -, h2⟩ | ⟨-, -, h2⟩ <;>
    rw [h2] at h
  · cases h; exact .inl ⟨rfl, rfl⟩
  · exact .inr ⟨he, i, n, hd, exec_writesAllowed (s := { s with engine := .exec }) h⟩
  · cases h; exact .inl ⟨rfl, rfl⟩
  · cases h
  · cases h
    obtain ⟨fifo, pkt, engine, hf⟩ := fetchWord_frame s
    exact .inl ⟨by rw [hf], by rw [hf]⟩

/-- A step leaves FB and RESULT, or is the move of the engine that runs a command which may write them, or a reset. -/
theorem step_writes {s t : State} (hs : step s = .next t) :
    (t.fb = s.fb ∧ t.result = s.result) ∨
    (s.engineNext ∧ s.engine ≠ .halted ∧ ∃ i n, decode s.pkt = .ok i n ∧ WritesAllowed i s t) ∨
    (∃ offset w rest, s.env.turns = .write offset w :: rest ∧ regAt offset = .ctrl ∧ w.getLsbD 0 = true) := by
  rcases step_cases hs with ⟨hn, hmove⟩ | ⟨offset, w, rest, ht, rfl⟩ | ⟨offset, rest, -, rfl⟩
  · rcases engineStep_writes hmove with hsame | ⟨he, hcmd⟩
    · exact .inl hsame
    · exact .inr (.inl ⟨hn, he, hcmd⟩)
  · rcases hostWrite_cases offset w (s.withTurns rest) with ⟨ho, hw, -⟩ | ⟨_, _, _, _, _, hf⟩
    · exact .inr (.inr ⟨offset, w, rest, ht, ho, hw⟩)
    · exact .inl ⟨by rw [hf]; rfl, by rw [hf]; rfl⟩
  · obtain ⟨env, reads, hf⟩ := hostRead_frame offset (s.withTurns rest)
    exact .inl ⟨by rw [hf]; rfl, by rw [hf]; rfl⟩

/-- Settles O52, by what a step writes. -/
theorem onlyDrawingWritesFramebuffer : Obligations.OnlyDrawingWritesFramebuffer := by
  unfold Obligations.OnlyDrawingWritesFramebuffer
  intro s t a hs hne
  have hfb : t.fb ≠ s.fb := fun heq => hne (by rw [heq])
  rcases step_writes hs with ⟨hsame, -⟩ | ⟨hn, he, i, n, hd, hop, -⟩ | hreset
  · exact absurd hsame hfb
  · exact .inl ⟨hn, he, i, n, hd, hop hfb⟩
  · exact .inr hreset

/-- Settles O53, by what a step writes. -/
theorem onlyTwoCommandsWriteResult : Obligations.OnlyTwoCommandsWriteResult := by
  unfold Obligations.OnlyTwoCommandsWriteResult
  intro s t hs hne
  rcases step_writes hs with ⟨-, hsame⟩ | ⟨hn, he, i, n, hd, -, hop⟩ | hreset
  · exact absurd hsame hne
  · obtain ⟨hidle, hi⟩ := hop hne
    exact .inl ⟨hn, he, hidle, i, n, hd, hi⟩
  · exact .inr hreset

/-! ## Pixels -/

/-- Every bit of the framebuffer is an in-bounds pixel: x = i mod 128, y = (i div 128) × 8 + b (R21). -/
theorem exists_pixel_of_bit {i b : Nat} (hi : i < 1024) (hb : b < 8) :
    ∃ x y : Int, inBounds x y = true ∧ pixIndex x y = i ∧ pixBit y = b :=
  ⟨(i % 128 : Nat), (i / 128 * 8 + b : Nat), by rw [inBounds_iff]; omega,
    by simp only [pixIndex, Int.toNat_natCast]; omega, by simp only [pixBit, Int.toNat_natCast]; omega⟩

/-- Settles O10: every bit has a pixel, and `pixel_inj` says that it has no other. -/
theorem pixelMapBijective : Obligations.PixelMapBijective := by
  unfold Obligations.PixelMapBijective
  refine ⟨fun x y hxy => ⟨rfl, pixIndex_lt hxy, rfl, pixBit_lt y⟩, fun i b hi hb => ?_⟩
  obtain ⟨x, y, hxy, hidx, hbit⟩ := exists_pixel_of_bit hi hb
  exact ⟨x, y, hxy, hidx, hbit,
    fun u v huv hi' hb' => pixel_inj huv hxy (hi'.trans hidx.symm) (hb'.trans hbit.symm)⟩

/-! ## STATUS -/

/-- BUSY is EXEC, or a word in the FIFO or in the packet buffer (R27). -/
theorem State.busy_iff (s : State) : s.busy = true ↔ s.engine = .exec ∨ s.fifo ≠ [] ∨ s.pkt ≠ [] := by
  simp [State.busy, or_assoc]

/-- FULL is CMD_FIFO_DEPTH words in the FIFO (R29). -/
theorem State.full_iff (s : State) : s.full = true ↔ s.fifo.length = s.cfg.fifoDepth := by simp [State.full]

/-- Bit k of STATUS, by its field (R26). -/
theorem State.statusWord_bit (s : State) (k : Nat) : s.statusWord.getLsbD k =
    if k = 0 then s.busy else if k = 1 then s.err else if k = 2 then s.full else if k = 3 then s.drop
    else if k < 8 then false else if k < 12 then s.ecode.getLsbD (k - 8) else false := by
  change BitVec.getLsbD (w := 20 + 4 + 4 + 1 + 1 + 1 + 1)
    (0#20 ++ s.ecode ++ 0#4 ++ BitVec.ofBool s.drop ++ BitVec.ofBool s.full ++ BitVec.ofBool s.err
      ++ BitVec.ofBool s.busy) k = _
  simp only [BitVec.getLsbD_append]
  rcases (by omega : k = 0 ∨ k = 1 ∨ k = 2 ∨ k = 3 ∨ 4 ≤ k) with rfl | rfl | rfl | rfl | hk
  · simp
  · simp
  · simp
  · simp
  · have hsub : k - 1 - 1 - 1 - 1 - 4 = k - 8 := by omega
    rcases (by omega : k < 8 ∨ 8 ≤ k ∧ k < 12 ∨ 12 ≤ k) with h | ⟨h8, h12⟩ | h
    · simp (disch := omega) only [if_pos, if_neg, BitVec.getLsbD_zero]
    · simp (disch := omega) only [if_pos, if_neg, hsub]
    · simp (disch := omega) only [if_neg, BitVec.getLsbD_zero]

/-- Settles O55, by the bits of the STATUS word. -/
theorem statusWordBits : Obligations.StatusWordBits := by
  unfold Obligations.StatusWordBits
  intro s
  refine ⟨?_, s.statusWord_bit 1, ?_, s.statusWord_bit 3, ?_, fun k hk => ?_⟩
  · rw [s.statusWord_bit 0]; exact s.busy_iff
  · rw [s.statusWord_bit 2]; exact s.full_iff
  · ext i hi
    rw [BitVec.getElem_extractLsb', s.statusWord_bit, ← BitVec.getLsbD_eq_getElem hi]
    simp (disch := omega) only [if_pos, if_neg, Nat.add_sub_cancel_left]
  · rw [s.statusWord_bit]
    rcases hk with ⟨hlow, hhigh⟩ | hhigh <;> simp (disch := omega) only [if_pos, if_neg]

end Sys2Proof.Machine
end

section
/-! SUPPORT. Proofs about the host's window (20_memory.md): which register stands at an offset, what a read returns and leaves
unchanged, which writes are ignored, and the bytes of a word of FBWIN. -/

namespace Sys2Proof.Machine

/-! ## The register at an offset -/

/-- The offsets of one word of the window name one register (R54). -/
theorem regAt_congr {a b : BitVec 11} (h : a.toNat / 4 = b.toNat / 4) : regAt a = regAt b := by simp only [regAt, h]

/-- The mask 0x7FC clears bits 1:0 of an offset and keeps its word (R54). -/
theorem toNat_and_wordMask (a : BitVec 11) : (a &&& 0x7FC#11).toNat / 4 = a.toNat / 4 := by
  have hword (n : Nat) : n / 4 = n >>> 2 := (Nat.shiftRight_eq_div_pow n 2).symm
  have hmask : (0x7FC#11).toNat >>> 2 = 2 ^ 9 - 1 := rfl
  rw [BitVec.toNat_and, hword, Nat.shiftRight_and_distrib, hmask, Nat.and_two_pow_sub_one_eq_mod, ← hword]
  exact Nat.mod_eq_of_lt (by omega)

theorem regAt_status {a : BitVec 11} (h : a.toNat < 0x004) : regAt a = .status := by
  simp only [regAt, show a.toNat / 4 = 0 by omega]

theorem regAt_ctrl {a : BitVec 11} (hl : 0x004 ≤ a.toNat) (hh : a.toNat < 0x008) : regAt a = .ctrl := by
  simp only [regAt, show a.toNat / 4 = 1 by omega]

theorem regAt_cmd {a : BitVec 11} (hl : 0x008 ≤ a.toNat) (hh : a.toNat < 0x00C) : regAt a = .cmd := by
  simp only [regAt, show a.toNat / 4 = 2 by omega]

theorem regAt_result {a : BitVec 11} (hl : 0x00C ≤ a.toNat) (hh : a.toNat < 0x010) : regAt a = .result := by
  simp only [regAt, show a.toNat / 4 = 3 by omega]

theorem regAt_csp {a : BitVec 11} (hl : 0x010 ≤ a.toNat) (hh : a.toNat < 0x014) : regAt a = .csp := by
  simp only [regAt, show a.toNat / 4 = 4 by omega]

theorem regAt_epkt {a : BitVec 11} (hl : 0x014 ≤ a.toNat) (hh : a.toNat < 0x018) : regAt a = .epkt := by
  simp only [regAt, show a.toNat / 4 = 5 by omega]

/-- Past EPKT stand unmapped words, and from word 256 of the window on those of FBWIN (R55). -/
theorem regAt_of_epkt_lt {a : BitVec 11} (h : 0x018 ≤ a.toNat) :
    regAt a = if 256 ≤ a.toNat / 4 then .fbwin (a.toNat / 4 - 256) else .unmapped := by
  unfold regAt
  split
  case h_7 => rfl
  all_goals omega

theorem regAt_unmapped {a : BitVec 11} (hl : 0x018 ≤ a.toNat) (hh : a.toNat < 0x400) : regAt a = .unmapped := by
  rw [regAt_of_epkt_lt hl, if_neg (by omega)]

theorem regAt_fbwin {a : BitVec 11} (h : 0x400 ≤ a.toNat) : regAt a = .fbwin ((a.toNat - 0x400) / 4) := by
  rw [regAt_of_epkt_lt (by omega), if_pos (by omega), show a.toNat / 4 - 256 = (a.toNat - 0x400) / 4 by omega]

/-! ## What a read returns -/

@[simp] theorem readValue_status (s : State) : readValue .status s = s.statusWord := rfl
@[simp] theorem readValue_ctrl (s : State) : readValue .ctrl s = 0#32 := rfl
@[simp] theorem readValue_cmd (s : State) : readValue .cmd s = 0#32 := rfl
@[simp] theorem readValue_csp (s : State) : readValue .csp s = s.csp := rfl
@[simp] theorem readValue_epkt (s : State) : readValue .epkt s = s.epkt := rfl
@[simp] theorem readValue_unmapped (s : State) : readValue .unmapped s = 0#32 := rfl

/-- No read is unspecified while BUSY = 0 (R246). -/
theorem readUnspecified_of_not_busy (r : Reg) {s : State} (h : s.busy = false) : readUnspecified r s = false := by
  cases r
  case result => exact h
  case fbwin => exact h
  all_goals rfl

/-- Only RESULT and FBWIN, and only while BUSY = 1, read an unspecified value (R34, R52, R246). -/
theorem readUnspecified_eq_false {a : BitVec 11} {s : State}
    (h : s.busy = false ∨ a.toNat < 0x00C ∨ 0x010 ≤ a.toNat ∧ a.toNat < 0x400) :
    readUnspecified (regAt a) s = false := by
  rcases h with hbusy | hh | ⟨hl, hh⟩
  · exact readUnspecified_of_not_busy _ hbusy
  · rcases (by omega : a.toNat < 0x004 ∨ 0x004 ≤ a.toNat ∧ a.toNat < 0x008 ∨ 0x008 ≤ a.toNat) with h | ⟨h, h'⟩ | h
    · rw [regAt_status h]; rfl
    · rw [regAt_ctrl h h']; rfl
    · rw [regAt_cmd h hh]; rfl
  · rcases (by omega : a.toNat < 0x014 ∨ 0x014 ≤ a.toNat ∧ a.toNat < 0x018 ∨ 0x018 ≤ a.toNat) with h | ⟨h, h'⟩ | h
    · rw [regAt_csp hl h]; rfl
    · rw [regAt_epkt h h']; rfl
    · rw [regAt_unmapped h hh]; rfl

/-- RESULT reads exactly while BUSY = 0 (R34). -/
theorem readValue_result {s : State} (h : s.busy = false) : readValue .result s = s.result := by
  simp [readValue, readUnspecified, h]

/-- A word of FBWIN reads exactly while BUSY = 0 (R52). -/
theorem readValue_fbwin (k : Nat) {s : State} (h : s.busy = false) : readValue (.fbwin k) s = fbWord s.fb k := by
  simp [readValue, readUnspecified, h]

/-- Byte b of a word of FBWIN, the lower byte in the lower bits (R52, R53). -/
theorem fbWord_byte (m : Memory) (k b : Nat) (hb : b < 4) : (fbWord m k).extractLsb' (8 * b) 8 = m.read (4 * k + b) := by
  have htext : (fbWord m k).extractLsb' (8 * b) 8 = textByte [fbWord m k] b := by
    simp only [textByte, Nat.div_eq_of_lt hb, Nat.mod_eq_of_lt hb, List.getD_cons_zero]
  rw [htext, fbWord, textByte_word _ _ _ _ [] b hb]
  interval_cases b <;> rfl

/-! ## The host's moves -/

/-- The host's read: the value is seen, a free value is used up where the read is unspecified, and the block stays (R56). -/
theorem step_read {s : State} {a : BitVec 11} {rest : List Turn} (ht : s.env.turns = .read a :: rest) :
    step s = .next { s with
      env := { s.env with
        turns := rest
        draws := if readUnspecified (regAt a) s then s.env.draws + 1 else s.env.draws }
      obs := { s.obs with reads := s.obs.reads ++ [⟨a, readValue (regAt a) s⟩] } } := by
  have hfree : readUnspecified (regAt a) (s.withTurns rest) = readUnspecified (regAt a) s := rfl
  simp only [step, ht, hostRead, hfree]
  split <;> rfl

/-- The host's write does what the write of its register does (R60). -/
theorem step_write {s : State} {a : BitVec 11} {w : Word} {rest : List Turn} (ht : s.env.turns = .write a w :: rest) :
    step s = .next (hostWrite a w (s.withTurns rest)) := by simp only [step, ht]

/-- From RESULT on every write of the window is ignored (R25, R55, R56). -/
theorem hostWrite_of_cmd_lt {a : BitVec 11} (h : 0x00C ≤ a.toNat) (w : Word) (s : State) : hostWrite a w s = s := by
  unfold hostWrite
  rcases (by omega : a.toNat < 0x010 ∨ 0x010 ≤ a.toNat ∧ a.toNat < 0x014 ∨ 0x014 ≤ a.toNat ∧ a.toNat < 0x018 ∨
    0x018 ≤ a.toNat ∧ a.toNat < 0x400 ∨ 0x400 ≤ a.toNat) with hh | ⟨hl, hh⟩ | ⟨hl, hh⟩ | ⟨hl, hh⟩ | hl
  · rw [regAt_result h hh]
  · rw [regAt_csp hl hh]
  · rw [regAt_epkt hl hh]
  · rw [regAt_unmapped hl hh]
  · rw [regAt_fbwin hl]

/-! ## The obligations -/

/-- Settles O56: the offset names word k of FBWIN, whose bytes `fbWord_byte` gives. -/
theorem fbwinReadsFramebuffer : Obligations.FbwinReadsFramebuffer := by
  unfold Obligations.FbwinReadsFramebuffer
  intro s k j rest hk hj hbusy hturn
  have hoff : (BitVec.ofNat 11 (0x400 + 4 * k + j)).toNat = 0x400 + 4 * k + j :=
    (BitVec.toNat_ofNat _ _).trans (Nat.mod_eq_of_lt (by omega))
  have hreg : regAt (BitVec.ofNat 11 (0x400 + 4 * k + j)) = .fbwin k := by
    rw [regAt_fbwin (by omega), hoff, show (0x400 + 4 * k + j - 0x400) / 4 = k by omega]
  refine ⟨fbWord s.fb k, ?_, fun b hb => fbWord_byte s.fb k b hb⟩
  rw [step_read hturn, hreg, readUnspecified_of_not_busy _ hbusy, readValue_fbwin k hbusy]
  rfl

/-- Settles O57: each range of offsets names one register, and a step's turn is that register's read or write. -/
theorem windowMap : Obligations.WindowMap := by
  unfold Obligations.WindowMap
  intro a w s
  have hstatus (h : a.toNat < 0x004) : readValue (regAt a) s = s.statusWord := by rw [regAt_status h, readValue_status]
  have hzero (hl : 0x004 ≤ a.toNat) (hh : a.toNat < 0x00C) : readValue (regAt a) s = 0#32 := by
    rcases Nat.lt_or_ge a.toNat 0x008 with h | h
    · rw [regAt_ctrl hl h, readValue_ctrl]
    · rw [regAt_cmd h hh, readValue_cmd]
  have hresult (hl : 0x00C ≤ a.toNat) (hh : a.toNat < 0x010) (hb : s.busy = false) :
      readValue (regAt a) s = s.result := by rw [regAt_result hl hh, readValue_result hb]
  have hcsp (hl : 0x010 ≤ a.toNat) (hh : a.toNat < 0x014) : readValue (regAt a) s = s.csp := by
    rw [regAt_csp hl hh, readValue_csp]
  have hepkt (hl : 0x014 ≤ a.toNat) (hh : a.toNat < 0x018) : readValue (regAt a) s = s.epkt := by
    rw [regAt_epkt hl hh, readValue_epkt]
  have hunmapped (hl : 0x018 ≤ a.toNat) (hh : a.toNat < 0x400) : readValue (regAt a) s = 0#32 := by
    rw [regAt_unmapped hl hh, readValue_unmapped]
  refine ⟨regAt_congr (toNat_and_wordMask a).symm,
    fun ⟨hl, hh⟩ => ⟨hunmapped hl hh, hostWrite_of_cmd_lt (by omega) w s⟩, regAt_fbwin,
    fun h => hostWrite_of_cmd_lt h w s, hstatus, fun ⟨hl, hh⟩ => hzero hl hh, fun ⟨hl, hh⟩ => hcsp hl hh,
    fun ⟨hl, hh⟩ => hepkt hl hh, fun ⟨hl, hh⟩ => hresult hl hh, fun rest hturn => ?_, fun rest hturn => ?_⟩
  · exact ⟨_, _, step_read hturn, hstatus, hzero, hresult, hcsp, hepkt, hunmapped,
      fun h => by rw [readUnspecified_eq_false h]; rfl⟩
  · refine ⟨step_write hturn, fun h => ?_⟩
    rw [step_write hturn, hostWrite_of_cmd_lt h]
    rfl

end Sys2Proof.Machine
end

section
/-! SUPPORT. Proofs about the encoding (30_encoding.md): decoding waits for a complete packet and gives commands in range, which
bits of a header MASK and MATCH fix, texts round-trip, the assembler accepts what spells a command in range, and a step runs the
packet it decodes. -/

namespace Sys2Proof

/-! ## Decode of encode -/

/-- Settles O2: the packet decodes back, case by case of the command, at the number of words the encoder writes. -/
theorem decodeOfEncode : Obligations.DecodeOfEncode := by
  unfold Obligations.DecodeOfEncode
  exact fun i rest h => ⟨decode_encode_append i rest h, encode_length i⟩

/-- A packet alone decodes at its number of words. -/
theorem decode_encode {i : Instr} (h : i.wellFormed = true) : decode (encode i) = .ok i (encode i).length := by
  rw [encode_length, ← decode_encode_append i [] h, List.append_nil]

/-! ## What decodes -/

/-- A text has the length asked for (R75). -/
theorem unpackText_length (n : Nat) (ws : List Word) : (unpackText n ws).length = n := by simp [unpackText]

/-- The operands read from any words are in range (R72, R74, R76). -/
theorem wellFormed_operandsOf (op : Opcode) (h : Word) (ws : List Word) : (operandsOf op h ws).wellFormed = true := by
  cases op
  case drawText =>
    simp only [operandsOf, Instr.wellFormed, unpackText_length, coordOk_sext16At, sizeOk_zext16At, Bool.and_self]
  all_goals simp only [operandsOf, Instr.wellFormed, coordOk_sext16At, sizeOk_zext16At, Bool.and_self]

/-- A decoded command has its operands in range. -/
theorem wellFormed_of_decode {ws : List Word} {i : Instr} {n : Nat} (h : decode ws = .ok i n) : i.wellFormed = true := by
  rcases decode_cases ws with ⟨-, hd⟩ | ⟨_, -, -, hd⟩ | ⟨_, _, -, -, -, hd⟩ | ⟨hdr, _, op, _, -, -, -, -, hdec⟩
  · simp [hd] at h
  · simp [hd] at h
  · simp [hd] at h
  · rw [hdec] at h
    split at h
    · simp at h
    · obtain ⟨rfl, -⟩ := Decoded.ok.inj h
      exact wellFormed_operandsOf op hdr ws

/-- Settles O3, by the decoder's cases and the bound of every packet length. -/
theorem decodedIsWellFormed : Obligations.DecodedIsWellFormed := by
  unfold Obligations.DecodedIsWellFormed
  intro ws i n h
  obtain ⟨hlen, hwords, hle⟩ := decode_ok_length h
  exact ⟨wellFormed_of_decode h, hwords, hle, (packetLength_le hlen).2⟩

/-- A packet is complete exactly when its length is known and its words are there (R39, R82). -/
theorem packetComplete_iff {ws : List Word} : packetComplete ws = true ↔ ∃ n, packetLength ws = some n ∧ n ≤ ws.length := by
  cases h : packetLength ws <;> simp [packetComplete, h]

/-- A decoded packet is complete (R78). -/
theorem packetComplete_of_decode_ok {ws : List Word} {i : Instr} {n : Nat} (h : decode ws = .ok i n) :
    packetComplete ws = true := by
  obtain ⟨hlen, -, hle⟩ := decode_ok_length h
  exact packetComplete_iff.mpr ⟨n, hlen, hle⟩

/-- A packet that ends in a decoding error is complete (R80). -/
theorem packetComplete_of_decode_bad {ws : List Word} {c : ErrorCode} {n : Nat} (h : decode ws = .bad c n) :
    packetComplete ws = true := by
  obtain ⟨hlen, hle, -⟩ := decode_bad_length h
  exact packetComplete_iff.mpr ⟨n, hlen, hle⟩

/-- Settles O4: a command or an error is decoded only from a complete packet, at the packet's length. -/
theorem decodeWaitsForCompletePacket : Obligations.DecodeWaitsForCompletePacket := by
  unfold Obligations.DecodeWaitsForCompletePacket
  refine fun ws => ⟨⟨decode_incomplete, fun hc => ?_⟩, fun i n h => (decode_ok_length h).1, fun c n h => (decode_bad_length h).1⟩
  cases hd : decode ws with
  | ok i n => simp [packetComplete_of_decode_ok hd] at hc
  | bad c n => simp [packetComplete_of_decode_bad hd] at hc
  | incomplete => rfl

/-- Settles O1: each packet is a word list of its own, and the decoder reads it. -/
theorem samplePacketsDecode : Obligations.SamplePacketsDecode := by
  unfold Obligations.SamplePacketsDecode
  decide

/-! ## Headers -/

/-- The OPC values without a row of R77 are 0x00 and those from 0x0B on (R80). -/
theorem opcodeOf_eq_none {b : Byte} : opcodeOf b = none ↔ b = 0x00#8 ∨ 0x0B#8 ≤ b := by
  revert b; decide

/-- MASK covers RSV (R71, R79). -/
theorem headerMask_rsv_bit (op : Opcode) : ∀ i < 6, (headerMask op).getLsbD (10 + i) = true := by cases op <;> decide

/-- MASK covers C where the opcode has no colour (R77, R79). -/
theorem headerMask_colour_bit (op : Opcode) :
    (headerMask op).getLsbD 8 = true ↔ op ∉ [.setPixel, .drawBox, .drawCircle, .drawLine] := by cases op <;> decide

/-- MASK covers G except for DRAW_TEXT (R77, R79). -/
theorem headerMask_mode_bit (op : Opcode) : (headerMask op).getLsbD 9 = true ↔ op ≠ .drawText := by cases op <;> decide

/-- MASK covers U16 where the opcode has no size in its header (R77, R79). -/
theorem headerMask_size_bit (op : Opcode) : ∀ i < 16,
    ((headerMask op).getLsbD (16 + i) = true ↔ op ∉ [.drawCircle, .drawLine, .drawImage, .drawText]) := by
  cases op <;> decide

/-- A field is 0 when each of its bits is. -/
theorem extractLsb'_eq_zero {w : Word} {lo n : Nat} :
    w.extractLsb' lo n = 0#n ↔ ∀ i < n, w.getLsbD (lo + i) = false := by
  simp only [BitVec.eq_of_getElem_eq_iff, BitVec.getElem_extractLsb', BitVec.getElem_zero]

/-- A header that passes MASK and MATCH has the opcode's OPC field (R79). -/
theorem opc_of_headerMatch {h : Word} {op : Opcode} (hm : h &&& headerMask op = headerMatch op) :
    h.extractLsb' 0 8 = opcByte op := by
  ext i hi
  have hbit := congrArg (·.getLsbD i) hm
  simp only [BitVec.getLsbD_and, headerMask_opc_bit op i hi, Bool.and_true, headerMatch_eq_opcByte,
    BitVec.getLsbD_setWidth] at hbit
  rw [BitVec.getElem_extractLsb', Nat.zero_add, hbit, BitVec.getLsbD_eq_getElem hi, decide_eq_true (by omega), Bool.true_and]

/-- With the opcode's OPC field a header passes MASK and MATCH when every masked bit above that field is 0 (R79). -/
theorem headerMatch_iff_bits {h : Word} {op : Opcode} (ho : h.extractLsb' 0 8 = opcByte op) :
    h &&& headerMask op = headerMatch op ↔ ∀ i < 32, 8 ≤ i → (headerMask op).getLsbD i = true → h.getLsbD i = false := by
  have hhigh (i : Nat) (h8 : 8 ≤ i) : (headerMatch op).getLsbD i = false := by
    rw [headerMatch_eq_opcByte, BitVec.getLsbD_setWidth, BitVec.getLsbD_of_ge _ i h8, Bool.and_false]
  constructor
  · intro hm i _ h8 hmask
    have hbit := congrArg (·.getLsbD i) hm
    simpa [hmask, hhigh i h8] using hbit
  · intro hbits
    refine BitVec.eq_of_getLsbD_eq fun i hi => ?_
    rw [BitVec.getLsbD_and]
    rcases Nat.lt_or_ge i 8 with h8 | h8
    · rw [headerMask_opc_bit op i h8, headerMatch_eq_opcByte, ← ho]
      simp [h8, hi]
    · rw [hhigh i h8]
      cases hmask : (headerMask op).getLsbD i
      · simp
      · rw [hbits i hi h8 hmask]; rfl

/-- Settles O6: the masked bits above OPC are RSV and the fields the opcode does not use. -/
theorem maskCoversUnusedFields : Obligations.MaskCoversUnusedFields := by
  unfold Obligations.MaskCoversUnusedFields
  intro h op ho
  rw [headerMatch_iff_bits ho, extractLsb'_eq_zero, extractLsb'_eq_zero]
  constructor
  · intro hbits
    exact ⟨fun i hi => hbits _ (by omega) (by omega) (headerMask_rsv_bit op i hi),
      fun hc => hbits 8 (by omega) (by omega) ((headerMask_colour_bit op).mpr hc),
      fun hg => hbits 9 (by omega) (by omega) ((headerMask_mode_bit op).mpr hg),
      fun hu i hi => hbits _ (by omega) (by omega) ((headerMask_size_bit op i hi).mpr hu)⟩
  · rintro ⟨hrsv, hc, hg, hu⟩ i hi h8 hmask
    rcases (by omega : i = 8 ∨ i = 9 ∨ 10 ≤ i ∧ i < 16 ∨ 16 ≤ i) with rfl | rfl | ⟨hl, hh⟩ | hl
    · exact hc ((headerMask_colour_bit op).mp hmask)
    · exact hg ((headerMask_mode_bit op).mp hmask)
    · obtain ⟨j, rfl⟩ := Nat.exists_eq_add_of_le hl
      exact hrsv j (by omega)
    · obtain ⟨j, rfl⟩ := Nat.exists_eq_add_of_le hl
      exact hu ((headerMask_size_bit op j (by omega)).mp hmask) j (by omega)

/-- Settles O7: a header that matches a row has that row's OPC field, which names one opcode. -/
theorem opcodeRowsDisjoint : Obligations.OpcodeRowsDisjoint := by
  unfold Obligations.OpcodeRowsDisjoint
  have named {h : Word} {op : Opcode} (hm : h &&& headerMask op = headerMatch op) : headerOpcode h = some op := by
    rw [headerOpcode, opc_of_headerMatch hm, opcodeOf_opcByte]
  exact fun h op hm => ⟨named hm, fun op' hm' => Option.some.inj ((named hm').symm.trans (named hm))⟩

/-! ## Texts -/

/-- Settles O8, by the bytes of a packed text. -/
theorem textPackingRoundTrip : Obligations.TextPackingRoundTrip := by
  unfold Obligations.TextPackingRoundTrip
  refine fun text rest => ⟨packText_length text, unpackText_packText text rest, fun i hi => ?_⟩
  have hword : i / 4 < (packText text).length := by rw [packText_length]; omega
  have hbyte := textByte_packText text [] i hi
  rw [List.append_nil, textByte, List.getD_eq_getElem _ _ hword] at hbyte
  rw [List.getElem?_eq_getElem hi, List.getElem?_eq_getElem hword, Option.map_some, hbyte]

end Sys2Proof

namespace Sys2Proof.Machine

/-! ## Headers that end in an error -/

/-- The engine's move in EXEC ends a packet with its decoding error (R86, R216). -/
theorem engineStep_bad {s : State} {c : ErrorCode} {n : Nat} (he : s.engine = .exec) (hd : decode s.pkt = .bad c n) :
    engineStep s = .next (s.raiseError n c) := by simp only [engineStep, he, runPacket, hd]

/-- Settles O5: an OPC without a row decodes to code 1, a reserved bit of a complete packet to code 2, and the move is error
entry. -/
theorem illegalHeadersEndInError : Obligations.IllegalHeadersEndInError := by
  unfold Obligations.IllegalHeadersEndInError
  constructor
  · intro s h args ht he hp hopc
    have hd : decode s.pkt = .bad .illegalOpcode 1 := by
      simp only [hp, decode, headerOpcode, opcodeOf_eq_none.mpr hopc]
    rw [step_of_no_turns ht, engineStep_bad he hd]
    rfl
  · intro s h args op n ht he hp hopc hlen hle hres
    have hop : headerOpcode h = some op := by rw [headerOpcode, hopc, opcodeOf_opcByte]
    have hl : opcodeLength op (h :: args)[2]? = some n := by simpa only [hp, packetLength, hop] using hlen
    have hr : headerReserved op h = true := by simpa [headerReserved] using hres
    have hd : decode s.pkt = .bad .reservedField n := by
      rw [hp] at hle ⊢
      simp only [decode, hop, hl, Nat.not_lt.mpr hle, if_false, hr, if_true]
    rw [step_of_no_turns ht, engineStep_bad he hd]
    rfl

/-! ## A step runs the decoded packet -/

/-- Unless it is HALTED, the engine runs the command its packet decodes to (R40, R86). -/
theorem engineStep_ok {s : State} {i : Instr} {n : Nat} (hd : decode s.pkt = .ok i n) (he : s.engine ≠ .halted) :
    engineStep s = exec i { s with engine := .exec } := by
  have hc := packetComplete_of_decode_ok hd
  rcases engineStep_cases s with ⟨hh, -⟩ | ⟨-, j, m, hd', hmove⟩ | ⟨-, c, m, hd', -⟩ | ⟨-, hc', -⟩ | ⟨-, hc', -⟩
  · exact absurd hh he
  · obtain ⟨rfl, -⟩ := Decoded.ok.inj (hd.symm.trans hd')
    exact hmove
  · simp [hd] at hd'
  · simp [hc] at hc'
  · simp [hc] at hc'

/-- Settles O41, by the engine's move. -/
theorem stepRunsDecodedPacket : Obligations.StepRunsDecodedPacket := by
  unfold Obligations.StepRunsDecodedPacket
  intro s i n hd he
  refine ⟨fun ht => by rw [step_of_no_turns ht, engineStep_ok hd he], fun rest ht => ?_⟩
  rw [step_of_engine_turn ht, engineStep_ok (s := s.withTurns rest) hd he]
  rfl

/-- Settles O42: the table word's packet is in the packet buffer, and the engine in EXEC runs what it decodes to. -/
theorem stepRunsFetchedWord : Obligations.StepRunsFetchedWord := by
  unfold Obligations.StepRunsFetchedWord
  intro s nbits w i h
  unfold decodeTableWord at h
  split at h
  · rename_i j n hd
    obtain rfl := Option.some.inj h
    rw [step_of_no_turns rfl, engineStep_exec (s := s.withFetchWord nbits w) rfl hd]
  · simp at h
  · simp at h

/-! ## What the assembler reads -/

/-- The text operands give a DRAW_TEXT exactly when they spell it, with G = 1 under the name MEASURE_TEXT (R83). -/
theorem asmText_eq_some {g : Bool} {ops : List AsmToken} {i : Instr} :
    asmText g ops = some i ↔ Spells i (if g then .measureText else .op .drawText) ops := by
  constructor
  · intro h
    unfold asmText at h
    split at h
    · simp only [Option.pure_def, Option.bind_eq_bind, Option.bind_eq_some_iff, Option.some.injEq] at h
      obtain ⟨x, hx, y, hy, wrap, hw, size, hs, font, hf, text, ht, rfl⟩ := h
      exact ⟨rfl, _, _, _, _, _, _, rfl, hx, hy, hw, hs, hf, ht⟩
    · simp at h
  · intro h
    cases i
    case drawText x y wrap size font g' text =>
      obtain ⟨hn, a, b, c, d, e, f, rfl, hx, hy, hw, hs, hf, ht⟩ := h
      obtain rfl : g = g' := by cases g <;> cases g' <;> simp at hn <;> rfl
      simp [asmText, hx, hy, hw, hs, hf, ht]
    all_goals
      obtain ⟨hn, -⟩ := h
      cases g <;> simp at hn

/-- A mnemonic and its operands give a command exactly when they spell it (R83). -/
theorem asmInstr_eq_some {o : Opcode} {ops : List AsmToken} {i : Instr} :
    asmInstr o ops = some i ↔ Spells i (.op o) ops := by
  constructor
  · intro h
    unfold asmInstr at h
    split at h
    case h_8 => exact asmText_eq_some.mp h
    case h_11 => simp at h
    all_goals
      simp only [Option.pure_def, Option.bind_eq_bind, Option.bind_eq_some_iff, Option.some.injEq] at h
    case h_1 => obtain ⟨x, hx, y, hy, on, hon, rfl⟩ := h; exact ⟨rfl, _, _, _, rfl, hx, hy, hon⟩
    case h_2 => subst h; exact ⟨rfl, rfl⟩
    case h_3 => subst h; exact ⟨rfl, rfl⟩
    case h_4 =>
      obtain ⟨x1, hx1, y1, hy1, x2, hx2, y2, hy2, on, hon, rfl⟩ := h
      exact ⟨rfl, _, _, _, _, _, rfl, hx1, hy1, hx2, hy2, hon⟩
    case h_5 =>
      obtain ⟨cx, hcx, cy, hcy, diam, hd, on, hon, rfl⟩ := h
      exact ⟨rfl, _, _, _, _, rfl, hcx, hcy, hd, hon⟩
    case h_6 =>
      obtain ⟨x1, hx1, y1, hy1, x2, hx2, y2, hy2, on, hon, thick, ht, rfl⟩ := h
      exact ⟨rfl, _, _, _, _, _, _, rfl, hx1, hy1, hx2, hy2, hon, ht⟩
    case h_7 =>
      obtain ⟨handle, hh, xo, hx, yo, hy, scale, hs, rfl⟩ := h
      exact ⟨rfl, _, _, _, _, rfl, hh, hx, hy, hs⟩
    case h_9 => subst h; exact ⟨rfl, rfl⟩
    case h_10 => obtain ⟨x, hx, y, hy, rfl⟩ := h; exact ⟨rfl, _, _, rfl, hx, hy⟩
  · intro h
    cases i with
    | setPixel x y on => obtain ⟨hn, _, _, _, rfl, hx, hy, hon⟩ := h; cases hn; simp [asmInstr, hx, hy, hon]
    | clear => obtain ⟨hn, rfl⟩ := h; cases hn; rfl
    | flush => obtain ⟨hn, rfl⟩ := h; cases hn; rfl
    | drawBox x1 y1 x2 y2 on =>
      obtain ⟨hn, _, _, _, _, _, rfl, hx1, hy1, hx2, hy2, hon⟩ := h
      cases hn; simp [asmInstr, hx1, hy1, hx2, hy2, hon]
    | drawCircle cx cy diam on =>
      obtain ⟨hn, _, _, _, _, rfl, hcx, hcy, hd, hon⟩ := h
      cases hn; simp [asmInstr, hcx, hcy, hd, hon]
    | drawLine x1 y1 x2 y2 on thick =>
      obtain ⟨hn, _, _, _, _, _, _, rfl, hx1, hy1, hx2, hy2, hon, ht⟩ := h
      cases hn; simp [asmInstr, hx1, hy1, hx2, hy2, hon, ht]
    | drawImage handle xo yo scale =>
      obtain ⟨hn, _, _, _, _, rfl, hh, hx, hy, hs⟩ := h
      cases hn; simp [asmInstr, hh, hx, hy, hs]
    | drawText x y wrap size font g text =>
      have hn := h.1
      cases g
      · cases hn; exact asmText_eq_some.mpr h
      · simp at hn
    | init => obtain ⟨hn, rfl⟩ := h; cases hn; rfl
    | getPixel x y => obtain ⟨hn, _, _, rfl, hx, hy⟩ := h; cases hn; simp [asmInstr, hx, hy]

/-- A mnemonic spells commands of its own opcode only (R83). -/
theorem opcode_of_spells {i : Instr} {o : Opcode} {ops : List AsmToken} (h : Spells i (.op o) ops) : i.opcode = o := by
  cases i
  case drawText x y wrap size font g text =>
    obtain ⟨hn, -⟩ := h
    cases g
    · cases hn; rfl
    · simp at hn
  all_goals
    obtain ⟨hn, -⟩ := h
    cases hn; rfl

/-- A command is encoded exactly when its operands are in range (R83). -/
theorem asmEncode_eq_some {i : Instr} {ws : List Word} : asmEncode i = some ws ↔ i.wellFormed = true ∧ ws = encode i := by
  simp only [asmEncode, Option.ite_none_right_eq_some, Option.some.injEq, eq_comm (a := ws)]

/-- A line of a mnemonic or of MEASURE_TEXT is accepted exactly when it spells a command in range, and is its packet (R83). -/
theorem asmLine_eq_some {n : AsmName} {ops : List AsmToken} {ws : List Word} (hcls : n ≠ .cls) (hword : n ≠ .word) :
    asmLine n ops = some ws ↔ ∃ i : Instr, Spells i n ops ∧ i.wellFormed = true ∧ ws = encode i := by
  cases n with
  | op o => simp only [asmLine, Option.bind_eq_some_iff, asmInstr_eq_some, asmEncode_eq_some]
  | measureText => simp only [asmLine, Option.bind_eq_some_iff, asmText_eq_some, asmEncode_eq_some, if_true]
  | cls => exact absurd rfl hcls
  | word => exact absurd rfl hword

/-- CLS and .word spell no command: they are pseudo-instructions (R84). -/
theorem name_of_spells {i : Instr} {n : AsmName} {ops : List AsmToken} (h : Spells i n ops) : n ≠ .cls ∧ n ≠ .word := by
  cases i
  case drawText x y wrap size font g text =>
    obtain ⟨rfl, -⟩ := h
    cases g <;> simp
  all_goals
    obtain ⟨rfl, -⟩ := h
    simp

/-- A word literal is a number from 0 to 2^32 − 1 (R83, R84). -/
theorem wordOf_eq_some {t : AsmToken} {w : Word} :
    wordOf t = some w ↔ ∃ k : Nat, numberOf t = some (k : Int) ∧ k < 2 ^ 32 ∧ w = BitVec.ofNat 32 k := by
  have hnat (k : Nat) : natOf t = some k ↔ numberOf t = some (k : Int) := by
    simp only [natOf, Option.bind_eq_some_iff]
    constructor
    · rintro ⟨v, hv, h⟩
      split at h
      · rw [hv, ← Option.some.inj h, Int.toNat_of_nonneg ‹_›]
      · simp at h
    · exact fun h => ⟨k, h, by simp⟩
  simp only [wordOf, Option.bind_eq_some_iff, hnat]
  simp only [Option.ite_none_right_eq_some, Option.some.injEq, eq_comm (a := w)]

/-- Settles O9: the assembler accepts what spells a command in range, and that command's packet decodes back. -/
theorem assembledPacketDecodes : Obligations.AssembledPacketDecodes := by
  unfold Obligations.AssembledPacketDecodes
  refine ⟨fun o ops ws h => ?_, fun n ops ws hcls hword => asmLine_eq_some hcls hword, fun i n ops hs hwf => ?_,
    by decide, by decide, by decide, by decide, fun a ws => ?_⟩
  · obtain ⟨i, hs, hwf, rfl⟩ := (asmLine_eq_some (by simp) (by simp)).mp h
    exact ⟨i, hwf, opcode_of_spells hs, rfl, decode_encode hwf⟩
  · obtain ⟨hcls, hword⟩ := name_of_spells hs
    exact ⟨(asmLine_eq_some hcls hword).mpr ⟨i, hs, hwf, rfl⟩, decode_encode hwf⟩
  · simp only [asmLine, Option.map_eq_some_iff, wordOf_eq_some]
    constructor
    · rintro ⟨w, ⟨k, hk, hlt, rfl⟩, rfl⟩
      exact ⟨k, hk, hlt, rfl⟩
    · rintro ⟨k, hk, hlt, rfl⟩
      exact ⟨_, ⟨k, hk, hlt, rfl⟩, rfl⟩

end Sys2Proof.Machine
end

section
/-! SUPPORT. Proofs about the framebuffer commands (40_framebuffer.md): what SET_PIXEL, CLEAR and GET_PIXEL leave behind, the byte
of a pixel after SetPixel, and that SetPixel of different pixels commutes. -/

namespace Sys2Proof.Machine

/-! ## The three commands -/

@[simp] theorem exec_setPixel (x y : Int) (on : Bool) (s : State) :
    exec (.setPixel x y on) s = .next ((s.setFb (s.fb.setPixel x y on)).retire 2) := rfl

@[simp] theorem exec_clear (s : State) : exec .clear s = .next ((s.setFb Memory.zero).retire 1) := rfl

/-- GET_PIXEL's answer in one condition: 1 for an in-bounds lit pixel, else 0 (R104). -/
@[simp] theorem exec_getPixel (x y : Int) (s : State) : exec (.getPixel x y) s =
    .next ((s.setResult (if inBounds x y = true ∧ s.fb.pix x y = true then 1#32 else 0#32)).retire 2) := by
  change execGetPixel x y s = _
  unfold execGetPixel
  cases inBounds x y
  · simp
  · cases s.fb.pix x y <;> simp

/-! ## Pixels -/

/-- The frame by its last column and row (R100), as the statements write it. -/
theorem inBounds_iff_le {x y : Int} : inBounds x y = true ↔ 0 ≤ x ∧ x ≤ 127 ∧ 0 ≤ y ∧ y ≤ 63 := by
  rw [inBounds_iff]; omega

/-- SetPixel's read-modify-write of the pixel's own byte (R101). -/
theorem Memory.read_setPixel_same {m : Memory} (h : m.wf = true) {x y : Int} (on : Bool) (hxy : inBounds x y = true) :
    (m.setPixel x y on).read (pixIndex x y) = if on then m.read (pixIndex x y) ||| 1#8 <<< pixBit y
      else m.read (pixIndex x y) &&& ~~~(1#8 <<< pixBit y) := by
  simp [Memory.setPixel, hxy, Memory.read_write h]

@[simp] theorem Memory.zero_pix (x y : Int) : Memory.zero.pix x y = false := by simp [Memory.pix]

/-- SetPixel of different in-bounds pixels commutes: each of the two pixels has one writer, and every other pixel none (R105). -/
theorem Memory.setPixel_comm {m : Memory} (h : m.wf = true) {x y u v : Int} (a b : Bool) (hne : x ≠ u ∨ y ≠ v) :
    (m.setPixel x y a).setPixel u v b = (m.setPixel u v b).setPixel x y a := by
  have hxy := Memory.wf_setPixel h x y a
  have huv := Memory.wf_setPixel h u v b
  refine Memory.pix_ext (Memory.wf_setPixel hxy u v b) (Memory.wf_setPixel huv x y a) fun p q hpq => ?_
  rw [Memory.pix_setPixel hxy u v b hpq, Memory.pix_setPixel h x y a hpq, Memory.pix_setPixel huv x y a hpq,
    Memory.pix_setPixel h u v b hpq]
  by_cases hp : p = u ∧ q = v
  · have hother : ¬(p = x ∧ q = y) := by omega
    rw [if_pos hp, if_neg hother, if_pos hp]
  · rw [if_neg hp, if_neg hp]

/-! ## The obligations -/

/-- Settles O11: SetPixel rewrites the pixel's own byte, and no byte when the pixel is outside the frame. -/
theorem setPixelChangesOneBit : Obligations.SetPixelChangesOneBit := by
  unfold Obligations.SetPixelChangesOneBit
  intro x y on s hwf
  refine ⟨s.fb.setPixel x y on, rfl, Memory.wf_setPixel hwf x y on, fun hout a => ?_, fun hin => ?_⟩
  · rw [Memory.setPixel_outside _ _ (Bool.eq_false_iff.mpr (mt inBounds_iff_le.mp hout))]
  · exact ⟨Memory.read_setPixel_same hwf on (inBounds_iff_le.mpr hin),
      fun a ha => Memory.read_setPixel hwf x y on a fun _ => ha⟩

/-- Settles O12: the cleared framebuffer lists no byte. -/
theorem clearZeroesFramebuffer : Obligations.ClearZeroesFramebuffer := by
  unfold Obligations.ClearZeroesFramebuffer
  intro s
  exact ⟨Memory.zero, exec_clear s, Memory.zero_wf, Memory.zero_read, fun k => by simp [fbWord]⟩

/-- Settles O13: the frame's bounds, and R21's byte and bit of the pixel, are those of GET_PIXEL's one condition. -/
theorem getPixelReadsPixel : Obligations.GetPixelReadsPixel := by
  unfold Obligations.GetPixelReadsPixel
  intro x y s _
  rw [exec_getPixel]
  simp only [inBounds_iff_le]
  rfl

/-- Settles O14: GET_PIXEL reads the pixel SET_PIXEL wrote, SetPixel commutes, and a cleared pixel is 0. -/
theorem pixelReadBackLaws : Obligations.PixelReadBackLaws := by
  unfold Obligations.PixelReadBackLaws
  refine ⟨fun x y on s hwf hin => ?_, fun x y u v a b m hwf _ _ hne => Memory.setPixel_comm hwf a b hne, fun x y s => ?_⟩
  · refine ⟨_, _, exec_setPixel x y on s, exec_getPixel x y _, ?_, rfl⟩
    simp [hin, Memory.pix_setPixel hwf x y on hin]
  · refine ⟨_, _, exec_clear s, exec_getPixel x y _, ?_⟩
    simp

end Sys2Proof.Machine
end

section
/-! SUPPORT. Proofs about the rasterizer commands (41_rasterizer.md): the bytes a box, a disk and a line leave, the loops of R120
and R124 before their clipping, and the passes of a walk: the major axis moves in every pass, the error term stays in a range
that each pass keeps, and with it the minor axis arrives together with the major one. -/

namespace Sys2Proof.Machine

/-! ## The three commands -/

@[simp] theorem exec_drawBox (x1 y1 x2 y2 : Int) (on : Bool) (s : State) :
    exec (.drawBox x1 y1 x2 y2 on) s = .next ((s.setFb (s.fb.fillBox x1 y1 x2 y2 on)).retire 3) := rfl

@[simp] theorem exec_drawCircle (cx cy : Int) (diam : Nat) (on : Bool) (s : State) :
    exec (.drawCircle cx cy diam on) s = .next ((s.setFb (s.fb.disk cx cy diam on)).retire 2) := rfl

@[simp] theorem exec_drawLine (x1 y1 x2 y2 : Int) (on : Bool) (thick : Nat) (s : State) :
    exec (.drawLine x1 y1 x2 y2 on thick) s =
      .next ((s.setFb (s.fb.stampDisks (walk x1 y1 x2 y2) thick on)).retire 3) := rfl

/-! ## Boxes -/

/-- A box leaves every byte that holds none of its in-frame pixels (R124). -/
theorem Memory.read_fillBox {m : Memory} (h : m.wf = true) (x1 y1 x2 y2 : Int) (on : Bool) {a : Nat}
    (ha : ∀ u v : Int, inBounds u v = true → x1 ≤ u → u ≤ x2 → y1 ≤ v → v ≤ y2 → a ≠ pixIndex u v) :
    (m.fillBox x1 y1 x2 y2 on).read a = m.read a := by
  refine Memory.read_setPixels h _ on a fun p hp hin => ?_
  obtain ⟨-, ⟨hx1, hx2⟩, hy1, hy2⟩ := mem_clippedRect.mp hp
  exact ha p.1 p.2 hin hx1 hx2 hy1 hy2

/-- Settles O15: the clipped rectangle holds the in-frame points of the box. -/
theorem drawBoxFillsRectangle : Obligations.DrawBoxFillsRectangle := by
  unfold Obligations.DrawBoxFillsRectangle
  intro x1 y1 x2 y2 on s hwf
  refine ⟨s.fb.fillBox x1 y1 x2 y2 on, exec_drawBox x1 y1 x2 y2 on s, Memory.wf_fillBox hwf x1 y1 x2 y2 on, fun u v huv => ?_,
    fun a ha => Memory.read_fillBox hwf x1 y1 x2 y2 on ha⟩
  rw [Memory.pix_fillBox hwf x1 y1 x2 y2 on huv]
  simp only [and_assoc]

/-- Settles O16: the two lists of points differ only outside the frame, where SetPixel does nothing. -/
theorem boxClippingChangesNothing : Obligations.BoxClippingChangesNothing := by
  unfold Obligations.BoxClippingChangesNothing
  intro x1 y1 x2 y2 on m hwf
  refine Memory.setPixels_congr hwf _ _ on fun x y hxy => ?_
  rw [mem_clippedRect, boxPoints, mem_rectPoints]
  exact and_iff_right hxy

/-! ## Disks -/

/-- The disk as the statements write it (R120). -/
theorem inDisk_iff {cx cy : Int} {d : Nat} {u v : Int} :
    inDisk cx cy d u v = true ↔ (u - cx) ^ 2 + (v - cy) ^ 2 ≤ ((d / 2 : Nat) : Int) ^ 2 := by
  simp only [inDisk, decide_eq_true_eq, sq]

/-- A disk of diameter 0 or 1 is its centre (R120). -/
theorem inDisk_of_le_one {cx cy : Int} {d : Nat} {u v : Int} (hd : d ≤ 1) :
    inDisk cx cy d u v = true ↔ (u, v) = (cx, cy) := by
  have hr : ((d / 2 : Nat) : Int) = 0 := by omega
  simp only [inDisk, hr, decide_eq_true_eq, Prod.mk.injEq]
  constructor
  · intro h
    have hu := abs_le_of_sq_add_sq_le le_rfl h
    have hv := abs_le_of_sq_add_sq_le le_rfl ((add_comm _ _).trans_le h)
    omega
  · rintro ⟨rfl, rfl⟩; simp

/-- R120's loop over the square of offsets visits the points of the disk. -/
theorem mem_diskPoints {cx cy : Int} {d : Nat} {u v : Int} :
    (u, v) ∈ diskPoints cx cy d ↔ inDisk cx cy d u v = true := by
  simp only [diskPoints, List.mem_map, List.mem_filter, Prod.exists, mem_rectPoints, decide_eq_true_eq, inDisk,
    Prod.mk.injEq]
  constructor
  · rintro ⟨dx, dy, ⟨-, h⟩, rfl, rfl⟩
    simpa only [add_sub_cancel_left] using h
  · intro h
    have hr : (0 : Int) ≤ ((d / 2 : Nat) : Int) := Int.natCast_nonneg _
    exact ⟨u - cx, v - cy, ⟨⟨abs_le_of_sq_add_sq_le hr h, abs_le_of_sq_add_sq_le hr (by rwa [add_comm])⟩, h⟩,
      by omega, by omega⟩

/-- A disk leaves every byte that holds none of its in-frame pixels (R120). -/
theorem Memory.read_disk {m : Memory} (h : m.wf = true) (cx cy : Int) (d : Nat) (on : Bool) {a : Nat}
    (ha : ∀ u v : Int, inBounds u v = true → inDisk cx cy d u v = true → a ≠ pixIndex u v) :
    (m.disk cx cy d on).read a = m.read a :=
  Memory.read_setPixels h _ on a fun p hp hin => ha p.1 p.2 hin (mem_diskPointsClipped.mp hp).2

/-- Disks of the same radius are the same disk (R120). -/
theorem Memory.disk_congr (m : Memory) (cx cy : Int) {d d' : Nat} (on : Bool) (h : d / 2 = d' / 2) :
    m.disk cx cy d on = m.disk cx cy d' on := by simp only [Memory.disk, diskPointsClipped, h]

/-- Moving the centre does not change how many points a disk has. -/
theorem diskPoints_length (cx cy : Int) (d : Nat) : (diskPoints cx cy d).length = (diskPoints 0 0 d).length := by
  simp only [diskPoints, List.length_map]

/-- Settles O17: the clipped disk holds the in-frame points of the disk. -/
theorem drawCircleStampsDisk : Obligations.DrawCircleStampsDisk := by
  unfold Obligations.DrawCircleStampsDisk
  intro cx cy diam on s hwf
  refine ⟨s.fb.disk cx cy diam on, exec_drawCircle cx cy diam on s, Memory.wf_disk hwf cx cy diam on, fun u v huv => ?_,
    fun a ha => Memory.read_disk hwf cx cy diam on fun u v huv hd => ha u v huv (inDisk_iff.mp hd)⟩
  rw [Memory.pix_disk hwf cx cy diam on huv]
  simp only [inDisk_iff]

/-- Settles O18: the two lists of points differ only outside the frame, the counts are those of the disks at (0, 0), and the
diameters 2r and 2r + 1 have the radius r. -/
theorem diskClippingChangesNothing : Obligations.DiskClippingChangesNothing := by
  unfold Obligations.DiskClippingChangesNothing
  refine ⟨fun cx cy d on m hwf => ?_, fun cx cy => ?_, fun cx cy r on s => ?_⟩
  · refine Memory.setPixels_congr hwf _ _ on fun x y hxy => ?_
    rw [mem_diskPointsClipped, mem_diskPoints]
    exact and_iff_right hxy
  · simp only [diskPoints_length cx cy]
    decide
  · rw [exec_drawCircle, exec_drawCircle, Memory.disk_congr s.fb cx cy on (show (2 * r + 1) / 2 = 2 * r / 2 by omega)]

/-! ## The error term of a walk -/

/-- The range of the error term: along x (dy ≤ dx) it is −dy < 2 err < 3 dx − 2 dy, along y it is 2 dx − 3 dy < 2 err < dx. It is
within R123's bound, and its near end is the test that moves the major axis. -/
def ErrInRange (dx dy err : Int) : Prop := min (-dy) (2 * dx - 3 * dy) < 2 * err ∧ 2 * err < max dx (3 * dx - 2 * dy)

/-- The error term after the two updates of R121. -/
def nextErr (dx dy err : Int) : Int := err - (if 2 * err > -dy then dy else 0) + (if 2 * err < dx then dx else 0)

/-- The first error term is in range, unless the endpoints are the same. -/
theorem errInRange_start {dx dy : Int} (hx : 0 ≤ dx) (hy : 0 ≤ dy) (hne : 0 < dx ∨ 0 < dy) :
    ErrInRange dx dy (dx - dy) := by
  unfold ErrInRange; omega

/-- A pass keeps the range: it moves x alone, y alone, or both. -/
theorem ErrInRange.next {dx dy err : Int} (hx : 0 ≤ dx) (hy : 0 ≤ dy) (h : ErrInRange dx dy err) :
    ErrInRange dx dy (nextErr dx dy err) := by
  unfold ErrInRange at h ⊢
  unfold nextErr
  by_cases hmx : 2 * err > -dy <;> by_cases hmy : 2 * err < dx
  · rw [if_pos hmx, if_pos hmy]; omega
  · rw [if_pos hmx, if_neg hmy]; omega
  · rw [if_neg hmx, if_pos hmy]; omega
  · omega

/-- R123's bound. -/
theorem ErrInRange.bounds {dx dy err : Int} (hx : 0 ≤ dx) (hy : 0 ≤ dy) (h : ErrInRange dx dy err) :
    2 * err > -3 * dy ∧ 2 * err ≤ 3 * dx := by
  unfold ErrInRange at h; omega

/-- The range along x: every pass moves x. -/
theorem ErrInRange.along_x {dx dy err : Int} (h : ErrInRange dx dy err) (hm : dy ≤ dx) :
    -dy < 2 * err ∧ 2 * err < 3 * dx - 2 * dy := by
  unfold ErrInRange at h; omega

/-- The range along y: every pass moves y. -/
theorem ErrInRange.along_y {dx dy err : Int} (h : ErrInRange dx dy err) (hm : dx ≤ dy) :
    2 * dx - 3 * dy < 2 * err ∧ 2 * err < dx := by
  unfold ErrInRange at h; omega

/-- When the major axis has made all its n moves, the range of the error term leaves only m moves for the minor one. -/
theorem minor_moves_eq {n m c : Int} (hn : 0 < n) (hm : 0 ≤ m) (hlo : -m < 2 * ((c + 1) * n - (n + 1) * m))
    (hhi : 2 * ((c + 1) * n - (n + 1) * m) < 3 * n - 2 * m) : c = m := by
  rcases lt_trichotomy c m with hlt | heq | hgt
  · have : (c + 1) * n ≤ m * n := mul_le_mul_of_nonneg_right (by omega) hn.le
    nlinarith
  · exact heq
  · have : (m + 1 + 1) * n ≤ (c + 1) * n := mul_le_mul_of_nonneg_right (by omega) hn.le
    nlinarith

/-! ## The passes of a walk -/

/-- The constants of a walk from (x1, y1): dx steps of sx lead to x2, and dy steps of sy lead to y2 (R121). -/
structure Walk.StartsAt (w : Walk) (x1 y1 : Int) : Prop where
  dx_nonneg : 0 ≤ w.dx
  dy_nonneg : 0 ≤ w.dy
  sx_unit : w.sx = 1 ∨ w.sx = -1
  sy_unit : w.sy = 1 ∨ w.sy = -1
  reaches_x : x1 + w.sx * w.dx = w.x2
  reaches_y : y1 + w.sy * w.dy = w.y2

theorem walkOf_startsAt (x1 y1 x2 y2 : Int) : (walkOf x1 y1 x2 y2).StartsAt x1 y1 where
  dx_nonneg := Int.natCast_nonneg _
  dy_nonneg := Int.natCast_nonneg _
  sx_unit := by simp only [walkOf]; omega
  sy_unit := by simp only [walkOf]; omega
  reaches_x := by simp only [walkOf]; split <;> omega
  reaches_y := by simp only [walkOf]; split <;> omega

/-- (x, y, err) after k passes of the loop of R121 from (x1, y1), without its test of the endpoint. -/
def passAt (w : Walk) (x1 y1 : Int) (k : Nat) : Int × Int × Int := (walkStep w)^[k] (x1, y1, w.dx - w.dy)

/-- The point after k passes. -/
def passPoint (w : Walk) (x1 y1 : Int) (k : Nat) : Int × Int := ((passAt w x1 y1 k).1, (passAt w x1 y1 k).2.1)

/-- How many passes a walk makes, max(dx, dy) (R122). -/
def Walk.passes (w : Walk) : Nat := (max w.dx w.dy).toNat

section

variable {w : Walk} {x1 y1 : Int}

/-- One more pass makes the two updates of R121. -/
theorem passAt_succ (k : Nat) : passAt w x1 y1 (k + 1) =
    ((passAt w x1 y1 k).1 + (if 2 * (passAt w x1 y1 k).2.2 > -w.dy then w.sx else 0),
      (passAt w x1 y1 k).2.1 + (if 2 * (passAt w x1 y1 k).2.2 < w.dx then w.sy else 0),
      nextErr w.dx w.dy (passAt w x1 y1 k).2.2) := by
  have hstep : passAt w x1 y1 (k + 1) = walkStep w (passAt w x1 y1 k) := Function.iterate_succ_apply' _ _ _
  rw [hstep, walkStep_eq]
  simp only [nextErr, add_ite, add_zero]

/-- Every pass keeps the error term in its range. -/
theorem errInRange_passAt (hw : w.StartsAt x1 y1) (hne : 0 < w.dx ∨ 0 < w.dy) (k : Nat) :
    ErrInRange w.dx w.dy (passAt w x1 y1 k).2.2 := by
  induction k with
  | zero => exact errInRange_start hw.dx_nonneg hw.dy_nonneg hne
  | succ k ih => rw [passAt_succ]; exact ih.next hw.dx_nonneg hw.dy_nonneg

/-- Along x the k-th pass has made k moves of x. -/
theorem passAt_major_x (hw : w.StartsAt x1 y1) (hne : 0 < w.dx ∨ 0 < w.dy) (hm : w.dy ≤ w.dx) (k : Nat) :
    (passAt w x1 y1 k).1 = x1 + w.sx * k := by
  induction k with
  | zero => simp [passAt]
  | succ k ih =>
    rw [passAt_succ, if_pos ((errInRange_passAt hw hne k).along_x hm).1, ih]
    push_cast; ring

/-- Along y the k-th pass has made k moves of y. -/
theorem passAt_major_y (hw : w.StartsAt x1 y1) (hne : 0 < w.dx ∨ 0 < w.dy) (hm : w.dx ≤ w.dy) (k : Nat) :
    (passAt w x1 y1 k).2.1 = y1 + w.sy * k := by
  induction k with
  | zero => simp [passAt]
  | succ k ih =>
    rw [passAt_succ, if_pos ((errInRange_passAt hw hne k).along_y hm).2, ih]
    push_cast; ring

/-- The point and the error term count the same moves: a of x and b of y. -/
theorem exists_moves (w : Walk) (x1 y1 : Int) (k : Nat) : ∃ a b : Int,
    passAt w x1 y1 k = (x1 + w.sx * a, y1 + w.sy * b, (b + 1) * w.dx - (a + 1) * w.dy) := by
  induction k with
  | zero => exact ⟨0, 0, by simp [passAt]⟩
  | succ k ih =>
    obtain ⟨a, b, hk⟩ := ih
    rw [passAt_succ, hk]
    refine ⟨a + if 2 * ((b + 1) * w.dx - (a + 1) * w.dy) > -w.dy then 1 else 0,
      b + if 2 * ((b + 1) * w.dx - (a + 1) * w.dy) < w.dx then 1 else 0, Prod.ext ?_ (Prod.ext ?_ ?_)⟩
    · simp only; split <;> ring
    · simp only; split <;> ring
    · simp only [nextErr]; split <;> split <;> ring

/-- A step sign does not change how many moves are made. -/
theorem moves_unique {s c a b : Int} (hs : s = 1 ∨ s = -1) (h : c + s * a = c + s * b) : a = b := by
  rcases hs with rfl | rfl <;> omega

/-- After max(dx, dy) passes the moves are dx of x and dy of y: the major axis has made all of its own, and the range of the error
term says how many the minor axis has made. -/
theorem moves_at_passes (hw : w.StartsAt x1 y1) (hne : 0 < w.dx ∨ 0 < w.dy) {a b : Int}
    (hend : passAt w x1 y1 w.passes = (x1 + w.sx * a, y1 + w.sy * b, (b + 1) * w.dx - (a + 1) * w.dy)) :
    a = w.dx ∧ b = w.dy := by
  have hx := hw.dx_nonneg
  have hy := hw.dy_nonneg
  have hrange : ErrInRange w.dx w.dy ((b + 1) * w.dx - (a + 1) * w.dy) := by
    simpa only [hend] using errInRange_passAt hw hne w.passes
  rcases le_total w.dy w.dx with hm | hm
  · obtain ⟨hlo, hhi⟩ := hrange.along_x hm
    have hcount : (w.passes : Int) = w.dx := by simp only [Walk.passes]; omega
    have hmajor := passAt_major_x hw hne hm w.passes
    rw [hend, hcount] at hmajor
    obtain rfl := moves_unique hw.sx_unit hmajor
    exact ⟨rfl, minor_moves_eq (by omega) hy hlo hhi⟩
  · obtain ⟨hlo, hhi⟩ := hrange.along_y hm
    have hcount : (w.passes : Int) = w.dy := by simp only [Walk.passes]; omega
    have hmajor := passAt_major_y hw hne hm w.passes
    rw [hend, hcount] at hmajor
    obtain rfl := moves_unique hw.sy_unit hmajor
    exact ⟨minor_moves_eq (n := w.dy) (by omega) hx (by omega) (by omega), rfl⟩

/-- After max(dx, dy) passes a walk stands at its endpoint (R122). -/
theorem passPoint_passes (hw : w.StartsAt x1 y1) : passPoint w x1 y1 w.passes = (w.x2, w.y2) := by
  by_cases hne : 0 < w.dx ∨ 0 < w.dy
  · obtain ⟨a, b, hend⟩ := exists_moves w x1 y1 w.passes
    obtain ⟨rfl, rfl⟩ := moves_at_passes hw hne hend
    rw [passPoint, hend, hw.reaches_x, hw.reaches_y]
  · have hx0 : w.dx = 0 := by have := hw.dx_nonneg; omega
    have hy0 : w.dy = 0 := by have := hw.dy_nonneg; omega
    rw [← hw.reaches_x, ← hw.reaches_y]
    simp [passPoint, passAt, Walk.passes, hx0, hy0]

/-- No two passes of a walk between different endpoints stand at the same point: the major axis moves in each. -/
theorem passPoint_injective (hw : w.StartsAt x1 y1) (hne : 0 < w.dx ∨ 0 < w.dy) :
    Function.Injective (passPoint w x1 y1) := by
  intro j k hjk
  obtain ⟨hx, hy⟩ := Prod.mk.inj hjk
  rcases le_total w.dy w.dx with hm | hm
  · rw [passAt_major_x hw hne hm, passAt_major_x hw hne hm] at hx
    exact Int.ofNat_inj.mp (moves_unique hw.sx_unit hx)
  · rw [passAt_major_y hw hne hm, passAt_major_y hw hne hm] at hy
    exact Int.ofNat_inj.mp (moves_unique hw.sy_unit hy)

/-- From one pass to the next a coordinate moves by at most 1. -/
theorem passPoint_succ_near (hw : w.StartsAt x1 y1) (k : Nat) :
    ((passPoint w x1 y1 (k + 1)).1 - (passPoint w x1 y1 k).1).natAbs ≤ 1 ∧
    ((passPoint w x1 y1 (k + 1)).2 - (passPoint w x1 y1 k).2).natAbs ≤ 1 := by
  have hsx := hw.sx_unit
  have hsy := hw.sy_unit
  simp only [passPoint, passAt_succ]
  omega

end

/-! ## Walks -/

/-- The points of a walk are those of its passes 0 to max(dx, dy): no pass before the last stands at the endpoint. -/
theorem walk_eq_map (x1 y1 x2 y2 : Int) : walk x1 y1 x2 y2 =
    (List.range ((walkOf x1 y1 x2 y2).passes + 1)).map (passPoint (walkOf x1 y1 x2 y2) x1 y1) := by
  have hw := walkOf_startsAt x1 y1 x2 y2
  refine walkFrom_eq_map _ (walkOf x1 y1 x2 y2).passes _ fun k hk => ?_
  have hne : 0 < (walkOf x1 y1 x2 y2).dx ∨ 0 < (walkOf x1 y1 x2 y2).dy := by simp only [Walk.passes] at hk; omega
  by_contra hend
  push Not at hend
  exact hk.ne (passPoint_injective hw hne ((Prod.ext hend.1 hend.2).trans (passPoint_passes hw).symm))

theorem walkOf_passes (x1 y1 x2 y2 : Int) :
    (walkOf x1 y1 x2 y2).passes = max (x2 - x1).natAbs (y2 - y1).natAbs := by
  simp only [Walk.passes, walkOf]; omega

/-- The k-th point of a walk is that of its k-th pass. -/
theorem eq_passPoint_of_walk_getElem? {x1 y1 x2 y2 : Int} {k : Nat} {p : Int × Int} (h : (walk x1 y1 x2 y2)[k]? = some p) :
    p = passPoint (walkOf x1 y1 x2 y2) x1 y1 k := by
  rw [walk_eq_map] at h
  obtain ⟨hk, rfl⟩ := List.getElem?_eq_some_iff.mp h
  rw [List.getElem_map, List.getElem_range]

/-- Settles O19: the walk is the list of its passes 0 to max(dx, dy), of which only the last stands at the endpoint. -/
theorem walkReachesEndpoint : Obligations.WalkReachesEndpoint := by
  unfold Obligations.WalkReachesEndpoint
  intro x1 y1 x2 y2
  have hw := walkOf_startsAt x1 y1 x2 y2
  have hend := passPoint_passes hw
  refine ⟨?_, ?_, ?_, ?_, fun k p q hp hq => ?_, fun n hn => ?_⟩
  · rw [walk_eq_map]; simp [List.range_succ_eq_map, passPoint, passAt]
  · rw [walk_eq_map, List.range_succ, List.map_append, List.map_singleton, List.getLast?_concat, hend]; rfl
  · rw [walk_eq_map, List.length_map, List.length_range, walkOf_passes]
  · rw [walk_eq_map]
    rcases Nat.eq_zero_or_pos (walkOf x1 y1 x2 y2).passes with h0 | hpos
    · simp [h0]
    · exact List.nodup_range.map (passPoint_injective hw (by simp only [Walk.passes] at hpos; omega))
  · rw [eq_passPoint_of_walk_getElem? hp, eq_passPoint_of_walk_getElem? hq]
    exact passPoint_succ_near hw k
  · obtain ⟨m, rfl⟩ := Nat.exists_eq_add_of_le (walkOf_passes x1 y1 x2 y2 ▸ hn)
    exact walkFrom_add _ _ m _ (Prod.mk.inj hend)

/-- Settles O20: the error term is that of the passes, whose updates are `passAt_succ` and whose range every pass keeps. -/
theorem walkErrorBounded : Obligations.WalkErrorBounded := by
  unfold Obligations.WalkErrorBounded
  rintro x1 y1 x2 y2 _ _ _ _ rfl rfl rfl rfl
  have hw := walkOf_startsAt x1 y1 x2 y2
  refine ⟨fun k => (passAt (walkOf x1 y1 x2 y2) x1 y1 k).2.2, rfl, fun k p q hp hq => ?_, fun hne k _ => ?_⟩
  · have hstep := passAt_succ (w := walkOf x1 y1 x2 y2) (x1 := x1) (y1 := y1) k
    rw [eq_passPoint_of_walk_getElem? hp, eq_passPoint_of_walk_getElem? hq]
    exact ⟨congrArg (·.1) hstep, congrArg (·.2.1) hstep, congrArg (·.2.2) hstep⟩
  · have hdiff : 0 < (walkOf x1 y1 x2 y2).dx ∨ 0 < (walkOf x1 y1 x2 y2).dy := by simp only [walkOf]; omega
    exact (errInRange_passAt hw hdiff k).bounds hw.dx_nonneg hw.dy_nonneg

/-! ## Lines -/

/-- A line of disks leaves every byte that holds none of their in-frame pixels (R126). -/
theorem Memory.read_stampDisks {m : Memory} (h : m.wf = true) (pts : List (Int × Int)) (d : Nat) (on : Bool) {a : Nat}
    (ha : ∀ u v : Int, inBounds u v = true → (∃ p ∈ pts, inDisk p.1 p.2 d u v = true) → a ≠ pixIndex u v) :
    (m.stampDisks pts d on).read a = m.read a := by
  induction pts generalizing m with
  | nil => rfl
  | cons p rest ih =>
    have hrec : m.stampDisks (p :: rest) d on = (m.disk p.1 p.2 d on).stampDisks rest d on := rfl
    rw [hrec, ih (Memory.wf_disk h p.1 p.2 d on) fun u v huv ⟨q, hq, hd⟩ =>
        ha u v huv ⟨q, List.mem_cons_of_mem _ hq, hd⟩,
      Memory.read_disk h p.1 p.2 d on fun u v huv hd => ha u v huv ⟨p, List.mem_cons_self .., hd⟩]

/-- Settles O21: the line is a disk at every point of the walk. -/
theorem drawLineStampsWalk : Obligations.DrawLineStampsWalk := by
  unfold Obligations.DrawLineStampsWalk
  simp only [← inDisk_iff]
  intro x1 y1 x2 y2 on thick s hwf
  refine ⟨_, exec_drawLine x1 y1 x2 y2 on thick s, Memory.wf_stampDisks hwf _ thick on, fun u v huv => ?_,
    fun a ha => Memory.read_stampDisks hwf _ thick on ha⟩
  have hpix := Memory.pix_stampDisks hwf (walk x1 y1 x2 y2) thick on huv
  exact ⟨fun hin => hpix.trans (if_pos hin), fun hout => hpix.trans (if_neg hout)⟩

/-- Settles O22: a disk of diameter 0 or 1 is the point of the walk it stands at. -/
theorem thinLineIsTheWalk : Obligations.ThinLineIsTheWalk := by
  unfold Obligations.ThinLineIsTheWalk
  intro x1 y1 x2 y2 on thick s t hwf hthick hx u v huv
  rw [exec_drawLine] at hx
  obtain rfl := Host.Outcome.next.inj hx
  refine (Memory.pix_stampDisks hwf (walk x1 y1 x2 y2) thick on huv).trans ?_
  simp only [inDisk_of_le_one hthick, exists_eq_right']

end Sys2Proof.Machine
end

section
/-! SUPPORT. Proofs about the image command (42_image.md): DRAW_IMAGE by the decoder's answer, the pixels and bytes that
compositing leaves, and the laws of RESAMPLE. -/

namespace Sys2Proof.Machine

/-! ## The decoder's planned answer -/

theorem State.decodeAnswer_planned {s : State} {answer : Option Image} {rest : List (Option Image)}
    (h : s.env.decodeAnswers = answer :: rest) (handle : Word) : s.decodeAnswer handle = answer := by
  simp only [State.decodeAnswer, h]

/-- Asking takes the oldest planned answer and is seen (R140). -/
theorem State.afterDecode_planned {s : State} {answer : Option Image} {rest : List (Option Image)}
    (h : s.env.decodeAnswers = answer :: rest) (handle : Word) : s.afterDecode handle =
      { s with env := { s.env with decodeAnswers := rest }
               obs := { s.obs with asked := s.obs.asked ++ [.decode handle] } } := by
  simp only [State.afterDecode, h]

/-! ## The command, by the decoder's answer -/

theorem exec_drawImage_fail {s : State} {handle : Word} (h : s.decodeAnswer handle = none) (xo yo : Int) (scale : Nat) :
    exec (.drawImage handle xo yo scale) s = .next ((s.afterDecode handle).raiseError 3 .decodeError) := by
  change execDrawImage handle xo yo scale s = _
  simp only [execDrawImage, h]

theorem exec_drawImage_image {s : State} {handle : Word} {img : Image} (h : s.decodeAnswer handle = some img) (xo yo : Int)
    (scale : Nat) : exec (.drawImage handle xo yo scale) s =
      .next (((s.afterDecode handle).setFb (s.fb.composite img scale xo yo)).retire 3) := by
  change execDrawImage handle xo yo scale s = _
  simp only [execDrawImage, h]

/-! ## RESAMPLE -/

@[simp] theorem resample_w (img : Image) (nw nh : Nat) : (resample img nw nh).w = nw := (resampleWith_size _ img nw nh).1

@[simp] theorem resample_h (img : Image) (nw nh : Nat) : (resample img nw nh).h = nh := (resampleWith_size _ img nw nh).2

@[simp] theorem resample_same (img : Image) : resample img img.w img.h = img := resampleWith_same _ img

/-! ## Compositing -/

/-- A pixel that an image at an offset lights: one of its rectangle, of alpha > 127 (R143, R144). -/
def imageLights (img : Image) (xo yo u v : Int) : Bool :=
  (xo ≤ u && u < xo + img.w && yo ≤ v && v < yo + img.h) && opaqueAt img (u - xo).toNat (v - yo).toNat

/-- The pixels lit, as the statements write them (R143). -/
theorem imageLights_iff {img : Image} {xo yo u v : Int} :
    imageLights img xo yo u v = true ↔ xo ≤ u ∧ u < xo + img.w ∧ yo ≤ v ∧ v < yo + img.h ∧
      127 < (imagePixel img (u - xo).toNat (v - yo).toNat).a.toNat := by
  simp only [imageLights, opaqueAt, Bool.and_eq_true, decide_eq_true_eq, and_assoc]

/-- A resampled image lights pixels of the rectangle of its new size (R142, law a). -/
theorem imageLights_resample_iff {img : Image} {nw nh : Nat} {xo yo u v : Int} :
    imageLights (resample img nw nh) xo yo u v = true ↔ xo ≤ u ∧ u < xo + nw ∧ yo ≤ v ∧ v < yo + nh ∧
      127 < (imagePixel (resample img nw nh) (u - xo).toNat (v - yo).toNat).a.toNat := by
  rw [imageLights_iff, resample_w, resample_h]

theorem mem_imagePoints_iff_imageLights {img : Image} {xo yo u v : Int} :
    (u, v) ∈ imagePoints img xo yo ↔ inBounds u v = true ∧ imageLights img xo yo u v = true := by
  simp only [mem_imagePoints, imageLights, Bool.and_eq_true, decide_eq_true_eq, and_assoc]

/-- An image of a dimension 0 lights no pixel (R141). -/
theorem imageLights_of_empty {img : Image} (h : img.w = 0 ∨ img.h = 0) (xo yo u v : Int) :
    imageLights img xo yo u v = false := by
  rw [Bool.eq_false_iff, ne_eq, imageLights_iff]
  omega

/-- Compositing sets the pixels of the resampled image, also where a new dimension is 0 and it has none (R141, R144). -/
theorem Memory.composite_eq_setPixels (m : Memory) (img : Image) (scale : Nat) (xo yo : Int) :
    m.composite img scale xo yo =
      m.setPixels (imagePoints (resample img (scaledSize img.w scale) (scaledSize img.h scale)) xo yo) true := by
  simp only [Memory.composite, Memory.compositeWith]
  split
  next hzero =>
    have hnone : imagePoints (resample img (scaledSize img.w scale) (scaledSize img.h scale)) xo yo = [] :=
      List.eq_nil_iff_forall_not_mem.mpr fun p hp =>
        Bool.eq_false_iff.mp (imageLights_of_empty (by simpa using hzero) ..) (mem_imagePoints_iff_imageLights.mp hp).2
    rw [hnone]
    rfl
  next => rfl

/-- A pixel is lit after compositing when the resampled image lights it or it was lit before (R143, R144). -/
theorem Memory.pix_composite {m : Memory} (h : m.wf = true) (img : Image) (scale : Nat) (xo yo : Int) {u v : Int}
    (huv : inBounds u v = true) :
    (m.composite img scale xo yo).pix u v =
      (imageLights (resample img (scaledSize img.w scale) (scaledSize img.h scale)) xo yo u v || m.pix u v) := by
  rw [Memory.composite_eq_setPixels, Memory.pix_setPixels h _ _ huv]
  simp only [mem_imagePoints_iff_imageLights, huv, true_and, Bool.if_true_left, Bool.decide_eq_true]

/-- Compositing leaves every byte that holds no pixel it lights (R143, R144). -/
theorem Memory.read_composite {m : Memory} (h : m.wf = true) (img : Image) (scale : Nat) (xo yo : Int) {a : Nat}
    (ha : ∀ u v : Int, inBounds u v = true →
      imageLights (resample img (scaledSize img.w scale) (scaledSize img.h scale)) xo yo u v = true → a ≠ pixIndex u v) :
    (m.composite img scale xo yo).read a = m.read a := by
  rw [Memory.composite_eq_setPixels]
  exact Memory.read_setPixels h _ true a fun p hp hin => ha p.1 p.2 hin (mem_imagePoints_iff_imageLights.mp hp).2

/-! ## The obligations -/

/-- Settles O24: the framebuffer is the composite of the planned image, whose pixels and bytes are known. -/
theorem drawImageStampsAlphaMask : Obligations.DrawImageStampsAlphaMask := by
  unfold Obligations.DrawImageStampsAlphaMask
  intro handle xo yo scale s img rest hwf hplan nw nh out lit
  have hlit (u v : Int) : imageLights out xo yo u v = true ↔ lit u v := imageLights_resample_iff
  refine ⟨s.fb.composite img scale xo yo, ?_, Memory.wf_composite hwf img scale xo yo, fun u v huv => ?_,
    fun a ha => Memory.read_composite hwf img scale xo yo fun u v huv hin => ha u v huv ((hlit u v).mp hin)⟩
  · rw [exec_drawImage_image (State.decodeAnswer_planned hplan handle), State.afterDecode_planned hplan handle]
    rfl
  · have hpix : (s.fb.composite img scale xo yo).pix u v = (imageLights out xo yo u v || s.fb.pix u v) :=
      Memory.pix_composite hwf img scale xo yo huv
    rw [hpix, ← hlit]
    exact ⟨fun hin => by rw [hin, Bool.true_or], fun hout => by rw [Bool.eq_false_iff.mpr hout, Bool.false_or]⟩

/-- Settles O25: a failed decode leaves the framebuffer, and compositing only lights pixels. -/
theorem imageNeverClears : Obligations.ImageNeverClears := by
  unfold Obligations.ImageNeverClears
  intro handle xo yo scale s t hwf hx u v huv hset
  cases hans : s.decodeAnswer handle with
  | none =>
    rw [exec_drawImage_fail hans] at hx
    obtain rfl := Host.Outcome.next.inj hx
    rw [State.raiseError_fb, State.afterDecode_fb, hset]
  | some img =>
    rw [exec_drawImage_image hans] at hx
    obtain rfl := Host.Outcome.next.inj hx
    rw [State.retire_fb, State.setFb_fb, Memory.pix_composite hwf img scale xo yo huv, hset, Bool.or_true]

/-- Settles O26: the sizes of R142's law (a), the image itself by its law (c), and so its alpha mask at scale 1.0. -/
theorem resampleKeepsItsLaws : Obligations.ResampleKeepsItsLaws := by
  unfold Obligations.ResampleKeepsItsLaws
  refine ⟨fun img nw nh => ⟨resample_w img nw nh, resample_h img nw nh⟩, resample_same,
    fun m img xo yo u v hwf huv => ?_⟩
  rw [Memory.pix_composite hwf img 0x0100 xo yo huv, scaledSize_one, scaledSize_one, resample_same, Bool.or_eq_true,
    imageLights_iff, or_comm]

/-- Settles O23: the planned FAIL ends in error entry, which keeps the framebuffer. -/
theorem drawImageDecodeFailure : Obligations.DrawImageDecodeFailure := by
  unfold Obligations.DrawImageDecodeFailure
  intro handle xo yo scale s rest hplan
  rw [exec_drawImage_fail (State.decodeAnswer_planned hplan handle), State.afterDecode_planned hplan handle]
  rfl

end Sys2Proof.Machine
end

section
/-! SUPPORT. Proofs about the text command (43_text.md): the tokens and the shrink loop, what one pass of the layout does and
how many passes there are, the bytes and pixels that transfer leaves, and DRAW_TEXT by the font provider's answer. -/

namespace Sys2Proof.Machine

/-! ## Tokens -/

theorem tokens_cons_space (rest : List Byte) : tokens (0x20#8 :: rest) = [] :: tokens rest := rfl

theorem tokens_cons_of_ne {b : Byte} {rest t : List Byte} {ts : List (List Byte)} (hb : b ≠ 0x20#8)
    (h : tokens rest = t :: ts) : tokens (b :: rest) = (b :: t) :: ts := by
  simp only [tokens, h]
  exact if_neg hb

/-- The tokens of a text, one byte at a time: a space begins a token, any other byte joins the first one (R162). -/
theorem tokens_cons (b : Byte) (rest : List Byte) :
    (b = 0x20#8 ∧ tokens (b :: rest) = [] :: tokens rest) ∨
    (b ≠ 0x20#8 ∧ ∃ t ts, tokens rest = t :: ts ∧ tokens (b :: rest) = (b :: t) :: ts) := by
  by_cases hb : b = 0x20#8
  · subst hb; exact .inl ⟨rfl, tokens_cons_space rest⟩
  · obtain ⟨t, ts, h⟩ := List.exists_cons_of_ne_nil (tokens_ne_nil rest)
    exact .inr ⟨hb, t, ts, h, tokens_cons_of_ne hb h⟩

/-- Tokens is the library's split at a byte. -/
theorem tokens_eq_splitOn (text : List Byte) : tokens text = text.splitOn 0x20#8 := by
  induction text with
  | nil => rfl
  | cons b rest ih =>
    rw [List.splitOn_cons_eq_if_modifyHead, ← ih]
    rcases tokens_cons b rest with ⟨rfl, h⟩ | ⟨hb, t, ts, hrest, h⟩
    · rw [h]; rfl
    · rw [h, hrest, if_neg (by simpa using hb), List.modifyHead_cons]

theorem tokens_length (text : List Byte) : (tokens text).length = text.count 0x20#8 + 1 := by
  induction text with
  | nil => rfl
  | cons b rest ih =>
    rcases tokens_cons b rest with ⟨rfl, h⟩ | ⟨hb, t, ts, hrest, h⟩
    · rw [h, List.length_cons, ih, List.count_cons_self]
    · rw [h, List.count_cons_of_ne hb, ← ih, hrest, List.length_cons, List.length_cons]

theorem space_notMem_of_mem_tokens (text : List Byte) : ∀ t ∈ tokens text, 0x20#8 ∉ t := by
  induction text with
  | nil => simp [tokens]
  | cons b rest ih =>
    rcases tokens_cons b rest with ⟨rfl, h⟩ | ⟨hb, t, ts, hrest, h⟩
    · rw [h, List.forall_mem_cons]
      exact ⟨List.not_mem_nil, ih⟩
    · rw [hrest, List.forall_mem_cons] at ih
      obtain ⟨ht, hts⟩ := ih
      rw [h, List.forall_mem_cons]
      exact ⟨List.not_mem_cons_of_ne_of_not_mem hb.symm ht, hts⟩

/-- Settles O30: the count and the space-freeness byte by byte, the joining by the library's lemma about splits. -/
theorem tokensSplitAtSpaces : Obligations.TokensSplitAtSpaces := by
  unfold Obligations.TokensSplitAtSpaces
  refine fun text => ⟨tokens_length text, space_notMem_of_mem_tokens text, ?_⟩
  rw [tokens_eq_splitOn]
  exact List.intercalate_splitOn _

/-! ## The shrink loop -/

theorem shrinkFrom_of_le_one (f : Nat → Bool) {n : Nat} (hn : n ≤ 1) : shrinkFrom f n = n := by
  interval_cases n <;> rfl

/-- The shrink loop ends at a length that fits, or at one byte, and no longer one that it tried fits (R164). -/
theorem shrinkFrom_longest (f : Nat → Bool) (n : Nat) :
    (f (shrinkFrom f n) = true ∨ shrinkFrom f n ≤ 1) ∧ ∀ j, shrinkFrom f n < j → j < n → f j = false := by
  fun_induction shrinkFrom f n with
  | case1 => exact ⟨.inr (by omega), by omega⟩
  | case2 => exact ⟨.inr (by omega), by omega⟩
  | case3 k hfit => exact ⟨.inl hfit, by omega⟩
  | case4 k hfit ih =>
    obtain ⟨hend, hmax⟩ := ih
    refine ⟨hend, fun j hlow hhigh => ?_⟩
    rcases Nat.lt_succ_iff_lt_or_eq.mp hhigh with hlt | rfl
    · exact hmax j hlow hlt
    · exact Bool.eq_false_iff.mpr hfit

/-- Settles O31, by the shrink loop's bounds and its longest fit. -/
theorem shrinkKeepsLongestFit : Obligations.ShrinkKeepsLongestFit := by
  unfold Obligations.ShrinkKeepsLongestFit
  intro fp wrap cx tok k fitsAt
  refine ⟨shrinkFrom_of_le_one _, fun htwo => ?_⟩
  obtain ⟨hlow, hhigh⟩ : 1 ≤ k ∧ k < tok.length := shrinkFrom_bounds _ _ htwo
  obtain ⟨hend, hmax⟩ := shrinkFrom_longest (fun j => cx + fp.textW (tok.take j ++ [hyphen]) ≤ wrap) tok.length
  exact ⟨hlow, hhigh, hend.imp of_decide_eq_true fun hone => le_antisymm hone hlow,
    fun j hj hj' => of_decide_eq_false (hmax j hj hj')⟩

/-- A token that is not kept whole keeps at least one byte (R164). -/
theorem shrinkLen_cases (fp : FontProvider) (wrap : Nat) (cx : Int) (tok : List Byte) :
    shrinkLen fp wrap cx tok = tok.length ∨ (1 ≤ shrinkLen fp wrap cx tok ∧ shrinkLen fp wrap cx tok < tok.length) := by
  rcases Nat.lt_or_ge 1 tok.length with htwo | hone
  · exact .inr (shrinkFrom_bounds _ _ htwo)
  · exact .inl (shrinkFrom_of_le_one _ hone)

/-! ## Rendering -/

/-- Settles O32, by the pixels that Render leaves. -/
theorem renderOrsPoints : Obligations.RenderOrsPoints := by
  unfold Obligations.RenderOrsPoints
  refine ⟨fun _ _ u v => Memory.zero_pix u v, fun fp str l hwf => ⟨renderAt_wf hwf, fun u v huv => ?_, rfl, rfl, rfl⟩⟩
  rw [renderAt_pix hwf huv, Bool.or_eq_true, decide_eq_true_eq]

/-! ## One pass of the layout -/

theorem fits_iff {wrap : Nat} {cx : Int} {w : Nat} : fits wrap cx w = true ↔ wrap = 0 ∨ cx + w ≤ wrap := by simp [fits]

/-- What is pending after the first k bytes of a token were rendered (R166). -/
def pendingAfter (k : Nat) (tok : List Byte) (pending : List (List Byte)) : List (List Byte) :=
  if k = tok.length then pending else tok.drop k :: pending

section
variable {fp : FontProvider} {x : Int} {wrap size : Nat}

@[simp] theorem layoutLoop_nil (n : Nat) (l : Layout) : layoutLoop fp x wrap size n [] l = l := by cases n <;> rfl

theorem layoutLoop_of_fits {tok : List Byte} {l : Layout} (h : fits wrap l.cx (fp.textW tok) = true) (n : Nat)
    (pending : List (List Byte)) :
    layoutLoop fp x wrap size (n + 1) (tok :: pending) l = layoutLoop fp x wrap size n pending (placeToken fp tok l) := by
  rw [layoutLoop, if_pos h]

theorem layoutLoop_of_not_fits {tok : List Byte} {l : Layout} (h : fits wrap l.cx (fp.textW tok) = false) (n : Nat)
    (pending : List (List Byte)) :
    layoutLoop fp x wrap size (n + 1) (tok :: pending) l =
      layoutLoop fp x wrap size n (pendingAfter (shrinkLen fp wrap l.cx tok) tok pending)
        (placeFragment fp x size (shrinkLen fp wrap l.cx tok) tok l) := by
  have hrest : (tok.drop (shrinkLen fp wrap l.cx tok)).isEmpty = true ↔ shrinkLen fp wrap l.cx tok = tok.length := by
    rw [List.isEmpty_iff, List.drop_eq_nil_iff]
    rcases shrinkLen_cases fp wrap l.cx tok with hk | ⟨-, hk⟩ <;> omega
  rw [layoutLoop, if_neg (Bool.eq_false_iff.mp h)]
  simp only [hrest, pendingAfter]

/-! ## The number of passes -/

/-- A bound on the passes that the pending tokens take: a pass renders a byte or ends a token (R173). -/
def passBound (pending : List (List Byte)) : Nat := (pending.map fun tok => tok.length + 1).sum

theorem passBound_cons (tok : List Byte) (pending : List (List Byte)) :
    passBound (tok :: pending) = tok.length + 1 + passBound pending := by simp [passBound]

theorem passBound_tokens (text : List Byte) : passBound (tokens text) = text.length + 1 := by
  induction text with
  | nil => rfl
  | cons b rest ih =>
    rcases tokens_cons b rest with ⟨rfl, h⟩ | ⟨hb, t, ts, hrest, h⟩
    · rw [h, passBound_cons, ih, List.length_nil, List.length_cons]; omega
    · rw [hrest, passBound_cons] at ih
      rw [h, passBound_cons, List.length_cons, List.length_cons]; omega

/-- A token that does not fit leaves fewer passes to come (R173). -/
theorem passBound_pendingAfter_lt (fp : FontProvider) (wrap : Nat) (cx : Int) (tok : List Byte) (pending : List (List Byte)) :
    passBound (pendingAfter (shrinkLen fp wrap cx tok) tok pending) < passBound (tok :: pending) := by
  rw [passBound_cons]
  rcases shrinkLen_cases fp wrap cx tok with hk | ⟨hlow, hhigh⟩
  · rw [pendingAfter, if_pos hk]; omega
  · rw [pendingAfter, if_neg hhigh.ne, passBound_cons, List.length_drop]; omega

/-- What a pass can do: fewer passes are left to come, and the cursor stays on its line or goes down by FONT_SIZE
(R165, R166, R173). -/
theorem layoutLoop_cons (fp : FontProvider) (x : Int) (wrap size : Nat) (tok : List Byte) (pending : List (List Byte))
    (l : Layout) : ∃ pending' l',
    passBound pending' < passBound (tok :: pending) ∧ (l'.cy = l.cy ∨ l'.cy = l.cy + size) ∧
    ∀ n, layoutLoop fp x wrap size (n + 1) (tok :: pending) l = layoutLoop fp x wrap size n pending' l' := by
  cases h : fits wrap l.cx (fp.textW tok) with
  | true =>
    exact ⟨pending, placeToken fp tok l, by rw [passBound_cons]; omega, .inl (placeToken_cy ..),
      fun n => layoutLoop_of_fits h n pending⟩
  | false =>
    exact ⟨_, _, passBound_pendingAfter_lt fp wrap l.cx tok pending, .inr (placeFragment_cy ..),
      fun n => layoutLoop_of_not_fits h n pending⟩

/-- More passes than the bound change nothing. -/
theorem layoutLoop_add {n : Nat} {pending : List (List Byte)} (h : passBound pending ≤ n) (extra : Nat) (l : Layout) :
    layoutLoop fp x wrap size (n + extra) pending l = layoutLoop fp x wrap size n pending l := by
  induction n generalizing pending l with
  | zero =>
    cases pending with
    | nil => rw [layoutLoop_nil, layoutLoop_nil]
    | cons tok pending => rw [passBound_cons] at h; omega
  | succ n ih =>
    cases pending with
    | nil => rw [layoutLoop_nil, layoutLoop_nil]
    | cons tok pending =>
      obtain ⟨pending', l', hlt, -, hpass⟩ := layoutLoop_cons fp x wrap size tok pending l
      rw [Nat.add_right_comm, hpass, hpass, ih (by omega)]

/-- The cursor ends a number of lines below its start (R166, R168). -/
theorem layoutLoop_cy (n : Nat) (pending : List (List Byte)) (l : Layout) :
    ∃ k : Nat, (layoutLoop fp x wrap size n pending l).cy = l.cy + k * size := by
  induction n generalizing pending l with
  | zero => exact ⟨0, by simp [layoutLoop]⟩
  | succ n ih =>
    cases pending with
    | nil => exact ⟨0, by simp⟩
    | cons tok pending =>
      obtain ⟨pending', l', -, hcy, hpass⟩ := layoutLoop_cons fp x wrap size tok pending l
      obtain ⟨k, hk⟩ := ih pending' l'
      rw [hpass, hk]
      rcases hcy with hcy | hcy
      · exact ⟨k, by rw [hcy]⟩
      · exact ⟨k + 1, by rw [hcy]; push_cast; ring⟩

/-! ## Unbounded text -/

/-- With WRAP = 0 every token is placed whole (R163, R172). -/
theorem layoutLoop_unbounded {n : Nat} {pending : List (List Byte)} (h : pending.length ≤ n) (l : Layout) :
    layoutLoop fp x 0 size n pending l = pending.foldl (fun l tok => placeToken fp tok l) l := by
  induction pending generalizing n l with
  | nil => exact layoutLoop_nil n l
  | cons tok pending ih =>
    obtain ⟨n, rfl⟩ := Nat.exists_eq_add_of_le' (Nat.one_le_of_lt h)
    rw [layoutLoop_of_fits (fits_iff.mpr (.inl rfl)), ih (by simpa using h), List.foldl_cons]

end

/-- Placing tokens leaves the cursor on its line (R165). -/
theorem foldl_placeToken_cy (fp : FontProvider) (toks : List (List Byte)) (l : Layout) :
    (toks.foldl (fun l tok => placeToken fp tok l) l).cy = l.cy := by
  induction toks generalizing l with
  | nil => rfl
  | cons tok toks ih => rw [List.foldl_cons, ih, placeToken_cy]

theorem layoutText_unbounded (fp : FontProvider) (x y : Int) (size : Nat) (text : List Byte) :
    layoutText fp x y 0 size text = (tokens text).foldl (fun l tok => placeToken fp tok l) (layoutStart x y) := by
  have hcount : text.count 0x20#8 ≤ text.length := List.count_le_length
  exact layoutLoop_unbounded (by rw [tokens_length]; omega) _

/-! ## The obligations on the layout -/

/-- Settles O33: the equation of each kind of pass, and the loop of an unbounded text. -/
theorem unboundedTextNeverWraps : Obligations.UnboundedTextNeverWraps := by
  unfold Obligations.UnboundedTextNeverWraps
  refine ⟨fun _ _ _ _ _ _ => rfl, fun _ _ _ _ n l => layoutLoop_nil n l, fun fp x wrap size n tok pending l => ⟨?_, ?_⟩,
    fun fp x y size text => ⟨layoutText_unbounded fp x y size text, ?_⟩⟩
  · exact fun hfit => layoutLoop_of_fits (fits_iff.mpr hfit) n pending
  · rintro hwrap hover _ _ rfl rfl
    have hnot : fits wrap l.cx (fp.textW tok) = false := by
      rw [Bool.eq_false_iff, ne_eq, fits_iff]; omega
    exact layoutLoop_of_not_fits hnot n pending
  · rw [layoutText_unbounded, foldl_placeToken_cy]; rfl

/-- Settles O34: the tokens of L bytes take at most L + 1 passes. -/
theorem layoutLoopEnds : Obligations.LayoutLoopEnds := by
  unfold Obligations.LayoutLoopEnds
  intro fp x wrap size extra text l
  exact layoutLoop_add (by rw [passBound_tokens]; omega) extra l

/-- Settles O35: the cursor is k lines below its start. -/
theorem layoutHeightIsNatural : Obligations.LayoutHeightIsNatural := by
  unfold Obligations.LayoutHeightIsNatural
  intro fp x y wrap size text
  obtain ⟨k, hk⟩ : ∃ k : Nat, (layoutText fp x y wrap size text).cy = y + k * size := layoutLoop_cy _ _ _
  refine ⟨k, hk, ?_⟩
  have hnat : y + (k * size : Int) - y + (layoutText fp x y wrap size text).maxh
      = ((k * size + (layoutText fp x y wrap size text).maxh : Nat) : Int) := by push_cast; ring
  rw [layoutHeight, hk, hnat, BitVec.ofInt_natCast]

/-! ## Transfer -/

/-- Bit b of the byte at column x of a page is the pixel (x, page × 8 + b) (R21). -/
theorem Memory.pix_of_page (m : Memory) {page x b : Nat} (hb : b < 8) :
    m.pix x (page * 8 + b : Nat) = (m.read (x + page * 128)).getLsbD b := by
  have hidx : pixIndex x (page * 8 + b : Nat) = x + page * 128 := by simp only [pixIndex, Int.toNat_natCast]; omega
  have hbit : pixBit (page * 8 + b : Nat) = b := by simp only [pixBit, Int.toNat_natCast]; omega
  rw [Memory.pix, hidx, hbit]

/-- A byte that holds no lit pixel is 0x00 (R21). -/
theorem Memory.read_of_unlit {m : Memory} {a : Nat} (ha : a < 1024)
    (h : ∀ u v : Int, inBounds u v = true → m.pix u v = true → a ≠ pixIndex u v) : m.read a = 0#8 := by
  refine BitVec.eq_of_getLsbD_eq fun b hb => ?_
  obtain ⟨u, v, huv, rfl, rfl⟩ := exists_pixel_of_bit ha hb
  rw [BitVec.getLsbD_zero, Bool.eq_false_iff]
  exact fun hlit => h u v huv hlit rfl

theorem Memory.read_transfer_outside {m : Memory} (h : m.wf = true) (canvas : Memory) {a : Nat} (ha : 1024 ≤ a) :
    (m.transfer canvas).read a = m.read a := by
  rw [Memory.read_outside (Memory.wf_transfer h canvas) ha, Memory.read_outside h ha]

/-- Transfer leaves every byte that holds no lit canvas pixel (R170). -/
theorem Memory.read_transfer_of_unlit {m : Memory} (h : m.wf = true) {canvas : Memory} {a : Nat}
    (ha : ∀ u v : Int, inBounds u v = true → canvas.pix u v = true → a ≠ pixIndex u v) :
    (m.transfer canvas).read a = m.read a := by
  rcases Nat.lt_or_ge a 1024 with hin | hout
  · rw [Memory.read_transfer h canvas hin, Memory.read_of_unlit hin ha, BitVec.or_zero]
  · exact Memory.read_transfer_outside h canvas hout

/-- Transfer is SetPixel of the lit canvas points (R170). -/
theorem Memory.transfer_eq_setPixels {m canvas : Memory} (h : m.wf = true) {pts : List (Int × Int)}
    (hpts : ∀ u v : Int, inBounds u v = true → ((u, v) ∈ pts ↔ canvas.pix u v = true)) :
    m.transfer canvas = m.setPixels pts true := by
  refine Memory.pix_ext (Memory.wf_transfer h canvas) (Memory.wf_setPixels h pts true) fun u v huv => ?_
  rw [Memory.pix_transfer h canvas huv, Memory.pix_setPixels h pts true huv, Bool.or_comm]
  simp only [hpts u v huv, Bool.if_true_left, Bool.decide_eq_true]

/-- Settles O36, by the bytes and pixels that transfer leaves. -/
theorem transferOrsCanvasBytes : Obligations.TransferOrsCanvasBytes := by
  unfold Obligations.TransferOrsCanvasBytes
  refine fun m canvas hwf => ⟨Memory.wf_transfer hwf canvas, fun page x hpage hx b hb => ?_,
    fun a ha => Memory.read_transfer_outside hwf canvas ha, fun pts hpts => Memory.transfer_eq_setPixels hwf hpts⟩
  rw [Memory.read_transfer hwf canvas (by omega), BitVec.getLsbD_or, Memory.pix_of_page canvas hb]

/-! ## The font provider's planned answer -/

theorem State.fontAnswer_planned {s : State} {answer : Bool} {rest : List Bool}
    (h : s.env.fontAnswers = answer :: rest) (font : Word) (size : Nat) : s.fontAnswer font size = answer := by
  simp only [State.fontAnswer, h]

/-- Asking takes the oldest planned answer and is seen (R160). -/
theorem State.afterFontOk_planned {s : State} {answer : Bool} {rest : List Bool}
    (h : s.env.fontAnswers = answer :: rest) (font : Word) (size : Nat) : s.afterFontOk font size =
      { s with env := { s.env with fontAnswers := rest }
               obs := { s.obs with asked := s.obs.asked ++ [.fontOk font size] } } := by
  simp only [State.afterFontOk, h]

/-! ## The empty test -/

/-- The whitespace bytes (R161). -/
theorem isWhite_iff {b : Byte} : isWhite b = true ↔ b ∈ [0x09#8, 0x0A#8, 0x0B#8, 0x0C#8, 0x0D#8, 0x20#8] := by
  simp [isWhite, or_assoc]

theorem textBlank_iff {text : List Byte} :
    textBlank text = true ↔ ∀ b ∈ text, b ∈ [0x09#8, 0x0A#8, 0x0B#8, 0x0C#8, 0x0D#8, 0x20#8] := by
  simp only [textBlank, List.all_eq_true, isWhite_iff]

theorem textBlank_of_mem {text : List Byte} {b : Byte} (hmem : b ∈ text)
    (hb : b ∉ [0x09#8, 0x0A#8, 0x0B#8, 0x0C#8, 0x0D#8, 0x20#8]) : textBlank text = false := by
  rw [Bool.eq_false_iff, ne_eq, textBlank_iff]
  exact fun hall => hb (hall b hmem)

/-- Writing the framebuffer that is there changes nothing. -/
theorem State.setFb_eq_self {s : State} {fb : Memory} (h : s.fb = fb) : s.setFb fb = s := h ▸ rfl

/-! ## The command, by the empty test and the provider's answer -/

section
variable (x y : Int) (wrap : Nat) {size : Nat} {font : Word} (g : Bool) {text : List Byte} {s : State}

theorem exec_drawText_blank (h : textBlank text = true) : exec (.drawText x y wrap size font g text) s =
    .next ((s.setResult 0).retire (textPacketLength text.length)) := by
  change execDrawText x y wrap size font g text s = _
  rw [execDrawText, drawTextWith, if_pos h]

theorem exec_drawText_fail (h : textBlank text = false) (hfont : s.fontAnswer font size = false) :
    exec (.drawText x y wrap size font g text) s =
      .next ((s.afterFontOk font size).raiseError (textPacketLength text.length) .fontError) := by
  change execDrawText x y wrap size font g text s = _
  simp only [execDrawText, drawTextWith, h, hfont, Bool.false_eq_true, if_false]

/-- DRAW_TEXT of a font that loads writes RESULT, and FB by transfer unless G = 1 (R168, R171). -/
theorem exec_drawText_loaded (h : textBlank text = false) (hfont : s.fontAnswer font size = true) {l : Layout}
    (hl : layoutText (fontProvider font size) x y wrap size text = l) : exec (.drawText x y wrap size font g text) s =
      .next ((((s.afterFontOk font size).setResult (layoutHeight y l)).setFb
        (if g then s.fb else s.fb.transfer l.canvas)).retire (textPacketLength text.length)) := by
  change execDrawText x y wrap size font g text s = _
  simp only [execDrawText, drawTextWith, h, hfont, hl, Bool.false_eq_true, if_false, if_true, State.setResult_fb,
    State.afterFontOk_fb]
  cases g with
  | false => simp only [Bool.false_eq_true, if_false]
  | true =>
    have hfb : ((s.afterFontOk font size).setResult (layoutHeight y l)).fb = s.fb := State.afterFontOk_fb s font size
    simp only [if_true, State.setFb_eq_self hfb]

end

/-! ## The obligations on DRAW_TEXT -/

/-- Settles O27: the empty test answers before the font is asked. -/
theorem blankTextIsNoOp : Obligations.BlankTextIsNoOp := by
  unfold Obligations.BlankTextIsNoOp
  intro x y wrap size font g text s hwhite
  exact exec_drawText_blank x y wrap g (textBlank_iff.mpr hwhite)

/-- Settles O28: the planned answer false ends in error entry. -/
theorem fontFailureEndsText : Obligations.FontFailureEndsText := by
  unfold Obligations.FontFailureEndsText
  intro x y wrap size font g text s b rest hmem hb hplan
  rw [exec_drawText_fail x y wrap g (textBlank_of_mem hmem hb) (State.fontAnswer_planned hplan font size),
    State.afterFontOk_planned hplan]
  rfl

/-- Settles O29: the framebuffer is the transfer of the layout's canvas, or with G = 1 stays. -/
theorem drawTextTransfersCanvas : Obligations.DrawTextTransfersCanvas := by
  unfold Obligations.DrawTextTransfersCanvas
  intro x y wrap size font g text s b rest hwf hmem hb hplan l
  refine ⟨if g then s.fb else s.fb.transfer l.canvas, ?_, ?_, fun hg => by rw [hg]; rfl, ?_⟩
  · rw [exec_drawText_loaded x y wrap g (textBlank_of_mem hmem hb) (State.fontAnswer_planned hplan font size) rfl,
      State.afterFontOk_planned hplan]
    rfl
  · cases g
    · exact Memory.wf_transfer hwf l.canvas
    · exact hwf
  · rintro rfl
    exact ⟨fun u v huv => Memory.pix_transfer hwf l.canvas huv, fun a ha => Memory.read_transfer_of_unlit hwf ha⟩

end Sys2Proof.Machine
end

section
/-! SUPPORT. Proofs about the streamer commands (44_streamer.md): what each move appends to the sink log, FLUSH and INIT by the
sink's planned answers, and the transactions of a FLUSH by position and by tag. -/

namespace Sys2Proof.Machine

/-! ## What a move appends to the sink log -/

/-- From s to t the parameters stay and the sink log grows by `new`. -/
def LogGrows (s t : State) (new : List SinkTxn) : Prop := t.cfg = s.cfg ∧ t.obs.sink = s.obs.sink ++ new

/-- `new` is a prefix of the transactions of the FLUSH or INIT in the packet buffer, in their order (R191). -/
def OfPacket (s : State) (new : List SinkTxn) : Prop :=
  ∃ n, (decode s.pkt = .ok .flush n ∧ new.map (fun x => (x.tag, x.byte)) <+: flushTxns s.cfg s.fb) ∨
    (decode s.pkt = .ok .init n ∧ new.map (fun x => (x.tag, x.byte)) <+: initTxns s.cfg)

theorem LogGrows.unchanged {s t : State} (hcfg : t.cfg = s.cfg) (hsink : t.obs.sink = s.obs.sink) : LogGrows s t [] :=
  ⟨hcfg, by rw [hsink, List.append_nil]⟩

theorem emitAll_logGrows (txns : List (SinkTag × Byte)) (s : State) :
    ∃ new, LogGrows s (emitAll txns s).1 new ∧ new.map (fun x => (x.tag, x.byte)) <+: txns := by
  obtain ⟨new, hsink, hprefix⟩ := emitAll_log txns s
  obtain ⟨answers, draws, sink, hframe⟩ := emitAll_frame txns s
  exact ⟨new, ⟨by rw [hframe], hsink⟩, hprefix⟩

/-- A command appends nothing, or a prefix of the transactions it streams. -/
theorem exec_logGrows {i : Instr} {s t : State} (hx : exec i s = .next t) :
    ∃ new, LogGrows s t new ∧
      (new = [] ∨ ∃ txns, IsStream i s txns ∧ new.map (fun x => (x.tag, x.byte)) <+: txns) := by
  obtain ⟨u, t', hx', ⟨⟨env, obs, hu⟩, hlog⟩, hend⟩ := exec_cases i s
  obtain rfl : t' = t := by simpa using hx'.symm.trans hx
  obtain ⟨hcfg, hobs⟩ : t'.cfg = u.cfg ∧ t'.obs = u.obs := by
    rcases hend with ⟨fb, r, rfl, -⟩ | ⟨c, rfl, -⟩ <;> exact ⟨rfl, rfl⟩
  rcases hlog with hsink | ⟨txns, hstream, rfl⟩
  · exact ⟨[], .unchanged (by rw [hcfg, hu]) (by rw [hobs, hsink]), .inl rfl⟩
  · obtain ⟨new, ⟨hc, hs⟩, hprefix⟩ := emitAll_logGrows txns s
    exact ⟨new, ⟨hcfg.trans hc, by rw [hobs, hs]⟩, .inr ⟨txns, hstream, hprefix⟩⟩

/-- The transactions of the packet's command are those of the packet. -/
theorem IsStream.ofPacket {i : Instr} {n : Nat} {s : State} {txns : List (SinkTag × Byte)} {new : List SinkTxn}
    (h : IsStream i s txns) (hd : decode s.pkt = .ok i n) (hp : new.map (fun x => (x.tag, x.byte)) <+: txns) :
    OfPacket s new := by
  rcases h with ⟨rfl, rfl⟩ | ⟨rfl, rfl⟩
  · exact ⟨n, .inl ⟨hd, hp⟩⟩
  · exact ⟨n, .inr ⟨hd, hp⟩⟩

/-- The engine's move appends nothing, or runs the FLUSH or INIT in the packet buffer. -/
theorem engineStep_logGrows {s t : State} (h : engineStep s = .next t) :
    ∃ new, LogGrows s t new ∧ (new = [] ∨ s.engine ≠ .halted ∧ OfPacket s new) := by
  rcases engineStep_cases s with ⟨-, h2⟩ | ⟨he, i, n, hd, h2⟩ | ⟨-, c, n, -, h2⟩ | ⟨-, -, h2⟩ | ⟨-, -, h2⟩ <;>
    rw [h2] at h
  · cases h; exact ⟨[], .unchanged rfl rfl, .inl rfl⟩
  · obtain ⟨new, hgrows, hnew⟩ := exec_logGrows h
    refine ⟨new, hgrows, hnew.imp_right fun ⟨txns, hstream, hprefix⟩ => ?_⟩
    exact ⟨he, IsStream.ofPacket (s := s) hstream hd hprefix⟩
  · cases h; exact ⟨[], .unchanged rfl rfl, .inl rfl⟩
  · cases h
  · cases h
    obtain ⟨fifo, pkt, engine, hf⟩ := fetchWord_frame s
    exact ⟨[], by rw [hf]; exact .unchanged rfl rfl, .inl rfl⟩

/-- An aborted packet has appended nothing, or was a FLUSH or INIT (R243). -/
theorem abortedAfter_logGrows (k : Nat) (s : State) :
    ∃ new, LogGrows s (abortedAfter k s) new ∧ (new = [] ∨ OfPacket s new) := by
  have hcut : ∀ {i n txns}, decode s.pkt = .ok i n → IsStream i s txns →
      ∃ new, LogGrows s (emitAll (txns.take k) s).1 new ∧ (new = [] ∨ OfPacket s new) := by
    intro i n txns hd hstream
    obtain ⟨new, hgrows, hprefix⟩ := emitAll_logGrows (txns.take k) s
    exact ⟨new, hgrows, .inr (hstream.ofPacket hd (hprefix.trans (List.take_prefix k txns)))⟩
  unfold abortedAfter
  split
  case h_1 n hd => exact hcut hd (.inl ⟨rfl, rfl⟩)
  case h_2 n hd => exact hcut hd (.inr ⟨rfl, rfl⟩)
  case h_3 => exact ⟨[], by split <;> exact .unchanged (by simp) (by simp), .inl rfl⟩
  case h_4 => exact ⟨[], by split <;> exact .unchanged (by simp) (by simp), .inl rfl⟩
  all_goals exact ⟨[], .unchanged rfl rfl, .inl rfl⟩

/-- A reset appends nothing, or cuts short the FLUSH or INIT in execution (R243). -/
theorem hostReset_logGrows (s : State) :
    ∃ new, LogGrows s (hostReset s) new ∧ (new = [] ∨ s.engine = .exec ∧ OfPacket s new) := by
  unfold hostReset
  split
  · rename_i he
    obtain ⟨new, hgrows, hnew⟩ := abortedAfter_logGrows (Config.freeAbortPoint s.env.draws) s.drawn
    exact ⟨new, hgrows, hnew.imp_right fun hpkt => ⟨he, hpkt⟩⟩
  · exact ⟨[], .unchanged rfl rfl, .inl rfl⟩

/-- Settles O54, move by move: only the engine's move and a reset append, and each appends of the packet in the buffer. -/
theorem sinkLogOnlyGrows : Obligations.SinkLogOnlyGrows := by
  unfold Obligations.SinkLogOnlyGrows
  intro s t hs
  rcases step_cases hs with ⟨hn, hmove⟩ | ⟨offset, w, rest, ht, rfl⟩ | ⟨offset, rest, -, rfl⟩
  · obtain ⟨new, ⟨hcfg, hsink⟩, hnew⟩ := engineStep_logGrows hmove
    exact ⟨hcfg, new, hsink, hnew.imp_right fun ⟨he, hpkt⟩ => ⟨.inl ⟨hn, he⟩, hpkt⟩⟩
  · rcases hostWrite_cases offset w (s.withTurns rest) with ⟨ho, hw, hreset⟩ | ⟨_, _, _, _, _, hf⟩
    · obtain ⟨new, ⟨hcfg, hsink⟩, hnew⟩ := hostReset_logGrows (s.withTurns rest)
      rw [hreset]
      exact ⟨hcfg, new, hsink, hnew.imp_right fun ⟨he, hpkt⟩ => ⟨.inr ⟨resetNext_of_write ht ho hw, he⟩, hpkt⟩⟩
    · rw [hf]
      exact ⟨rfl, [], by simp, .inl rfl⟩
  · obtain ⟨env, reads, hf⟩ := hostRead_frame offset (s.withTurns rest)
    rw [hf]
    exact ⟨rfl, [], by simp, .inl rfl⟩

/-! ## A streamed packet, by the sink's planned answers -/

/-- The transactions as the sink log holds them, each answered OK. -/
def allOk (txns : List (SinkTag × Byte)) : List SinkTxn := txns.map fun t => ⟨t.1, t.2, true⟩

/-- The state with the given answers of the sink left, and `new` appended to the sink log. -/
def State.issued (s : State) (answers : List Bool) (new : List SinkTxn) : State :=
  { s with env := { s.env with sinkAnswers := answers }, obs := { s.obs with sink := s.obs.sink ++ new } }

theorem exec_of_isStream {i : Instr} {s : State} {txns : List (SinkTag × Byte)} (h : IsStream i s txns) :
    exec i s = .next (streamPacket txns s) := by
  rcases h with ⟨rfl, rfl⟩ | ⟨rfl, rfl⟩ <;> rfl

/-- Every answer OK: the packet completes, all its transactions issued (R194, R197). -/
theorem exec_stream_ok {i : Instr} {s : State} {txns : List (SinkTag × Byte)} {rest : List Bool} (h : IsStream i s txns)
    (hplan : s.env.sinkAnswers = List.replicate txns.length true ++ rest) :
    exec i s = .next ((s.issued rest (allOk txns)).retire 1) := by
  rw [exec_of_isStream h, streamPacket, emitAll_ok txns s rest hplan]
  rfl

/-- FAIL to transaction k: the packet ends in TRANSPORT_ERROR, the first k + 1 transactions issued (R198). -/
theorem exec_stream_fail {i : Instr} {s : State} {txns : List (SinkTag × Byte)} {k : Nat} {rest : List Bool}
    (h : IsStream i s txns) (hk : k < txns.length) (hplan : s.env.sinkAnswers = List.replicate k true ++ false :: rest) :
    exec i s = .next ((s.issued rest (allOk (txns.take k) ++ [⟨txns[k].1, txns[k].2, false⟩])).raiseError 1
      .transportError) := by
  rw [exec_of_isStream h, streamPacket, emitAll_fail txns s k rest hk hplan]
  simp only [State.issued, allOk, List.append_assoc]

theorem allOk_pairs (txns : List (SinkTag × Byte)) : (allOk txns).map (fun t => (t.tag, t.byte)) = txns := by
  simp [allOk, Function.comp_def]

theorem allOk_answers (txns : List (SinkTag × Byte)) :
    (allOk txns).map (fun t => t.ok) = List.replicate txns.length true := by
  simp [allOk, Function.comp_def]

theorem allOk_length (txns : List (SinkTag × Byte)) : (allOk txns).length = txns.length := List.length_map _

theorem allOk_filter (tag : SinkTag) (txns : List (SinkTag × Byte)) :
    (allOk txns).filter (fun t => t.tag = tag) = allOk (txns.filter fun t => t.1 = tag) := by
  simp [allOk, List.filter_map, Function.comp_def]

/-! ## Lists in blocks of equal length -/

/-- Counting in blocks of m. -/
theorem range_mul_eq_flatMap (n m : Nat) :
    List.range (n * m) = (List.range n).flatMap fun p => (List.range m).map fun x => x + p * m := by
  induction n with
  | zero => simp
  | succ n ih =>
    rw [Nat.succ_mul, List.range_add, ih, List.range_succ, List.flatMap_append, List.flatMap_singleton]
    simp only [Nat.add_comm]

/-- Entry q of block p, where every block has m entries. -/
theorem getElem?_flatMap_range {α : Type} {f : Nat → List α} {m : Nat} (hf : ∀ p, (f p).length = m) {n p q : Nat}
    (hp : p < n) (hq : q < m) : ((List.range n).flatMap f)[p * m + q]? = (f p)[q]? := by
  induction n with
  | zero => omega
  | succ n ih =>
    have hlen : ((List.range n).flatMap f).length = n * m := by simp [List.length_flatMap, hf]
    rw [List.range_succ, List.flatMap_append, List.flatMap_singleton]
    rcases Nat.lt_succ_iff_lt_or_eq.mp hp with hlt | rfl
    · have hin : p * m + q < n * m := by
        calc p * m + q < (p + 1) * m := by rw [Nat.succ_mul]; omega
          _ ≤ n * m := Nat.mul_le_mul_right m hlt
      rw [List.getElem?_append_left (by rw [hlen]; exact hin), ih hlt]
    · rw [List.getElem?_append_right (by rw [hlen]; omega), hlen, Nat.add_sub_cancel_left]

/-! ## The transactions of a FLUSH -/

section
variable (cfg : Config.Params) (fb : Memory)

theorem pageTxns_filter_data (p : Nat) : (pageTxns cfg fb p).filter (fun t => t.1 = .data) =
    (List.range 128).map fun x => (.data, fb.read (x + p * 128)) := by
  simp [pageTxns, List.filter_map, Function.comp_def]

theorem pageTxns_filter_cmd (p : Nat) : (pageTxns cfg fb p).filter (fun t => t.1 = .cmd) =
    [(.cmd, cfg.pageCmdBase ||| BitVec.ofNat 8 p), (.cmd, cfg.colLoCmd), (.cmd, cfg.colHiCmd)] := by
  simp [pageTxns, List.filter_map, Function.comp_def]

/-- The DATA transactions of a FLUSH are the framebuffer's bytes in index order (R194). -/
theorem flushTxns_filter_data : (flushTxns cfg fb).filter (fun t => t.1 = .data) =
    (List.range 1024).map fun a => (.data, fb.read a) := by
  rw [flushTxns, List.filter_flatMap, show 1024 = 8 * 128 from rfl, range_mul_eq_flatMap, List.map_flatMap]
  simp only [pageTxns_filter_data, List.map_map, Function.comp_def]

theorem flushTxns_filter_cmd_length : ((flushTxns cfg fb).filter fun t => t.1 = .cmd).length = 24 := by
  simp [flushTxns, List.filter_flatMap, List.length_flatMap, pageTxns_filter_cmd]

/-- Transaction q of page p is logged at place p × 131 + q (R194). -/
theorem allOk_flushTxns_getElem? {p q : Nat} {t : SinkTag × Byte} (hp : p < 8) (ht : (pageTxns cfg fb p)[q]? = some t) :
    (allOk (flushTxns cfg fb))[p * 131 + q]? = some ⟨t.1, t.2, true⟩ := by
  have hq : q < 131 := by
    obtain ⟨hlt, -⟩ := List.getElem?_eq_some_iff.mp ht
    rwa [pageTxns_length] at hlt
  rw [allOk, List.getElem?_map, flushTxns, getElem?_flatMap_range (pageTxns_length cfg fb) hp hq, ht, Option.map_some]

theorem pageTxns_getElem?_data (p : Nat) {x : Nat} (hx : x < 128) :
    (pageTxns cfg fb p)[3 + x]? = some (.data, fb.read (x + p * 128)) := by
  rw [pageTxns, List.getElem?_append_right (by simp)]
  simp [hx]

end

/-! ## The obligations -/

/-- Settles O37: all transactions are issued, and each stands at its place of its page. -/
theorem flushIssuesWholeFrame : Obligations.FlushIssuesWholeFrame := by
  unfold Obligations.FlushIssuesWholeFrame
  intro s rest hplan
  refine ⟨allOk (flushTxns s.cfg s.fb), ?_, ?_, ?_, ?_, fun p hp => ⟨?_, ?_, ?_, fun x hx => ?_⟩⟩
  · exact exec_stream_ok (.inl ⟨rfl, rfl⟩) (by rw [hplan, flushTxns_length])
  · rw [allOk_length, flushTxns_length]
  · rw [allOk_filter, allOk_length, flushTxns_filter_cmd_length]
  · rw [allOk_filter, allOk_length, flushTxns_filter_data, List.length_map, List.length_range]
  · rw [← Nat.add_zero (p * 131)]
    exact allOk_flushTxns_getElem? s.cfg s.fb (q := 0) hp rfl
  · exact allOk_flushTxns_getElem? s.cfg s.fb (q := 1) hp rfl
  · exact allOk_flushTxns_getElem? s.cfg s.fb (q := 2) hp rfl
  · rw [Nat.add_assoc]
    exact allOk_flushTxns_getElem? s.cfg s.fb hp (pageTxns_getElem?_data s.cfg s.fb p hx)

/-- Settles O38: the first FLUSH leaves FB and the parameters, so the second has the same transactions. -/
theorem flushIsIdempotent : Obligations.FlushIsIdempotent := by
  unfold Obligations.FlushIsIdempotent
  intro s rest hplan
  have hlen := flushTxns_length s.cfg s.fb
  have hsplit : s.env.sinkAnswers = List.replicate 1048 true ++ (List.replicate 1048 true ++ rest) := by
    rw [hplan, ← List.append_assoc, List.replicate_append_replicate]
  refine ⟨_, _, allOk (flushTxns s.cfg s.fb), exec_stream_ok (.inl ⟨rfl, rfl⟩) (by rw [hsplit, hlen]),
    exec_stream_ok (.inl ⟨rfl, rfl⟩) (rest := rest) ?_, rfl, rfl, rfl, rfl, ?_⟩
  · exact congrArg (List.replicate · true ++ rest) hlen.symm
  · rw [allOk_filter, flushTxns_filter_data]
    simp [allOk, Function.comp_def]

/-- Settles O39: INIT_SEQ as commands is what INIT issues. -/
theorem initIssuesSequence : Obligations.InitIssuesSequence := by
  unfold Obligations.InitIssuesSequence
  intro s rest hplan
  have hlog : allOk (initTxns s.cfg) = s.cfg.initSeq.map fun b => ⟨.cmd, b, true⟩ := by
    simp [allOk, initTxns, Function.comp_def]
  rw [exec_stream_ok (.inr ⟨rfl, rfl⟩) (by rw [hplan, initTxns, List.length_map]), hlog]
  rfl

/-- Settles O40: the log gains k transactions answered OK and the one answered FAIL. -/
theorem transportFailureEndsPacket : Obligations.TransportFailureEndsPacket := by
  unfold Obligations.TransportFailureEndsPacket
  intro s i txns k rest hstream hk hplan
  refine ⟨_, exec_stream_fail hstream hk hplan, ?_, ?_⟩
  · rw [List.map_append, allOk_pairs]
    exact List.take_append_getElem hk
  · rw [List.map_append, allOk_answers, List.length_take_of_le hk.le]
    rfl

end Sys2Proof.Machine
end

section
/-! SUPPORT. Proofs about errors and the ends of a run (60_exceptions.md; 70_reset_and_hazards.md R253): error entry and the
resume, the host's writes to STATUS and CMD, and that every run ends with the words of its program counted. -/

namespace Sys2Proof.Machine

/-! ## Writes to STATUS and CMD -/

theorem hostWrite_status {offset : BitVec 11} (h : regAt offset = .status) (w : Word) (s : State) :
    hostWrite offset w s = statusWrite w s := by simp only [hostWrite, h]

theorem hostWrite_cmd {offset : BitVec 11} (h : regAt offset = .cmd) (w : Word) (s : State) :
    hostWrite offset w s = cmdWrite w s := by simp only [hostWrite, h]

/-- A CMD write with room in the FIFO appends its word (R33). -/
theorem cmdWrite_room {s : State} (h : s.fifo.length ≠ s.cfg.fifoDepth) (w : Word) :
    cmdWrite w s = { s with fifo := s.fifo ++ [w] } := by rw [cmdWrite, if_neg (mt s.full_iff.mp h)]

/-- A CMD write to a full FIFO drops its word (R30). -/
theorem cmdWrite_full {s : State} (h : s.fifo.length = s.cfg.fifoDepth) (w : Word) :
    cmdWrite w s = { s with drop := true } := by rw [cmdWrite, if_pos (s.full_iff.mpr h)]

theorem cmdWrite_engine (w : Word) (s : State) : (cmdWrite w s).engine = s.engine := by
  unfold cmdWrite
  split <;> rfl

/-- Bit 3 of a STATUS write, on its own (R30). -/
theorem clearDrop_eq (b : Bool) (s : State) :
    (if b then { s with drop := false } else s) = { s with drop := s.drop && !b } := by
  cases b <;> simp

/-- A STATUS write with bit 1 = 1 while ERR = 1 resumes (R28, R214). -/
theorem statusWrite_resumes {s : State} {w : Word} (he : s.err = true) (hw : w.getLsbD 1 = true) :
    statusWrite w s = { s.resume with drop := s.drop && !w.getLsbD 3 } := by
  simp only [statusWrite, he, hw, Bool.and_self, if_true, clearDrop_eq, State.resume_drop]

/-- Without an error to clear, or with bit 1 = 0, a STATUS write does at most clear DROP (R28, R30). -/
theorem statusWrite_keeps {s : State} {w : Word} (h : s.err = false ∨ w.getLsbD 1 = false) :
    statusWrite w s = { s with drop := s.drop && !w.getLsbD 3 } := by
  have hno : (w.getLsbD 1 && s.err) = false := by rw [Bool.and_eq_false_iff]; exact h.symm
  simp only [statusWrite, hno, Bool.false_eq_true, if_false, clearDrop_eq]

theorem hostReset_engine (s : State) : (hostReset s).engine = .idle := by
  unfold hostReset
  split <;> rfl

/-- No host write halts the engine: error entry is the engine's own (R211). -/
theorem engine_halted_of_hostWrite {offset : BitVec 11} {w : Word} {s : State}
    (h : (hostWrite offset w s).engine = .halted) : s.engine = .halted := by
  unfold hostWrite at h
  split at h
  · by_cases hr : s.err = true ∧ w.getLsbD 1 = true
    · obtain ⟨he, hw⟩ := hr
      simp [statusWrite_resumes he hw] at h
    · rwa [statusWrite_keeps (by simpa [imp_iff_not_or] using hr)] at h
  · split at h
    · simp [hostReset_engine] at h
    · exact h
  · rwa [cmdWrite_engine] at h
  all_goals exact h

/-- Settles O46, by the two forms of a STATUS write. -/
theorem statusWriteResumes : Obligations.StatusWriteResumes := by
  unfold Obligations.StatusWriteResumes
  intro s w rest ht
  have hstep : step s = .next (statusWrite w (s.withTurns rest)) := by
    rw [step_write ht, hostWrite_status (regAt_status (by decide))]
  refine ⟨fun he hw => ?_, fun h => ?_⟩
  · rw [hstep, statusWrite_resumes (s := s.withTurns rest) he hw]; rfl
  · rw [hstep, statusWrite_keeps (s := s.withTurns rest) h]; rfl

/-- HALTED: the engine's move changes nothing (R213). -/
theorem engineStep_halted {s : State} (h : s.engine = .halted) : engineStep s = .next s := by simp only [engineStep, h]

/-- Settles O45, by the engine's move in HALTED and the two forms of a CMD write. -/
theorem haltedEngineStandsStill : Obligations.HaltedEngineStandsStill := by
  unfold Obligations.HaltedEngineStandsStill
  refine ⟨fun s he => ⟨fun ht => ?_, fun rest ht => ?_⟩, fun s offset w rest hl hh ht => ?_⟩
  · rw [step_of_no_turns ht, engineStep_halted he]
  · rw [step_of_engine_turn ht, engineStep_halted (s := s.withTurns rest) he]; rfl
  · have hstep : step s = .next (cmdWrite w (s.withTurns rest)) := by rw [step_write ht, hostWrite_cmd (regAt_cmd hl hh)]
    refine ⟨fun hroom => ?_, fun hfull => ?_⟩
    · rw [hstep, cmdWrite_room (s := s.withTurns rest) hroom]; rfl
    · rw [hstep, cmdWrite_full (s := s.withTurns rest) hfull]; rfl

/-! ## Error entry -/

/-- In EXEC a decoded packet is the whole packet buffer (R39). -/
theorem State.Inv.packetLength_eq {s : State} {n : Nat} (h : s.Inv) (he : s.engine = .exec)
    (hl : packetLength s.pkt = some n) : n = s.pkt.length :=
  Option.some.inj (hl.symm.trans (h.execComplete he))

/-- The engine's move that halts it in EXEC: the packet did not decode, or its command ended in an error (R210, R211). -/
theorem engineStep_error {s t : State} (hinv : s.Inv) (he : s.engine = .exec) (hs : engineStep s = .next t)
    (ht : t.engine = .halted) :
    (∃ c, decode s.pkt = .bad c s.pkt.length ∧ t = s.raiseError s.pkt.length c) ∨
    (∃ i u, decode s.pkt = .ok i s.pkt.length ∧ i.packetWords = s.pkt.length ∧ Asked i s u ∧ Errored i s u t) := by
  cases hd : decode s.pkt with
  | ok i n =>
    obtain ⟨hlen, hwords, -⟩ := decode_ok_length hd
    obtain rfl := hinv.packetLength_eq he hlen
    obtain ⟨u, t', hx, hasked, hend⟩ := exec_cases i s
    obtain rfl : t' = t := by simpa [engineStep_exec he hd, hx] using hs
    rcases hend with ⟨fb, r, rfl, -⟩ | herr
    · simp at ht
    · exact .inr ⟨i, u, rfl, hwords.symm, hasked, herr⟩
  | bad c n =>
    obtain ⟨hlen, -, -⟩ := decode_bad_length hd
    obtain rfl := hinv.packetLength_eq he hlen
    exact .inl ⟨c, rfl, by simpa [engineStep_bad he hd] using hs.symm⟩
  | incomplete => simp [engineStep, he, runPacket, hd] at hs

/-- A step that halts an engine that was not HALTED is the engine's move (R211). -/
theorem engineStep_of_step_halts {s t : State} (he : s.engine ≠ .halted) (hs : step s = .next t) (ht : t.engine = .halted) :
    engineStep (s.withTurns s.env.turns.tail) = .next t := by
  rcases step_cases hs with ⟨-, hmove⟩ | ⟨offset, w, rest, -, rfl⟩ | ⟨offset, rest, -, rfl⟩
  · exact hmove
  · exact absurd (engine_halted_of_hostWrite ht) he
  · obtain ⟨env, reads, hf⟩ := hostRead_frame offset (s.withTurns rest)
    rw [hf] at ht
    exact absurd ht he

/-- Settles O44: the step is the engine's move, which raised the error of the decoder or of the command. -/
theorem errorEntryIsPrecise : Obligations.ErrorEntryIsPrecise := by
  unfold Obligations.ErrorEntryIsPrecise
  intro s t hinv he hs ht
  have hmove := engineStep_of_step_halts (by simp [he]) hs ht
  rcases engineStep_error (hinv.withTurns s.env.turns.tail) he hmove ht with
    ⟨c, hd, rfl⟩ | ⟨i, u, hd, hwords, ⟨⟨env, obs, hu⟩, -⟩, c, rfl, hcause⟩
  · obtain ⟨-, -, rfl | rfl⟩ := decode_bad_length hd
    · exact ⟨rfl, rfl, rfl, rfl, rfl, rfl, rfl, rfl, .inl ⟨hd, rfl, rfl⟩⟩
    · exact ⟨rfl, rfl, rfl, rfl, rfl, rfl, rfl, rfl, .inr (.inl ⟨hd, rfl, rfl⟩)⟩
  · refine ⟨rfl, by rw [hu]; rfl, by rw [hu, hwords]; rfl, rfl, by rw [hu]; rfl, by rw [hu]; rfl, by rw [hu]; rfl,
      by rw [hu]; rfl, ?_⟩
    rcases hcause with ⟨rfl, hop, hsink⟩ | ⟨rfl, hop, hsink⟩ | ⟨rfl, txns, hstream, hlog, hfail⟩
    · exact .inr (.inr (.inl ⟨i, hd, hop, rfl, hsink⟩))
    · exact .inr (.inr (.inr (.inl ⟨i, hd, hop, rfl, hsink⟩)))
    · obtain ⟨new, last, hsink, hlast, hok, hpairs⟩ := emitAll_failed txns _ hfail
      rw [← hlog] at hsink
      exact .inr (.inr (.inr (.inr ⟨i, txns, hd, hstream, rfl, new, last, hsink, hlast, hok, hpairs⟩)))

/-! ## Every step answers -/

/-- The engine's move answers: EXEC always has its complete packet (R40). -/
theorem State.Inv.engineStep_next {s : State} (h : s.Inv) : ∃ t, Machine.engineStep s = .next t := by
  rcases engineStep_cases s with ⟨-, hmove⟩ | ⟨-, i, n, -, hmove⟩ | ⟨-, c, n, -, hmove⟩ | ⟨he, hc, -⟩ | ⟨-, -, hmove⟩
  · exact ⟨_, hmove⟩
  · obtain ⟨u, t, hx, -⟩ := exec_cases i { s with engine := .exec }
    exact ⟨t, hmove.trans hx⟩
  · exact ⟨_, hmove⟩
  · simp [packetComplete, h.execComplete he] at hc
  · exact ⟨_, hmove⟩

theorem State.Inv.step_next {s : State} (h : s.Inv) : ∃ t, step s = .next t := by
  unfold step
  split
  · exact h.engineStep_next
  · exact (h.withTurns _).engineStep_next
  · exact ⟨_, rfl⟩
  · exact ⟨_, rfl⟩

/-! ## Every run ends -/

/-- The run from s has ended after some number of steps that leaves no move of the host to come (R253). -/
def RunEnds (s : State) : Prop :=
  ∃ (k : Nat) (t : State) (e : RunEnd), runSteps k s = .next t ∧ t.env.turns = [] ∧ runEnd k s = some e

theorem RunEnds.of_step {s t : State} (hs : step s = .next t) (h : RunEnds t) : RunEnds s := by
  obtain ⟨k, u, e, hrun, hturns, hend⟩ := h
  obtain ⟨e', hend'⟩ := runEnd_of_step hs hend
  exact ⟨k + 1, u, e', by rw [runSteps_succ hs, hrun], hturns, hend'⟩

/-- A state that stands at one of the ends of R253 is where its run ends. -/
theorem RunEnds.here {s : State} (ht : s.env.turns = [])
    (h : s.inError = true ∨ s.dropped = true ∨ s.completed = true ∨ s.stuck = true) : RunEnds s := by
  have hend : ∃ e, runEnd 0 s = some e := by
    simp only [runEnd, runSteps, dropsWithin, Bool.false_or]
    split_ifs with hd he hc hk
    · exact ⟨_, rfl⟩
    · exact ⟨_, rfl⟩
    · exact ⟨_, rfl⟩
    · exact ⟨_, rfl⟩
    · simp [hd, he, hc, hk] at h
  obtain ⟨e, hend⟩ := hend
  exact ⟨0, s, e, rfl, ht, hend⟩

/-- The engine's moves to come: a fetch and perhaps a packet for each word in the FIFO, and the packet in EXEC. -/
def State.movesLeft (s : State) : Nat := 2 * s.fifo.length + if s.engine = .exec then 1 else 0

/-- The engine's move in EXEC ends the packet and leaves the FIFO. -/
theorem engineStep_exec_movesLeft {s t : State} (he : s.engine = .exec) (hs : engineStep s = .next t) :
    t.movesLeft < s.movesLeft := by
  have hdone : t.fifo = s.fifo ∧ t.engine ≠ .exec := by
    cases hd : decode s.pkt with
    | ok i n =>
      obtain ⟨t', hx, -, -, hfifo, -, -, -, -, hend⟩ := everyCommandConsumesItsPacket i s
      obtain rfl : t' = t := by simpa [engineStep_exec he hd, hx] using hs
      refine ⟨hfifo, ?_⟩
      rcases hend with ⟨hidle, -⟩ | ⟨hhalted, -⟩
      · simp [hidle]
      · simp [hhalted]
    | bad c n =>
      obtain rfl : s.raiseError n c = t := by simpa [engineStep_bad he hd] using hs
      exact ⟨rfl, by simp⟩
    | incomplete => simp [engineStep, he, runPacket, hd] at hs
  obtain ⟨hfifo, hne⟩ := hdone
  simp [State.movesLeft, hfifo, he, hne]

/-- A fetch takes a word off the FIFO. -/
theorem fetchWord_movesLeft {s : State} (h : s.fifo ≠ []) : (fetchWord s).movesLeft < s.movesLeft := by
  obtain ⟨w, rest, hf⟩ := List.exists_cons_of_ne_nil h
  have hone : (if (fetchWord s).engine = .exec then 1 else 0) ≤ 1 := by split <;> omega
  have hfifo : (fetchWord s).fifo = rest := by rw [fetchWord_cons hf]
  simp only [State.movesLeft, hfifo, hf, List.length_cons]
  omega

/-- With no host move to come the engine works off the FIFO, and stands at an end when it has no move left (R226, R247). -/
theorem State.Inv.runEnds_of_no_turns {s : State} (h : s.Inv) (ht : s.env.turns = []) : RunEnds s := by
  induction hn : s.movesLeft using Nat.strong_induction_on generalizing s with
  | _ n ih =>
    have hgoes : ∀ t, Machine.engineStep s = .next t → t.movesLeft < s.movesLeft → RunEnds s := fun t hs hlt =>
      .of_step (by rw [step_of_no_turns ht, hs])
        (ih _ (hn ▸ hlt) (h.engineStep hs) ((engineStep_turns hs).trans ht) rfl)
    cases he : s.engine with
    | halted => exact .here ht (.inl (h.haltedErr.mp he))
    | exec =>
      obtain ⟨t, hs⟩ := h.engineStep_next
      exact hgoes t hs (engineStep_exec_movesLeft he hs)
    | idle =>
      have hc := h.idleIncomplete he
      by_cases hf : s.fifo = []
      · have herr := h.noError (by simp [he])
        refine .here ht (.inr ?_)
        simp only [State.dropped, State.completed, State.stuck, State.allWritten, ht, programWords_nil, he, hf, herr, hc]
        cases s.drop <;> cases s.pkt <;> simp
      · exact hgoes _ (engineStep_fetches he hc) (fetchWord_movesLeft hf)

/-- Every run ends: the host's moves run out, one at each step, and then the engine's. -/
theorem State.Inv.runEnds {s : State} (h : s.Inv) : RunEnds s := by
  induction ht : s.env.turns generalizing s with
  | nil => exact h.runEnds_of_no_turns ht
  | cons turn rest ih =>
    obtain ⟨t, hs⟩ := h.step_next
    exact .of_step hs (ih (stepKeepsInvariant s t h hs) (by rw [step_turns hs, ht, List.tail_cons]))

/-! ## A completed run has consumed its program -/

theorem not_resetNext {s : State} (h : ∀ turn ∈ s.env.turns, turn.resets = false) : ¬s.resetNext := by
  rintro ⟨turn, rest, ht, hreset⟩
  simp [h turn (by simp [ht])] at hreset

/-- A run without a reset and without a dropped word keeps the count of the program's words (R35). -/
theorem runSteps_streamCount {s t : State} {k : Nat} (h : s.Inv) (hr : ∀ turn ∈ s.env.turns, turn.resets = false)
    (hd : dropsWithin k s = false) (hrun : runSteps k s = .next t) : t.streamCount = s.streamCount := by
  induction k generalizing s with
  | zero =>
    obtain rfl : s = t := by simpa [runSteps] using hrun
    rfl
  | succ k ih =>
    obtain ⟨u, hs⟩ := h.step_next
    simp only [dropsWithin, hs, Bool.or_eq_false_iff] at hd
    obtain ⟨hdrop, hdrops⟩ := hd
    have hru : ∀ turn ∈ u.env.turns, turn.resets = false := fun turn hmem =>
      hr turn (List.mem_of_mem_tail (by rwa [step_turns hs] at hmem))
    calc t.streamCount = u.streamCount :=
          ih (stepKeepsInvariant s u h hs) hru hdrops (by rwa [runSteps_succ hs] at hrun)
      _ = s.streamCount := step_streamCount h (not_resetNext hr) hdrop hs

/-- A run has ended completed: it dropped no word, and stands in a completed state (R253). -/
theorem completed_of_runEnd {s t : State} {k : Nat} (h : runEnd k s = some .completed) (hrun : runSteps k s = .next t) :
    dropsWithin k s = false ∧ t.completed = true := by
  simp only [runEnd, hrun] at h
  split_ifs at h with hd he hc hk <;> simp at h
  obtain ⟨hdrops, -⟩ : dropsWithin k s = false ∧ t.dropped = false := by simpa using hd
  exact ⟨hdrops, hc⟩

theorem State.completed_iff (s : State) : s.completed = true ↔ programWords s.env.turns = [] ∧ s.drop = false ∧
    s.engine = .idle ∧ s.fifo = [] ∧ s.pkt = [] ∧ s.err = false := by
  simp [State.completed, State.allWritten, and_assoc]

/-- A run begins in the state that a reset of the block leaves (R241). -/
theorem State.runStart.eq_blockReset {s : State} (h : s.runStart) : s = s.blockReset := h.1

theorem State.runStart.inv {s : State} (h : s.runStart) (hdepth : 1 ≤ s.cfg.fifoDepth) : s.Inv := by
  rw [h.eq_blockReset]
  exact State.Inv.blockReset hdepth

/-- When a run begins, the words of the stream are those of the program, all to be written (R253). -/
theorem State.runStart.streamCount {s : State} (h : s.runStart) :
    s.streamCount = BitVec.ofNat 32 (programWords s.env.turns).length := by
  rw [h.eq_blockReset]
  simp [State.streamCount]

/-- At a completed end the block holds no word and none is to come, so CSP is the whole count (R35). -/
theorem streamCount_of_completed {s : State} (h : s.completed = true) : s.streamCount = s.csp ∧ s.busy = false := by
  obtain ⟨hwritten, -, hidle, hfifo, hpkt, -⟩ := s.completed_iff.mp h
  exact ⟨by simp [State.streamCount, hwritten, hfifo, hpkt], by simp [State.busy, hidle, hfifo, hpkt]⟩

/-- Settles O51: a step answers under the invariant, every run ends, and the count of the program's words is kept. -/
theorem stepNeverStops : Obligations.StepNeverStops := by
  unfold Obligations.StepNeverStops
  refine ⟨fun s h => h.step_next, fun s h => h.runEnds, fun s t k hstart hdepth hend hrun => ?_⟩
  have ⟨_, hnoReset⟩ := hstart
  obtain ⟨hdrops, hdone⟩ := completed_of_runEnd hend hrun
  obtain ⟨hcsp, hbusy⟩ := streamCount_of_completed hdone
  refine ⟨?_, hbusy⟩
  calc t.csp = t.streamCount := hcsp.symm
    _ = s.streamCount := runSteps_streamCount (hstart.inv hdepth) hnoReset hdrops hrun
    _ = BitVec.ofNat 32 (programWords s.env.turns).length := hstart.streamCount

end Sys2Proof.Machine
end

section
/-! SUPPORT. Proofs about reset (70_reset_and_hazards.md R240 to R243): what a write to CTRL does, what a packet cut short has
sent, and what the host reads of a block that has been reset. -/

namespace Sys2Proof.Machine

/-! ## The block after a reset -/

/-- A reset puts the block at its power-on state and keeps the parameters (R240). -/
theorem State.blockReset_eq (s : State) :
    s.blockReset = { State.reset with cfg := s.cfg, env := s.env, obs := s.obs } := rfl

/-- Power-on state is what a reset leaves, whatever the parameters (R240). -/
theorem State.reset_eq_blockReset (cfg : Config.Params) :
    { State.reset with cfg := cfg } = ({ State.reset with cfg := cfg } : State).blockReset := rfl

theorem State.blockReset_busy (s : State) : s.blockReset.busy = false := rfl

/-- The empty FIFO has room for a word (R6). -/
theorem State.blockReset_not_full {s : State} (h : 1 ≤ s.cfg.fifoDepth) :
    s.blockReset.fifo.length ≠ s.blockReset.cfg.fifoDepth := by
  simp only [blockReset_fifo, blockReset_cfg, List.length_nil]
  omega

theorem Memory.read_zero (a : Nat) : Memory.zero.read a = 0x00#8 := rfl

theorem fbWord_zero (k : Nat) : fbWord Memory.zero k = 0#32 := by
  simp only [fbWord, Memory.read_zero]
  rfl

/-- After reset no bit of STATUS is set: FULL among them (R241). -/
theorem State.blockReset_statusWord {s : State} (h : 1 ≤ s.cfg.fifoDepth) : s.blockReset.statusWord = 0#32 := by
  have hfull : s.blockReset.full = false := by
    rw [Bool.eq_false_iff]
    exact mt s.blockReset.full_iff.mp (blockReset_not_full h)
  simp only [statusWord, hfull, blockReset_busy, blockReset_ecode, blockReset_drop, blockReset_err]
  rfl

/-- After reset every register of the window and every word of FBWIN reads 0 (R241). -/
theorem readValue_blockReset (r : Reg) {s : State} (h : 1 ≤ s.cfg.fifoDepth) : readValue r s.blockReset = 0#32 := by
  cases r with
  | status => rw [readValue_status, State.blockReset_statusWord h]
  | ctrl => rw [readValue_ctrl]
  | cmd => rw [readValue_cmd]
  | result => rw [readValue_result s.blockReset_busy]; rfl
  | csp => rw [readValue_csp]; rfl
  | epkt => rw [readValue_epkt]; rfl
  | unmapped => rw [readValue_unmapped]
  | fbwin k => rw [readValue_fbwin k s.blockReset_busy, State.blockReset_fb, fbWord_zero]

/-! ## A write to CTRL -/

theorem hostWrite_ctrl {offset : BitVec 11} (h : regAt offset = .ctrl) (w : Word) (s : State) :
    hostWrite offset w s = if w.getLsbD 0 then hostReset s else s := by simp only [hostWrite, h]

/-- A write of 1 to CTRL bit 0 is a reset (R32). -/
theorem step_ctrl_reset {s : State} {w : Word} {rest : List Turn} (ht : s.env.turns = .write 0x004 w :: rest)
    (hw : w.getLsbD 0 = true) : step s = .next (hostReset (s.withTurns rest)) := by
  rw [step_write ht, hostWrite_ctrl (regAt_ctrl (by decide) (by decide)), if_pos hw]

/-- A write of 0 to CTRL bit 0 has no effect (R32). -/
theorem step_ctrl_zero {s : State} {w : Word} {rest : List Turn} (ht : s.env.turns = .write 0x004 w :: rest)
    (hw : w.getLsbD 0 = false) : step s = .next (s.withTurns rest) := by
  rw [step_write ht, hostWrite_ctrl (regAt_ctrl (by decide) (by decide)), hw, if_neg Bool.false_ne_true]

/-- With no packet in execution a reset asks nothing of the outside (R242). -/
theorem hostReset_of_not_exec {s : State} (h : s.engine ≠ .exec) : hostReset s = s.blockReset := by
  rw [hostReset, if_neg h]

/-- A reset in EXEC cuts the packet short and then resets the block (R243). -/
theorem hostReset_of_exec {s : State} (h : s.engine = .exec) :
    hostReset s = (abortedAfter (Config.freeAbortPoint s.env.draws) s.drawn).blockReset := by
  rw [hostReset, if_pos h]

/-- A reset in any state leaves the block at its power-on state, the parameters kept (R240). -/
theorem hostReset_eq (s : State) :
    hostReset s = { State.reset with cfg := s.cfg, env := (hostReset s).env, obs := (hostReset s).obs } := by
  by_cases he : s.engine = .exec
  · obtain ⟨env, obs, hcut⟩ := abortedAfter_frame (Config.freeAbortPoint s.env.draws) s.drawn
    rw [hostReset_of_exec he, hcut]
    rfl
  · rw [hostReset_of_not_exec he]
    rfl

/-- A FLUSH or INIT cut short has issued a part of its transactions (R243). -/
theorem abortedAfter_of_isStream {i : Instr} {n k : Nat} {s : State} {txns : List (SinkTag × Byte)}
    (hd : decode s.pkt = .ok i n) (h : IsStream i s txns) : abortedAfter k s = (emitAll (txns.take k) s).1 := by
  rcases h with ⟨rfl, rfl⟩ | ⟨rfl, rfl⟩ <;> simp only [abortedAfter, hd]

/-- A reset during a FLUSH or INIT appends to the sink log the first of its transactions, and nothing else is seen (R243). -/
theorem hostReset_of_isStream {i : Instr} {n : Nat} {s : State} {txns : List (SinkTag × Byte)} (he : s.engine = .exec)
    (hd : decode s.pkt = .ok i n) (h : IsStream i s txns) :
    (hostReset s).obs.reads = s.obs.reads ∧ (hostReset s).obs.asked = s.obs.asked ∧
      ∃ new, (hostReset s).obs.sink = s.obs.sink ++ new ∧ new.map (fun x => (x.tag, x.byte)) <+: txns := by
  obtain ⟨k, hreset⟩ : ∃ k, hostReset s = (emitAll (txns.take k) s.drawn).1.blockReset :=
    ⟨_, by rw [hostReset_of_exec he, abortedAfter_of_isStream (s := s.drawn) hd h]⟩
  obtain ⟨answers, draws, sink, hframe⟩ := emitAll_frame (txns.take k) s.drawn
  obtain ⟨new, hsink, hprefix⟩ := emitAll_log (txns.take k) s.drawn
  rw [hreset, State.blockReset_obs]
  exact ⟨by rw [hframe]; rfl, by rw [hframe]; rfl, new, hsink, hprefix.trans (List.take_prefix k txns)⟩

/-! ## The obligations -/

/-- Settles O49: power-on state is the state that a reset leaves. -/
theorem resetMeetsInvariant : Obligations.ResetMeetsInvariant :=
  State.Inv.blockReset (s := State.reset) (by decide)

/-- Settles O58, by the two forms of a CTRL write and the state that a reset leaves. -/
theorem ctrlResetRestoresResetState : Obligations.CtrlResetRestoresResetState := by
  unfold Obligations.CtrlResetRestoresResetState
  intro s w rest ht
  refine ⟨fun hw => ?_, step_ctrl_zero ht⟩
  have hs := step_ctrl_reset ht hw
  refine ⟨hostReset (s.withTurns rest), hs, hostReset_eq _, by rw [step_turns hs, ht, List.tail_cons], fun he => ?_⟩
  rw [hostReset_of_not_exec (s := s.withTurns rest) he]
  exact ⟨rfl, rfl⟩

/-- Settles O59: the reset cuts the packet's list of transactions and then resets the block. -/
theorem resetAbortsPacket : Obligations.ResetAbortsPacket := by
  unfold Obligations.ResetAbortsPacket
  intro s i n txns w rest ht hw he hd hstream
  have hs := step_ctrl_reset ht hw
  obtain ⟨hreads, hasked, hsink⟩ := hostReset_of_isStream (s := s.withTurns rest) he hd hstream
  exact ⟨_, hs, hostReset_eq _, hreads, hasked, by rw [step_turns hs, ht, List.tail_cons], hsink⟩

/-- Settles O60, register by register; the FIFO has room for the first word of the stream. -/
theorem resetReadsZero : Obligations.ResetReadsZero := by
  unfold Obligations.ResetReadsZero
  intro cfg hdepth
  rw [State.reset_eq_blockReset]
  refine ⟨fun offset => readValue_blockReset _ hdepth, Memory.read_zero, rfl, rfl, rfl, rfl, fun w => ?_⟩
  rw [hostWrite_cmd (regAt_cmd (by decide) (by decide)), cmdWrite_room (State.blockReset_not_full hdepth)]
  rfl

end Sys2Proof.Machine
end
